-- ==== Sys2Proof/Word.lean ====
section
/-! DEFINITION. The bit vectors of the machine (00_scope.md rules R5, R6: every register, memory cell and field is an
unsigned bit vector of the width the spec names). -/

namespace Sys2Proof

/-- A memory cell, a general register, a timer, the field `NN` (R11, R21, R71). -/
abbrev Byte := BitVec 8

/-- An instruction word, the address register `I`, a stack entry, `FINFO` (R13, R26, R53, R70). -/
abbrev Word := BitVec 16

/-- A nibble: the fields `X`, `Y`, `N` and the register `WAITREG` (R5, R25, R71). -/
abbrev Nibble := BitVec 4

/-- A 12-bit address: `pc` and the field `NNN` (R15, R71). -/
abbrev Addr := BitVec 12

end Sys2Proof
end

