-- ==== Sys2Proof/Config.lean ====
section
/-! DEFINITION. What the spec fixes for the machine (00_scope.md rule R4), the type of its OPEN parameters, and the free
inputs of a tick that nothing constrains (40_execution_cycle.md rule R91). The DEFAULT values of the open parameters stand
in Machine/Defaults.lean. -/

namespace Sys2Proof.Config

/-- `MEM_SIZE`: 4096 bytes (R4, R40). -/
def memSize : Nat := 4096

/-- `PROG_BASE`: the load address and the reset value of `pc` (R4, R31, R244). -/
def progBase : Nat := 0x200

/-- `FONT_BASE`: the font table stands at address 0 (R4, R42). -/
def fontBase : Nat := 0

/-- `GLYPH_BYTES`: a glyph is 5 rows of one byte (R4, R43). -/
def glyphBytes : Nat := 5

/-- `FONT_BYTES`: 16 glyphs of 5 bytes (R4, R43). -/
def fontBytes : Nat := 80

/-- `STACK_BYTES`: 24 slots of two bytes (R4, R53, 90_conflicts.md C13). -/
def stackBytes : Nat := 48

/-- `FLAG_REG`: VF is `V[0xF]` (R4, R12). -/
def flagReg : Nibble := 0xF#4

/-- The OPEN parameters of the model (R4, "OPEN is an argument of the model"; 92_eei_decisions.md D1, D7). They stand in
State, where no step changes them, so that a claim about every state is a claim for every legal value of both. -/
structure Params where
  /-- `STACK_BASE`, with `STACK_BASE + 48 <= 4096` (R42): 0 to 4048. -/
  stackBase : Fin 4049
  /-- `FONT`: row `r` of the glyph of digit `d` is `font[d][r]`, the cell `5*d + r` at power-on (R43). -/
  font : Vector (Vector Byte 5) 16
deriving DecidableEq, Repr

/-- The three inputs of one tick (R91): the random byte and the two timer strobes. -/
structure TickInputs where
  rnd   : Byte
  dueDt : Bool
  dueSt : Bool
deriving DecidableEq, Repr

/-- The random byte of the `n`-th tick whose inputs the host's list does not give: any byte (R27, R91, U2). -/
opaque freeRnd : Nat → Byte

/-- The delay timer's strobe of that tick: either value (R28, R91, U5). -/
opaque freeDueDt : Nat → Bool

/-- The sound timer's strobe of that tick: either value (R28, R91, U5). -/
opaque freeDueSt : Nat → Bool

/-- The inputs of that tick, all three free (R91). -/
def freeInputs (n : Nat) : TickInputs := ⟨freeRnd n, freeDueDt n, freeDueSt n⟩

end Sys2Proof.Config
end

