-- ==== Sys2Proof/Syntax.lean ====
section
/-! DEFINITION. The instruction set as syntax: one constructor for each of the 35 patterns of 30_encoding.md rule R74
(spec/opcode_table.json), with the operand fields of rule R71 that its format (R72) has. -/

namespace Sys2Proof

/-- A decoded instruction. `x`, `y` are register numbers, `n` a count, `nn` an 8-bit immediate, `nnn` a 12-bit address. -/
inductive Instr where
  /-- `SYS nnn`, 0NNN other than 00E0 and 00EE (R110). -/
  | sys (nnn : Addr)
  /-- `CLS`, 00E0 (R160). -/
  | cls
  /-- `RET`, 00EE (R111). -/
  | ret
  /-- `JP nnn`, 1NNN (R112). -/
  | jp (nnn : Addr)
  /-- `CALL nnn`, 2NNN (R113). -/
  | call (nnn : Addr)
  /-- `SE_IMM Vx, nn`, 3XNN (R120). -/
  | seImm (x : Nibble) (nn : Byte)
  /-- `SNE_IMM Vx, nn`, 4XNN (R121). -/
  | sneImm (x : Nibble) (nn : Byte)
  /-- `SE_REG Vx, Vy`, 5XY0 (R122). -/
  | seReg (x y : Nibble)
  /-- `LD_IMM Vx, nn`, 6XNN (R130). -/
  | ldImm (x : Nibble) (nn : Byte)
  /-- `ADD_IMM Vx, nn`, 7XNN (R131). -/
  | addImm (x : Nibble) (nn : Byte)
  /-- `LD_REG Vx, Vy`, 8XY0 (R132). -/
  | ldReg (x y : Nibble)
  /-- `OR Vx, Vy`, 8XY1 (R133). -/
  | orReg (x y : Nibble)
  /-- `AND Vx, Vy`, 8XY2 (R134). -/
  | andReg (x y : Nibble)
  /-- `XOR Vx, Vy`, 8XY3 (R135). -/
  | xorReg (x y : Nibble)
  /-- `ADD_REG Vx, Vy`, 8XY4 (R136). -/
  | addReg (x y : Nibble)
  /-- `SUB Vx, Vy`, 8XY5 (R137). -/
  | sub (x y : Nibble)
  /-- `SHR Vx, Vy`, 8XY6 (R138). -/
  | shr (x y : Nibble)
  /-- `SUBN Vx, Vy`, 8XY7 (R139). -/
  | subn (x y : Nibble)
  /-- `SHL Vx, Vy`, 8XYE (R140). -/
  | shl (x y : Nibble)
  /-- `SNE_REG Vx, Vy`, 9XY0 (R123). -/
  | sneReg (x y : Nibble)
  /-- `LD_I nnn`, ANNN (R150). -/
  | ldI (nnn : Addr)
  /-- `JP_V0 nnn`, BNNN (R114). -/
  | jpV0 (nnn : Addr)
  /-- `RND Vx, nn`, CXNN (R141). -/
  | rnd (x : Nibble) (nn : Byte)
  /-- `DRW Vx, Vy, n`, DXYN (R161). -/
  | drw (x y n : Nibble)
  /-- `SKP Vx`, EX9E (R170). -/
  | skp (x : Nibble)
  /-- `SKNP Vx`, EXA1 (R171). -/
  | sknp (x : Nibble)
  /-- `LD_VX_DT Vx`, FX07 (R173). -/
  | ldVxDt (x : Nibble)
  /-- `LD_VX_K Vx`, FX0A (R172). -/
  | ldVxK (x : Nibble)
  /-- `LD_DT_VX Vx`, FX15 (R174). -/
  | ldDtVx (x : Nibble)
  /-- `LD_ST_VX Vx`, FX18 (R175). -/
  | ldStVx (x : Nibble)
  /-- `ADD_I Vx`, FX1E (R151). -/
  | addI (x : Nibble)
  /-- `LD_F Vx`, FX29 (R152). -/
  | ldF (x : Nibble)
  /-- `LD_B Vx`, FX33 (R153). -/
  | ldB (x : Nibble)
  /-- `ST_REGS Vx`, FX55 (R154). -/
  | stRegs (x : Nibble)
  /-- `LD_REGS Vx`, FX65 (R155). -/
  | ldRegs (x : Nibble)
deriving DecidableEq, Repr

end Sys2Proof
end

