-- ==== Sys2Proof/WellFormed.lean ====
section
/-! DEFINITION. Which terms of Instr are instructions. The widths of the fields are their types, and every value of `X`, `Y`,
`N`, `NN` is legal (30_encoding.md rule R73); the one check left is that the pattern `0NNN` of `SYS` does not stand for the
words of `CLS` and `RET` (rules R75, R110). -/

namespace Sys2Proof

/-- `SYS nnn` exists for every `nnn` but 0x0E0 and 0x0EE (R75, R110). -/
def sysAddressOk (nnn : Addr) : Bool := nnn != 0x0E0#12 && nnn != 0x0EE#12

/-- A term of Instr that some word encodes (R74, R75). -/
def Instr.wf : Instr → Bool
  | .sys nnn => sysAddressOk nnn
  | .cls | .ret => true
  | .jp _ | .call _ | .ldI _ | .jpV0 _ => true
  | .seImm _ _ | .sneImm _ _ | .ldImm _ _ | .addImm _ _ | .rnd _ _ => true
  | .seReg _ _ | .sneReg _ _ => true
  | .ldReg _ _ | .orReg _ _ | .andReg _ _ | .xorReg _ _ => true
  | .addReg _ _ | .sub _ _ | .shr _ _ | .subn _ _ | .shl _ _ => true
  | .drw _ _ _ => true
  | .skp _ | .sknp _ => true
  | .ldVxDt _ | .ldVxK _ | .ldDtVx _ | .ldStVx _ => true
  | .addI _ | .ldF _ | .ldB _ | .stRegs _ | .ldRegs _ => true

end Sys2Proof
end

