-- ==== Sys2Proof/Decode.lean ====
section
/-! DEFINITION. From bytes to instructions and back (30_encoding.md): field extraction and byte order, the decoder (total,
every word is an instruction or is rejected by name), the encoder written from the same patterns, the opcode table's masks,
and the assembler text of rule R83. -/

namespace Sys2Proof

/-- The 16-bit value whose high byte stands at the lower address (20_memory.md R48, R50; R70). -/
def bigEndian (high low : Byte) : Word := high ++ low

/-- The byte of a word that stands at the lower address: bits 15:8 (R49, R50). -/
def highByte (w : Word) : Byte := w.extractLsb' 8 8

/-- The byte of a word that stands at the higher address: bits 7:0 (R49, R50). -/
def lowByte (w : Word) : Byte := w.extractLsb' 0 8

/-- Nibble 3, `w[15:12]`: the family selector `OP` (R71). -/
def fieldOp (w : Word) : Nibble := w.extractLsb' 12 4

/-- Nibble 2, `w[11:8]`: the field `X` (R71). -/
def fieldX (w : Word) : Nibble := w.extractLsb' 8 4

/-- Nibble 1, `w[7:4]`: the field `Y` (R71). -/
def fieldY (w : Word) : Nibble := w.extractLsb' 4 4

/-- Nibble 0, `w[3:0]`: the field `N` (R71). -/
def fieldN (w : Word) : Nibble := w.extractLsb' 0 4

/-- `NN = Y ++ N` (R71). -/
def immediate (y n : Nibble) : Byte := y ++ n

/-- `NNN = X ++ Y ++ N` (R71). -/
def address (x y n : Nibble) : Addr := x ++ y ++ n

/-- Why a word (or a byte list) is no instruction. -/
inductive DecodeError where
  /-- Fewer than two bytes: every instruction is two bytes (R70). Never raised by a tick, whose fetch gives a word. -/
  | truncated
  /-- Family 5 with `N` other than 0 (R79). -/
  | reservedFamily5 (w : Word)
  /-- Family 8 with `N` one of 8 to 0xD, 0xF (R76). -/
  | unknownFamily8 (w : Word)
  /-- Family 9 with `N` other than 0 (R79). -/
  | reservedFamily9 (w : Word)
  /-- Family E with a low byte other than 9E, A1 (R77). -/
  | unknownFamilyE (w : Word)
  /-- Family F with a low byte that is none of the nine (R78). -/
  | unknownFamilyF (w : Word)
deriving DecidableEq, Repr

/-- Family 0 (R75): the whole word tells `CLS` and `RET` from `SYS`. -/
def decodeFamily0 (nnn : Addr) : Instr :=
  if nnn = 0x0E0#12 then .cls
  else if nnn = 0x0EE#12 then .ret
  else .sys nnn

/-- Family 8 (R76): second dispatch on `N`. -/
def decodeFamily8 (w : Word) (x y n : Nibble) : Except DecodeError Instr :=
  match n with
  | 0x0#4 => .ok (.ldReg x y)
  | 0x1#4 => .ok (.orReg x y)
  | 0x2#4 => .ok (.andReg x y)
  | 0x3#4 => .ok (.xorReg x y)
  | 0x4#4 => .ok (.addReg x y)
  | 0x5#4 => .ok (.sub x y)
  | 0x6#4 => .ok (.shr x y)
  | 0x7#4 => .ok (.subn x y)
  | 0xE#4 => .ok (.shl x y)
  | _ => .error (.unknownFamily8 w)

/-- Family E (R77): second dispatch on the whole low byte. -/
def decodeFamilyE (w : Word) (x : Nibble) (nn : Byte) : Except DecodeError Instr :=
  match nn with
  | 0x9E#8 => .ok (.skp x)
  | 0xA1#8 => .ok (.sknp x)
  | _ => .error (.unknownFamilyE w)

/-- Family F (R78): second dispatch on the whole low byte. -/
def decodeFamilyF (w : Word) (x : Nibble) (nn : Byte) : Except DecodeError Instr :=
  match nn with
  | 0x07#8 => .ok (.ldVxDt x)
  | 0x0A#8 => .ok (.ldVxK x)
  | 0x15#8 => .ok (.ldDtVx x)
  | 0x18#8 => .ok (.ldStVx x)
  | 0x1E#8 => .ok (.addI x)
  | 0x29#8 => .ok (.ldF x)
  | 0x33#8 => .ok (.ldB x)
  | 0x55#8 => .ok (.stRegs x)
  | 0x65#8 => .ok (.ldRegs x)
  | _ => .error (.unknownFamilyF w)

/-- First-level dispatch on the family selector (R74 to R79), the word's four nibbles given; `w` is carried for the error. -/
def decodeNibbles (w : Word) (op x y n : Nibble) : Except DecodeError Instr :=
  match op with
  | 0x0#4 => .ok (decodeFamily0 (address x y n))
  | 0x1#4 => .ok (.jp (address x y n))
  | 0x2#4 => .ok (.call (address x y n))
  | 0x3#4 => .ok (.seImm x (immediate y n))
  | 0x4#4 => .ok (.sneImm x (immediate y n))
  | 0x5#4 => if n = 0x0#4 then .ok (.seReg x y) else .error (.reservedFamily5 w)
  | 0x6#4 => .ok (.ldImm x (immediate y n))
  | 0x7#4 => .ok (.addImm x (immediate y n))
  | 0x8#4 => decodeFamily8 w x y n
  | 0x9#4 => if n = 0x0#4 then .ok (.sneReg x y) else .error (.reservedFamily9 w)
  | 0xA#4 => .ok (.ldI (address x y n))
  | 0xB#4 => .ok (.jpV0 (address x y n))
  | 0xC#4 => .ok (.rnd x (immediate y n))
  | 0xD#4 => .ok (.drw x y n)
  | 0xE#4 => decodeFamilyE w x (immediate y n)
  | _ => decodeFamilyF w x (immediate y n)

/-- The decoder: a total function of the 16-bit word alone (R74, R80, R94). -/
def decode (w : Word) : Except DecodeError Instr :=
  decodeNibbles w (fieldOp w) (fieldX w) (fieldY w) (fieldN w)

/-- Decoding the first instruction of a byte sequence, high byte first (R70, R243): the instruction and the bytes after it. -/
def decodeBytes : List Byte → Except DecodeError (Instr × List Byte)
  | high :: low :: rest =>
    match decode (bigEndian high low) with
    | .ok i => .ok (i, rest)
    | .error e => .error e
  | _ => .error .truncated

/-- The decoder's answer for an opcode-table word of `nbits` bits (bit 0 the least significant of the one 16-bit word). -/
def decodeTableWord (nbits w : Nat) : Option Instr :=
  if nbits ≤ 16 then
    let word : Word := BitVec.ofNat 16 (w % 2 ^ nbits)
    match decodeBytes [highByte word, lowByte word] with
    | .ok (i, _) => some i
    | .error _ => none
  else none

/-- Format ADDR (R72): `OP ++ NNN`. -/
def formatAddr (op : Nibble) (nnn : Addr) : Word := op ++ nnn

/-- Format XIMM (R72): `OP ++ X ++ NN`. Format XSUB is the same with a literal low byte. -/
def formatXImm (op x : Nibble) (nn : Byte) : Word := op ++ x ++ nn

/-- Format XYN (R72): `OP ++ X ++ Y ++ N`. Format XY is the same with a literal low nibble. -/
def formatXYN (op x y n : Nibble) : Word := op ++ x ++ y ++ n

/-- The encoder: the instruction's pattern of R74 with its operand fields substituted (R83). -/
def encode : Instr → Word
  | .sys nnn => formatAddr 0x0#4 nnn
  | .cls => 0x00E0#16
  | .ret => 0x00EE#16
  | .jp nnn => formatAddr 0x1#4 nnn
  | .call nnn => formatAddr 0x2#4 nnn
  | .seImm x nn => formatXImm 0x3#4 x nn
  | .sneImm x nn => formatXImm 0x4#4 x nn
  | .seReg x y => formatXYN 0x5#4 x y 0x0#4
  | .ldImm x nn => formatXImm 0x6#4 x nn
  | .addImm x nn => formatXImm 0x7#4 x nn
  | .ldReg x y => formatXYN 0x8#4 x y 0x0#4
  | .orReg x y => formatXYN 0x8#4 x y 0x1#4
  | .andReg x y => formatXYN 0x8#4 x y 0x2#4
  | .xorReg x y => formatXYN 0x8#4 x y 0x3#4
  | .addReg x y => formatXYN 0x8#4 x y 0x4#4
  | .sub x y => formatXYN 0x8#4 x y 0x5#4
  | .shr x y => formatXYN 0x8#4 x y 0x6#4
  | .subn x y => formatXYN 0x8#4 x y 0x7#4
  | .shl x y => formatXYN 0x8#4 x y 0xE#4
  | .sneReg x y => formatXYN 0x9#4 x y 0x0#4
  | .ldI nnn => formatAddr 0xA#4 nnn
  | .jpV0 nnn => formatAddr 0xB#4 nnn
  | .rnd x nn => formatXImm 0xC#4 x nn
  | .drw x y n => formatXYN 0xD#4 x y n
  | .skp x => formatXImm 0xE#4 x 0x9E#8
  | .sknp x => formatXImm 0xE#4 x 0xA1#8
  | .ldVxDt x => formatXImm 0xF#4 x 0x07#8
  | .ldVxK x => formatXImm 0xF#4 x 0x0A#8
  | .ldDtVx x => formatXImm 0xF#4 x 0x15#8
  | .ldStVx x => formatXImm 0xF#4 x 0x18#8
  | .addI x => formatXImm 0xF#4 x 0x1E#8
  | .ldF x => formatXImm 0xF#4 x 0x29#8
  | .ldB x => formatXImm 0xF#4 x 0x33#8
  | .stRegs x => formatXImm 0xF#4 x 0x55#8
  | .ldRegs x => formatXImm 0xF#4 x 0x65#8

/-- The two bytes of an instruction as memory and a ROM image hold them (R70, R243). -/
def encodeBytes (i : Instr) : List Byte := [highByte (encode i), lowByte (encode i)]

/-- A ROM image: the instruction words concatenated, high byte first, no header (R84, R243). -/
def romImage (program : List Instr) : List Byte := program.flatMap encodeBytes

/-- The row of spec/opcode_table.json an instruction belongs to: its mask, and the bits the mask selects. -/
def tableRow : Instr → Word × Word
  | .sys _ => (0xF000#16, 0x0000#16)
  | .cls => (0xFFFF#16, 0x00E0#16)
  | .ret => (0xFFFF#16, 0x00EE#16)
  | .jp _ => (0xF000#16, 0x1000#16)
  | .call _ => (0xF000#16, 0x2000#16)
  | .seImm _ _ => (0xF000#16, 0x3000#16)
  | .sneImm _ _ => (0xF000#16, 0x4000#16)
  | .seReg _ _ => (0xF00F#16, 0x5000#16)
  | .ldImm _ _ => (0xF000#16, 0x6000#16)
  | .addImm _ _ => (0xF000#16, 0x7000#16)
  | .ldReg _ _ => (0xF00F#16, 0x8000#16)
  | .orReg _ _ => (0xF00F#16, 0x8001#16)
  | .andReg _ _ => (0xF00F#16, 0x8002#16)
  | .xorReg _ _ => (0xF00F#16, 0x8003#16)
  | .addReg _ _ => (0xF00F#16, 0x8004#16)
  | .sub _ _ => (0xF00F#16, 0x8005#16)
  | .shr _ _ => (0xF00F#16, 0x8006#16)
  | .subn _ _ => (0xF00F#16, 0x8007#16)
  | .shl _ _ => (0xF00F#16, 0x800E#16)
  | .sneReg _ _ => (0xF00F#16, 0x9000#16)
  | .ldI _ => (0xF000#16, 0xA000#16)
  | .jpV0 _ => (0xF000#16, 0xB000#16)
  | .rnd _ _ => (0xF000#16, 0xC000#16)
  | .drw _ _ _ => (0xF000#16, 0xD000#16)
  | .skp _ => (0xF0FF#16, 0xE09E#16)
  | .sknp _ => (0xF0FF#16, 0xE0A1#16)
  | .ldVxDt _ => (0xF0FF#16, 0xF007#16)
  | .ldVxK _ => (0xF0FF#16, 0xF00A#16)
  | .ldDtVx _ => (0xF0FF#16, 0xF015#16)
  | .ldStVx _ => (0xF0FF#16, 0xF018#16)
  | .addI _ => (0xF0FF#16, 0xF01E#16)
  | .ldF _ => (0xF0FF#16, 0xF029#16)
  | .ldB _ => (0xF0FF#16, 0xF033#16)
  | .stRegs _ => (0xF0FF#16, 0xF055#16)
  | .ldRegs _ => (0xF0FF#16, 0xF065#16)

/-- One hexadecimal digit, capital letters (R83). -/
def hexDigit (d : Nibble) : List Char := [(Nat.digitChar d.toNat).toUpper]

/-- A register operand: `V0` to `VF` (R83). -/
def registerText (x : Nibble) : List Char := 'V' :: hexDigit x

/-- A hexadecimal number of the given nibbles (R83: "Numbers are `0x` hexadecimal or decimal"). -/
def numberText (ds : List Nibble) : List Char := '0' :: 'x' :: ds.flatMap hexDigit

/-- An 8-bit number operand. -/
def byteText (nn : Byte) : List Char := numberText [nn.extractLsb' 4 4, nn.extractLsb' 0 4]

/-- A 12-bit address operand. -/
def addressText (nnn : Addr) : List Char := numberText [nnn.extractLsb' 8 4, nnn.extractLsb' 4 4, nnn.extractLsb' 0 4]

/-- The mnemonic and the operands in the order of R83. -/
def assemblyParts : Instr → String × List (List Char)
  | .sys nnn => ("SYS", [addressText nnn])
  | .cls => ("CLS", [])
  | .ret => ("RET", [])
  | .jp nnn => ("JP", [addressText nnn])
  | .call nnn => ("CALL", [addressText nnn])
  | .seImm x nn => ("SE_IMM", [registerText x, byteText nn])
  | .sneImm x nn => ("SNE_IMM", [registerText x, byteText nn])
  | .seReg x y => ("SE_REG", [registerText x, registerText y])
  | .ldImm x nn => ("LD_IMM", [registerText x, byteText nn])
  | .addImm x nn => ("ADD_IMM", [registerText x, byteText nn])
  | .ldReg x y => ("LD_REG", [registerText x, registerText y])
  | .orReg x y => ("OR", [registerText x, registerText y])
  | .andReg x y => ("AND", [registerText x, registerText y])
  | .xorReg x y => ("XOR", [registerText x, registerText y])
  | .addReg x y => ("ADD_REG", [registerText x, registerText y])
  | .sub x y => ("SUB", [registerText x, registerText y])
  | .shr x y => ("SHR", [registerText x, registerText y])
  | .subn x y => ("SUBN", [registerText x, registerText y])
  | .shl x y => ("SHL", [registerText x, registerText y])
  | .sneReg x y => ("SNE_REG", [registerText x, registerText y])
  | .ldI nnn => ("LD_I", [addressText nnn])
  | .jpV0 nnn => ("JP_V0", [addressText nnn])
  | .rnd x nn => ("RND", [registerText x, byteText nn])
  | .drw x y n => ("DRW", [registerText x, registerText y, numberText [n]])
  | .skp x => ("SKP", [registerText x])
  | .sknp x => ("SKNP", [registerText x])
  | .ldVxDt x => ("LD_VX_DT", [registerText x])
  | .ldVxK x => ("LD_VX_K", [registerText x])
  | .ldDtVx x => ("LD_DT_VX", [registerText x])
  | .ldStVx x => ("LD_ST_VX", [registerText x])
  | .addI x => ("ADD_I", [registerText x])
  | .ldF x => ("LD_F", [registerText x])
  | .ldB x => ("LD_B", [registerText x])
  | .stRegs x => ("ST_REGS", [registerText x])
  | .ldRegs x => ("LD_REGS", [registerText x])

/-- One line of assembler text: the mnemonic, then the operands separated by commas (R83). -/
def assembly (i : Instr) : String :=
  let parts := assemblyParts i
  match parts.2 with
  | [] => parts.1
  | ops => parts.1 ++ " " ++ String.ofList ([',', ' '].intercalate ops)

end Sys2Proof
end

