-- ==== Sys2Proof/Machine/Defaults.lean ====
section
/-! DEFINITION. The default values of the two OPEN parameters, which only `State.reset` takes: the values the spec uses for
its test vectors (92_eei_decisions.md, "Open parameters, collected"). No claim about every state rests on them. -/

namespace Sys2Proof.Machine

/-- The default of `STACK_BASE`, 0xEA0: from general knowledge, not in the source (R4, D1, G2). DESIGN CHOICE, log 3. -/
def defaultStackBase : Fin 4049 := 0xEA0

/-- The default of `FONT`, glyph by glyph: the table of R43, from general knowledge (D7, G1). PRESUMED, log 3. -/
def defaultFont : Vector (Vector Byte 5) 16 :=
  #v[#v[0xF0#8, 0x90#8, 0x90#8, 0x90#8, 0xF0#8],
     #v[0x20#8, 0x60#8, 0x20#8, 0x20#8, 0x70#8],
     #v[0xF0#8, 0x10#8, 0xF0#8, 0x80#8, 0xF0#8],
     #v[0xF0#8, 0x10#8, 0xF0#8, 0x10#8, 0xF0#8],
     #v[0x90#8, 0x90#8, 0xF0#8, 0x10#8, 0x10#8],
     #v[0xF0#8, 0x80#8, 0xF0#8, 0x10#8, 0xF0#8],
     #v[0xF0#8, 0x80#8, 0xF0#8, 0x90#8, 0xF0#8],
     #v[0xF0#8, 0x10#8, 0x20#8, 0x40#8, 0x40#8],
     #v[0xF0#8, 0x90#8, 0xF0#8, 0x90#8, 0xF0#8],
     #v[0xF0#8, 0x90#8, 0xF0#8, 0x10#8, 0xF0#8],
     #v[0xF0#8, 0x90#8, 0xF0#8, 0x90#8, 0x90#8],
     #v[0xE0#8, 0x90#8, 0xE0#8, 0x90#8, 0xE0#8],
     #v[0xF0#8, 0x80#8, 0x80#8, 0x80#8, 0xF0#8],
     #v[0xE0#8, 0x90#8, 0x90#8, 0x90#8, 0xE0#8],
     #v[0xF0#8, 0x80#8, 0xF0#8, 0x80#8, 0xF0#8],
     #v[0xF0#8, 0x80#8, 0xF0#8, 0x80#8, 0x80#8]]

/-- Both defaults together: the parameters of `State.reset`. -/
def defaultParams : Config.Params := ⟨defaultStackBase, defaultFont⟩

end Sys2Proof.Machine
end

