-- ==== Sys2Proof/Machine/State.lean ====
section
/-! DEFINITION. The state of the machine as plain data (10_state.md), the steps the host may take (R90), the reasons a step
can stop, and the state right after reset. Fields named in capitals are the spec's own (R10); the fields `params`, `inputs`,
`draws`, `out` are the model's (INVENTORY.md, "State"). -/

namespace Sys2Proof.Machine

/-- `MODE` (R24). -/
inductive Mode where
  | running
  | awaitingKey
  | faulted
deriving DecidableEq, Repr

/-- `FCAUSE`: the six fatal conditions (60_exceptions.md R200). -/
inductive Cause where
  /-- Code 1, raised by decode on an unrecognized word (R201). -/
  | illegalOpcode
  /-- Code 2, raised by `SYS` (R202). -/
  | machineCall
  /-- Code 3, raised by `Push`, that is by `CALL` (R203). -/
  | stackOverflow
  /-- Code 4, raised by `Pop`, that is by `RET` (R204). -/
  | stackUnderflow
  /-- Code 5, raised by a byte access above 0xFFF (R205). -/
  | memBounds
  /-- Code 6, raised by `SKP`, `SKNP` on a register above 0x0F (R206). -/
  | keyRange
deriving DecidableEq, Repr

/-- A host event between two ticks (R90): the ports that can change state. Arguments have the widths of R218, R222 to R224,
R226; `DebugSetReg`'s index has no width in the spec and is any number (log 14). -/
inductive HostEvent where
  /-- `SetKeyState(code, pressed)` (R218). -/
  | setKeyState (code : Byte) (pressed : Bool)
  /-- `Reset` (R241). -/
  | reset
  /-- `LoadROM(bytes)` (R242). -/
  | loadROM (bytes : List Byte)
  /-- `WriteByte(a, v)` (R226). -/
  | writeByte (a : Addr) (v : Byte)
  /-- `DebugSetPC(v)` (R222). -/
  | debugSetPC (v : Word)
  /-- `DebugSetReg(i, v)` (R223). -/
  | debugSetReg (i : Nat) (v : Byte)
  /-- `DebugSetI(v)` (R224). -/
  | debugSetI (v : Word)
deriving DecidableEq, Repr

/-- One step of a run: a tick with its inputs, or a host event (R90, R91). -/
inductive Input where
  | tick (inputs : Config.TickInputs)
  | event (e : HostEvent)
deriving DecidableEq, Repr

/-- What the block shows during one step and no longer: the output events of R29, and the error reply of a rejected debug
write (R212). -/
structure Outputs where
  /-- `refresh`: the framebuffer may have changed (R29, R220). -/
  refresh    : Bool := false
  /-- `beep`: the sound timer was decremented in this step (R217). -/
  beep       : Bool := false
  /-- `fault(cause, info)`: the engine entered Faulted in this step (R207). -/
  fault      : Option (Cause × Word) := none
  /-- The reply to a debug write that was rejected (R212, R222 to R224). -/
  errorReply : Bool := false
deriving DecidableEq, Repr

/-- The framebuffer: 32 rows of 64 pixels, row 0 the top one; `FB[x][y]` is pixel `x` of row `y` (R22). -/
abbrev Framebuffer := Vector (Vector Bool 64) 32

/-- Memory as (address, byte) pairs: addresses strictly rising, no entry equal to what an unlisted address reads as
(`Memory.wf`). -/
abbrev Memory := List Host.Cell

structure State where
  /-- The general registers V0 to VF (R11); `V[15]` is the flag (R12). -/
  V       : Vector Byte 16
  /-- The address register (R13, R14). -/
  I       : Word
  /-- The program counter (R15, R16). -/
  pc      : Addr
  /-- The stack pointer, the address of the next free slot (R17). -/
  SP      : Nat
  /-- The delay timer (R19). -/
  DT      : Byte
  /-- The sound timer (R20). -/
  ST      : Byte
  /-- The one memory: program, data, stack and font (R18, R21, R40). -/
  MEM     : Memory
  /-- The framebuffer (R22). -/
  FB      : Framebuffer
  /-- The key latch (R23). -/
  K       : Vector Bool 16
  /-- The macro-state (R24). -/
  MODE    : Mode
  /-- The register that receives the key when a wait ends (R25). -/
  WAITREG : Nibble
  /-- The fault record's cause, none after reset (R26, R31). -/
  FCAUSE  : Option Cause
  /-- The fault record's information word (R26, R31). -/
  FINFO   : Word
  /-- The OPEN parameters `STACK_BASE` and `FONT` (R4); no step changes them. -/
  params  : Config.Params
  /-- The host's coming steps, the next one first (R90, R91). -/
  inputs  : List Input
  /-- How many ticks had their inputs from the free values of Config, the list being empty. -/
  draws   : Nat
  /-- The outputs of the last step (R29). -/
  out     : Outputs
deriving DecidableEq, Repr

/-- The reasons a step stops with a fault: none. The machine's fatal conditions are entries into `MODE = Faulted`, which the
spec describes (R207) and the model takes as next states; a tick in Faulted changes nothing (R99). Nobody raises a value of
this type, so it is safe. -/
inductive Fault where
deriving DecidableEq, Repr

/-- The reasons a step is refused. -/
inductive Refusal where
  /-- Raised by an arm of `exec` whose instruction has no meaning yet; no arm of this model does. Safe: the run stops. -/
  | notModelled (mnemonic : String)
deriving DecidableEq, Repr

/-- The outcome of a step of this machine. -/
abbrev Result := Host.Outcome State Fault Refusal

/-- The state after `PowerOn` with the given parameters (R32, R240): the reset values of R31, memory holding `FONT` and
zeros (nothing listed), no key pressed. The host's list is empty and `refresh` is raised, as Reset raises it (R241). -/
def State.powerOn (p : Config.Params) : State where
  V       := Vector.replicate 16 0x00#8
  I       := 0x0000#16
  pc      := BitVec.ofNat 12 Config.progBase
  SP      := p.stackBase.val
  DT      := 0x00#8
  ST      := 0x00#8
  MEM     := []
  FB      := Vector.replicate 32 (Vector.replicate 64 false)
  K       := Vector.replicate 16 false
  MODE    := .running
  WAITREG := 0x0#4
  FCAUSE  := none
  FINFO   := 0x0000#16
  params  := p
  inputs  := []
  draws   := 0
  out     := { refresh := true }

/-- The machine right after reset: `PowerOn` with the default parameters (R31, R32, R240, R241; log 3). -/
def State.reset : State := State.powerOn defaultParams

end Sys2Proof.Machine
end

