-- ==== Sys2Proof/Machine/Memory.lean ====
section
/-! DEFINITION. Memory as data: what an unlisted address reads as, the canonical form, and the read and write of one cell
(20_memory.md R21, R32, R43, R46, R47). Addresses are checked by the primitives of Machine/Ops.lean. -/

namespace Sys2Proof.Machine

/-- The font byte at address `a`: `FONT[5*d + r]` is row `r` of digit `d` (R43). -/
def fontByte (font : Vector (Vector Byte 5) 16) (a : Nat) : Byte :=
  if h : a / 5 < 16 then (font[a / 5]'h)[a % 5]'(Nat.mod_lt a (by decide)) else 0x00#8

/-- What an unlisted address reads as, the power-on contents: `FONT` at 0x000 to 0x04F, zero elsewhere (R32, R240). -/
def Memory.unlisted (font : Vector (Vector Byte 5) 16) (a : Nat) : Byte :=
  if a < Config.fontBytes then fontByte font a else 0x00#8

/-- Every address of the list is above `a` and the addresses rise strictly. -/
def Memory.risesFrom : Nat → Memory → Bool
  | _, [] => true
  | a, (b, _) :: m => decide (a ≤ b) && Memory.risesFrom (b + 1) m

/-- The canonical form: addresses strictly rising, inside the address space, no entry equal to the unlisted value. -/
def Memory.wf (font : Vector (Vector Byte 5) 16) (m : Memory) : Bool :=
  Memory.risesFrom 0 m && m.all (fun c => decide (c.1 < Config.memSize) && c.2 != Memory.unlisted font c.1)

/-- The listed byte at `a`, if there is one. -/
def Memory.find? : Memory → Nat → Option Byte
  | [], _ => none
  | (b, v) :: m, a => if b = a then some v else Memory.find? m a

/-- The byte a cell holds (R46). -/
def Memory.get (font : Vector (Vector Byte 5) 16) (m : Memory) (a : Nat) : Byte :=
  match Memory.find? m a with
  | some v => v
  | none => Memory.unlisted font a

/-- The list with the entry `(a, v)` in its place. -/
def Memory.insert : Memory → Nat → Byte → Memory
  | [], a, v => [(a, v)]
  | (b, w) :: m, a, v =>
    if a < b then (a, v) :: (b, w) :: m
    else if a = b then (a, v) :: m
    else (b, w) :: Memory.insert m a v

/-- The list without an entry for `a`. -/
def Memory.erase : Memory → Nat → Memory
  | [], _ => []
  | (b, w) :: m, a => if b = a then Memory.erase m a else (b, w) :: Memory.erase m a

/-- Writing a cell (R47), the canonical form kept: the unlisted value is not listed. -/
def Memory.put (font : Vector (Vector Byte 5) 16) (m : Memory) (a : Nat) (v : Byte) : Memory :=
  if v = Memory.unlisted font a then Memory.erase m a else Memory.insert m a v

end Sys2Proof.Machine
end

