-- ==== Sys2Proof/Machine/Operands.lean ====
section
/-! DEFINITION. The operand forms (30_encoding.md R73): registers, the flag register, the address register with an ascending
offset, the program counter, the font address, the key latch entry, the tick's inputs; and the writes of registers. -/

namespace Sys2Proof.Machine

/-- `V[x]` (R11). -/
def State.getV (s : State) (x : Nibble) : Byte := s.V[x.toNat]'(x.isLt)

/-- `V[x] <- v` (R11). -/
def State.setV (s : State) (x : Nibble) (v : Byte) : State := { s with V := s.V.set x.toNat v x.isLt }

/-- `V[0xF] <- v`: the flag (R12). -/
def State.setVF (s : State) (v : Byte) : State := s.setV Config.flagReg v

/-- `I <- v`, brought to 16 bits (R13). -/
def State.setI (s : State) (v : Nat) : State := { s with I := BitVec.ofNat 16 v }

/-- The effective address `I + k`, never reduced (R14, 44_index_memory.md). -/
def State.effectiveAddress (s : State) (k : Nat) : Nat := s.I.toNat + k

/-- `pc <- v`: the low 12 bits of `v` (R16). -/
def State.setPc (s : State) (v : Nat) : State := { s with pc := BitVec.ofNat 12 v }

/-- The advance phase: `pc <- pc + delta` (R96, R16). -/
def State.advance (s : State) (delta : Nat) : State := s.setPc (s.pc.toNat + delta)

/-- The address of the glyph of `v`: `FONT_BASE + v * 5`, the whole byte multiplied (R152, D27). -/
def glyphAddress (v : Byte) : Nat := Config.fontBase + v.toNat * Config.glyphBytes

/-- `K[k]` for a key code 0 to 15 (R23). -/
def State.key (s : State) (k : Nibble) : Bool := s.K[k.toNat]'(k.isLt)

/-- `K[k] <- pressed` (R218). -/
def State.setKey (s : State) (k : Nibble) (pressed : Bool) : State :=
  { s with K := s.K.set k.toNat pressed k.isLt }

/-- The inputs of the coming tick: those the host's list gives, or free ones (R91). -/
def State.tickInputs (s : State) : Config.TickInputs :=
  match s.inputs with
  | .tick i :: _ => i
  | _ => Config.freeInputs s.draws

/-- `FB[x][y]`; a place outside the 64 by 32 grid has no pixel and reads 0 (R22). -/
def Framebuffer.pixel (fb : Framebuffer) (x y : Nat) : Bool :=
  if h : x < 64 ∧ y < 32 then (fb[y]'h.2)[x]'h.1 else false

/-- `FB[x][y] <- FB[x][y] xor 1`; outside the grid nothing (R162). -/
def Framebuffer.toggle (fb : Framebuffer) (x y : Nat) : Framebuffer :=
  if h : x < 64 ∧ y < 32 then fb.set y ((fb[y]'h.2).set x (!(fb[y]'h.2)[x]'h.1) h.1) h.2 else fb

/-- The cleared framebuffer (R163, R31). -/
def Framebuffer.cleared : Framebuffer := Vector.replicate 32 (Vector.replicate 64 false)

end Sys2Proof.Machine
end

