-- ==== Sys2Proof/Machine/Flags.lean ====
section
/-! DEFINITION. The results of the arithmetic forms and every value written to VF (43_alu.md, 44_index_memory.md R151,
45_graphics.md R161). The flag is always the byte 0x00 or 0x01 (R12). -/

namespace Sys2Proof.Machine

/-- A condition as the byte VF receives (R12). -/
def flagByte (b : Bool) : Byte := if b then 0x01#8 else 0x00#8

/-- `(a + b) mod 256` (R131, R136, R142). -/
def addBytes (a b : Byte) : Byte := BitVec.ofNat 8 (a.toNat + b.toNat)

/-- `(a - b) mod 256` (R137, R139, R142): the difference of integers, narrowed. -/
def subBytes (a b : Byte) : Byte := BitVec.ofInt 8 ((a.toNat : Int) - (b.toNat : Int))

/-- The carry of `ADD_REG`: 1 if the sum is above 255 (R136). -/
def carryFlag (a b : Byte) : Byte := flagByte (decide (a.toNat + b.toNat > 255))

/-- No borrow of `a - b`: 0 if `a < b`, else 1 (R137, R139). -/
def noBorrowFlag (a b : Byte) : Byte := flagByte (!decide (a.toNat < b.toNat))

/-- `v >> 1` (R138). -/
def shiftRightByte (v : Byte) : Byte := BitVec.ofNat 8 (v.toNat / 2)

/-- `(v << 1) mod 256` (R140). -/
def shiftLeftByte (v : Byte) : Byte := BitVec.ofNat 8 (v.toNat * 2)

/-- The bit `SHR` shifts out, `v[0]` (R138). -/
def shiftedOutRight (v : Byte) : Byte := flagByte (v.getLsbD 0)

/-- The bit `SHL` shifts out, `v[7]` (R140). -/
def shiftedOutLeft (v : Byte) : Byte := flagByte (v.getLsbD 7)

/-- What `ADD_I` subtracts on overflow: 0xFFF, not 0x1000 (R151, D28). -/
def addIWrap : Nat := 0xFFF

/-- The value `ADD_I` stores for the sum `t` (R151). -/
def addIResult (t : Nat) : Nat := if t > 0xFFF then t - addIWrap else t

/-- The overflow flag of `ADD_I` (R151). -/
def addIFlag (t : Nat) : Byte := flagByte (decide (t > 0xFFF))

end Sys2Proof.Machine
end

