-- ==== Sys2Proof/Machine/Ops.lean ====
section
/-! DEFINITION. The shared operations: fault entry, the memory primitives with their address check, the stack, the block
transfers, the key read, the sprite compositor, the timer phase and reset. -/

namespace Sys2Proof.Machine

/-- What an operation that may raise a fault comes to: a value and the state, or the cause, the information and the state
as the operation left it (R100: nothing already written is rolled back). -/
inductive Access (α : Type) where
  | done (a : α) (s : State)
  | raised (cause : Cause) (info : Nat) (s : State)

/-- Fault entry, `raise Fault(cause, info)` (R207): `MODE`, `FCAUSE`, `FINFO` (16 bits) and the `fault` output, nothing
else; `pc` and `SP` keep their values, there is no vector and no handler. -/
def takeFault (cause : Cause) (info : Nat) (s : State) : State :=
  { s with MODE := .faulted, FCAUSE := some cause, FINFO := BitVec.ofNat 16 info,
           out := { s.out with fault := some (cause, BitVec.ofNat 16 info) } }

/-- The end of an instruction: its last effects where the operation completed, fault entry where it raised (R92, R100). -/
def conclude {α : Type} (r : Access α) (last : α → State → State) : Result :=
  match r with
  | .done a s => .next (last a s)
  | .raised cause info s => .next (takeFault cause info s)

/-- The byte at `a`, unchecked: for addresses the check has passed, and for looking at memory from outside. -/
def State.byteAt (s : State) (a : Nat) : Byte := Memory.get s.params.font s.MEM a

/-- `MEM[a] <- v`, unchecked (R47). -/
def State.setByte (s : State) (a : Nat) (v : Byte) : State :=
  { s with MEM := Memory.put s.params.font s.MEM a v }

/-- `MemRead(a, 1)` (R45, R46). -/
def memRead (s : State) (a : Nat) : Access Byte :=
  if a < Config.memSize then .done (s.byteAt a) s else .raised .memBounds a s

/-- `MemWrite(a, 1, v)` (R45, R47). -/
def memWrite (s : State) (a : Nat) (v : Byte) : Access Unit :=
  if a < Config.memSize then .done () (s.setByte a v) else .raised .memBounds a s

/-- `MemRead(a, 2)`: the bytes in the order `a`, `a + 1` (R48). -/
def memReadWord (s : State) (a : Nat) : Access Word :=
  match memRead s a with
  | .raised c i s => .raised c i s
  | .done high s =>
    match memRead s (a + 1) with
    | .raised c i s => .raised c i s
    | .done low s => .done (bigEndian high low) s

/-- The bytes of a list written from `a` on, ascending, up to the first invalid address (R52, R100). -/
def storeBytes : List Byte → Nat → State → Access Unit
  | [], _, s => .done () s
  | v :: vs, a, s =>
    match memWrite s a v with
    | .raised c i s => .raised c i s
    | .done _ s => storeBytes vs (a + 1) s

/-- `MemWrite(a, 2, v)`: the high byte first (R49). -/
def memWriteWord (s : State) (a : Nat) (v : Word) : Access Unit :=
  storeBytes [highByte v, lowByte v] a s

/-- The first address above the stack region (R42, R53). -/
def State.stackCeiling (s : State) : Nat := s.params.stackBase.val + Config.stackBytes

/-- `Push(v)` (R53). -/
def push (v : Word) (s : State) : Access Unit :=
  if s.stackCeiling ≤ s.SP then .raised .stackOverflow v.toNat s
  else
    match memWriteWord s s.SP v with
    | .raised c i s => .raised c i s
    | .done _ s => .done () { s with SP := s.SP + 2 }

/-- `Pop()` (R54). -/
def pop (s : State) : Access Word :=
  if s.SP ≤ s.params.stackBase.val then .raised .stackUnderflow 0 s
  else memReadWord { s with SP := s.SP - 2 } (s.SP - 2)

/-- `V[k], V[k+1], ... <- MemRead(a, 1), MemRead(a+1, 1), ...`, `count` registers, ascending (R155). -/
def loadRegisters : (count : Nat) → (k : Nat) → (a : Nat) → State → Access Unit
  | 0, _, _, s => .done () s
  | count + 1, k, a, s =>
    match memRead s a with
    | .raised c i s => .raised c i s
    | .done v s => loadRegisters count (k + 1) (a + 1) (s.setV (BitVec.ofNat 4 k) v)

/-- `V[0]` to `V[x]`, the bytes `ST_REGS` stores (R154). -/
def State.registersUpTo (s : State) (x : Nibble) : List Byte :=
  (List.range (x.toNat + 1)).map (fun k => s.getV (BitVec.ofNat 4 k))

/-- The decimal digits of a byte, hundreds first (R153). -/
def bcdDigits (v : Byte) : List Byte :=
  [BitVec.ofNat 8 (v.toNat / 100), BitVec.ofNat 8 (v.toNat / 10 % 10), BitVec.ofNat 8 (v.toNat % 10)]

/-- `Key(v)`: the instruction-side read of the latch (R176). -/
def readKey (v : Byte) (s : State) : Access Bool :=
  if v.toNat ≤ 0x0F then .done (s.key (BitVec.ofNat 4 v.toNat)) s else .raised .keyRange v.toNat s

/-- One source pixel of a sprite row: bit `7 - col` of `b` meets the pixel `(x + col, y)` (R162). Gives the framebuffer and
the collision flag so far. -/
def drawPixel (b : Byte) (x y : Nat) (acc : Framebuffer × Bool) (col : Nat) : Framebuffer × Bool :=
  if b.getLsbD (7 - col) then
    (Framebuffer.toggle acc.1 (x + col) y, acc.2 || Framebuffer.pixel acc.1 (x + col) y)
  else acc

/-- One row of a sprite: its 8 bits, the leftmost first (R162). -/
def drawRow (b : Byte) (x y : Nat) (acc : Framebuffer × Bool) : Framebuffer × Bool :=
  [0, 1, 2, 3, 4, 5, 6, 7].foldl (drawPixel b x y) acc

/-- The rows of a sprite: `height` of them from row `y` and address `a` on, each read before it is drawn (R162). -/
def drawRows : (height : Nat) → (x y a : Nat) → (collision : Bool) → State → Access Bool
  | 0, _, _, _, c, s => .done c s
  | height + 1, x, y, a, c, s =>
    match memRead s a with
    | .raised cause i s => .raised cause i s
    | .done b s =>
      let drawn := drawRow b x y (s.FB, c)
      drawRows height x (y + 1) (a + 1) drawn.2 { s with FB := drawn.1 }

/-- `emit refresh` (R29). -/
def emitRefresh (s : State) : State := { s with out := { s.out with refresh := true } }

/-- `emit beep` (R29). -/
def emitBeep (s : State) : State := { s with out := { s.out with beep := true } }

/-- `DrawSprite(x, y, height, addr)` (R162). -/
def drawSprite (x y height addr : Nat) (s : State) : Access Bool :=
  match drawRows height x y addr false s with
  | .raised cause i s => .raised cause i s
  | .done c s => .done c (emitRefresh s)

/-- `ClearDisplay()` (R163). -/
def clearDisplay (s : State) : State := emitRefresh { s with FB := Framebuffer.cleared }

/-- A conditional skip: delta 4 if the condition holds, else 2 (R124). -/
def skipIf (b : Bool) (s : State) : State := s.advance (if b then 4 else 2)

/-- The delay timer's half of the timer phase (R97). -/
def delayTimerPhase (s : State) : State :=
  if s.DT ≠ 0x00#8 ∧ s.tickInputs.dueDt = true then { s with DT := s.DT - 1#8 } else s

/-- The sound timer's half of the timer phase, with its beep (R97, R217). -/
def soundTimerPhase (s : State) : State :=
  if s.ST ≠ 0x00#8 ∧ s.tickInputs.dueSt = true then emitBeep { s with ST := s.ST - 1#8 } else s

/-- The timer phase (R97). -/
def timerPhase (s : State) : State := soundTimerPhase (delayTimerPhase s)

/-- `Reset` (R241): every item of R31; memory and the key latch are not touched (R33). -/
def resetState (s : State) : State :=
  emitRefresh
    { s with V := Vector.replicate 16 0x00#8, I := 0x0000#16, pc := BitVec.ofNat 12 Config.progBase,
             SP := s.params.stackBase.val, DT := 0x00#8, ST := 0x00#8, FB := Framebuffer.cleared,
             MODE := .running, WAITREG := 0x0#4, FCAUSE := none, FINFO := 0x0000#16 }

end Sys2Proof.Machine
end

