-- ==== Sys2Proof/Machine/Alu.lean ====
section
/-! DEFINITION. Register loads, arithmetic, logic, shifts and the random byte (43_alu.md). Operands are latched before any
write (R95); where VF is written too, the order of the two writes is R143's. Every form has delta 2. -/

namespace Sys2Proof.Machine

/-- `LD_IMM Vx, nn` (R130). -/
def execLdImm (x : Nibble) (nn : Byte) (s : State) : Result := .next ((s.setV x nn).advance 2)

/-- `ADD_IMM Vx, nn` (R131): no flag. -/
def execAddImm (x : Nibble) (nn : Byte) (s : State) : Result :=
  .next ((s.setV x (addBytes (s.getV x) nn)).advance 2)

/-- `LD_REG Vx, Vy` (R132). -/
def execLdReg (x y : Nibble) (s : State) : Result := .next ((s.setV x (s.getV y)).advance 2)

/-- `OR Vx, Vy` (R133). -/
def execOr (x y : Nibble) (s : State) : Result := .next ((s.setV x (s.getV x ||| s.getV y)).advance 2)

/-- `AND Vx, Vy` (R134). -/
def execAnd (x y : Nibble) (s : State) : Result := .next ((s.setV x (s.getV x &&& s.getV y)).advance 2)

/-- `XOR Vx, Vy` (R135). -/
def execXor (x y : Nibble) (s : State) : Result := .next ((s.setV x (s.getV x ^^^ s.getV y)).advance 2)

/-- `ADD_REG Vx, Vy` (R136): the sum first, the carry second. -/
def execAddReg (x y : Nibble) (s : State) : Result :=
  .next (((s.setV x (addBytes (s.getV x) (s.getV y))).setVF (carryFlag (s.getV x) (s.getV y))).advance 2)

/-- `SUB Vx, Vy` (R137): the difference first, the no-borrow flag second. -/
def execSub (x y : Nibble) (s : State) : Result :=
  .next (((s.setV x (subBytes (s.getV x) (s.getV y))).setVF (noBorrowFlag (s.getV x) (s.getV y))).advance 2)

/-- `SHR Vx, Vy` (R138): the bit shifted out first, the result second; the source is `Vy`. -/
def execShr (x y : Nibble) (s : State) : Result :=
  .next (((s.setVF (shiftedOutRight (s.getV y))).setV x (shiftRightByte (s.getV y))).advance 2)

/-- `SUBN Vx, Vy` (R139): the no-borrow flag first, the difference second. -/
def execSubn (x y : Nibble) (s : State) : Result :=
  .next (((s.setVF (noBorrowFlag (s.getV y) (s.getV x))).setV x (subBytes (s.getV y) (s.getV x))).advance 2)

/-- `SHL Vx, Vy` (R140): the bit shifted out first, the result second; the source is `Vy`. -/
def execShl (x y : Nibble) (s : State) : Result :=
  .next (((s.setVF (shiftedOutLeft (s.getV y))).setV x (shiftLeftByte (s.getV y))).advance 2)

/-- `RND Vx, nn` (R141): the tick's random input under the mask. -/
def execRnd (x : Nibble) (nn : Byte) (s : State) : Result :=
  .next ((s.setV x (s.tickInputs.rnd &&& nn)).advance 2)

end Sys2Proof.Machine
end

