-- ==== Sys2Proof/Machine/Flow.lean ====
section
/-! DEFINITION. Control transfer: SYS, RET, JP, CALL, JP_V0 (41_flow.md). Each writes `pc` itself (delta 0) or faults. -/

namespace Sys2Proof.Machine

/-- `SYS nnn` (R110): always `Fault(MACHINE_CALL, w)`, `w = 0NNN`. -/
def execSys (nnn : Addr) (s : State) : Result :=
  .next (takeFault .machineCall (encode (.sys nnn)).toNat s)

/-- `RET` (R111): `pc <- Pop()`. -/
def execRet (s : State) : Result := conclude (pop s) (fun t s => s.setPc t.toNat)

/-- `JP nnn` (R112). -/
def execJp (nnn : Addr) (s : State) : Result := .next (s.setPc nnn.toNat)

/-- `CALL nnn` (R113): the 16-bit value `pc + 2` is pushed unmasked (D25). -/
def execCall (nnn : Addr) (s : State) : Result :=
  conclude (push (BitVec.ofNat 16 (s.pc.toNat + 2)) s) (fun _ s => s.setPc nnn.toNat)

/-- `JP_V0 nnn` (R114): `(NNN + V[0]) mod 4096`. -/
def execJpV0 (nnn : Addr) (s : State) : Result := .next (s.setPc (nnn.toNat + (s.getV 0x0#4).toNat))

end Sys2Proof.Machine
end

