-- ==== Sys2Proof/Machine/Graphics.lean ====
section
/-! DEFINITION. The framebuffer instructions CLS and DRW (45_graphics.md). Delta 2. -/

namespace Sys2Proof.Machine

/-- `CLS` (R160). -/
def execCls (s : State) : Result := .next ((clearDisplay s).advance 2)

/-- `DRW Vx, Vy, n` (R161): VF is the collision flag, written after the whole sprite. -/
def execDrw (x y n : Nibble) (s : State) : Result :=
  conclude (drawSprite (s.getV x).toNat (s.getV y).toNat n.toNat (s.effectiveAddress 0) s)
    (fun c s => (s.setVF (flagByte c)).advance 2)

end Sys2Proof.Machine
end

