-- ==== Sys2Proof/Machine/IndexMemory.lean ====
section
/-! DEFINITION. The address register and the block transfers: LD_I, ADD_I, LD_F, LD_B, ST_REGS, LD_REGS
(44_index_memory.md). Delta 2; no transfer changes `I`; a transfer that leaves the address space faults where it stands. -/

namespace Sys2Proof.Machine

/-- `LD_I nnn` (R150). -/
def execLdI (nnn : Addr) (s : State) : Result := .next ((s.setI nnn.toNat).advance 2)

/-- `ADD_I Vx` (R151). -/
def execAddI (x : Nibble) (s : State) : Result :=
  let t := s.effectiveAddress (s.getV x).toNat
  .next (((s.setI (addIResult t)).setVF (addIFlag t)).advance 2)

/-- `LD_F Vx` (R152). -/
def execLdF (x : Nibble) (s : State) : Result := .next ((s.setI (glyphAddress (s.getV x))).advance 2)

/-- `LD_B Vx` (R153). -/
def execLdB (x : Nibble) (s : State) : Result :=
  conclude (storeBytes (bcdDigits (s.getV x)) (s.effectiveAddress 0) s) (fun _ s => s.advance 2)

/-- `ST_REGS Vx` (R154). -/
def execStRegs (x : Nibble) (s : State) : Result :=
  conclude (storeBytes (s.registersUpTo x) (s.effectiveAddress 0) s) (fun _ s => s.advance 2)

/-- `LD_REGS Vx` (R155). -/
def execLdRegs (x : Nibble) (s : State) : Result :=
  conclude (loadRegisters (x.toNat + 1) 0 (s.effectiveAddress 0) s) (fun _ s => s.advance 2)

end Sys2Proof.Machine
end

