-- ==== Sys2Proof/Machine/InputTimers.lean ====
section
/-! DEFINITION. The key-latch and timer instructions: SKP, SKNP, LD_VX_K, LD_VX_DT, LD_DT_VX, LD_ST_VX
(46_input_timers.md). -/

namespace Sys2Proof.Machine

/-- `SKP Vx` (R170). -/
def execSkp (x : Nibble) (s : State) : Result := conclude (readKey (s.getV x) s) (fun p s => skipIf p s)

/-- `SKNP Vx` (R171). -/
def execSknp (x : Nibble) (s : State) : Result := conclude (readKey (s.getV x) s) (fun p s => skipIf (!p) s)

/-- `LD_VX_K Vx`, the half the tick does (R172): delta 0, `pc` keeps addressing this instruction. The other half is the
host event `SetKeyState` (R218, Machine/Ports.lean). -/
def execLdVxK (x : Nibble) (s : State) : Result := .next { s with WAITREG := x, MODE := .awaitingKey }

/-- `LD_VX_DT Vx` (R173). -/
def execLdVxDt (x : Nibble) (s : State) : Result := .next ((s.setV x s.DT).advance 2)

/-- `LD_DT_VX Vx` (R174). -/
def execLdDtVx (x : Nibble) (s : State) : Result := .next (({ s with DT := s.getV x } : State).advance 2)

/-- `LD_ST_VX Vx` (R175). -/
def execLdStVx (x : Nibble) (s : State) : Result := .next (({ s with ST := s.getV x } : State).advance 2)

end Sys2Proof.Machine
end

