-- ==== Sys2Proof/Machine/Skip.lean ====
section
/-! DEFINITION. The conditional skips on registers: SE_IMM, SNE_IMM, SE_REG, SNE_REG (42_skip.md). Their only effect is the
delta (R124). -/

namespace Sys2Proof.Machine

/-- `SE_IMM Vx, nn` (R120). -/
def execSeImm (x : Nibble) (nn : Byte) (s : State) : Result := .next (skipIf (s.getV x == nn) s)

/-- `SNE_IMM Vx, nn` (R121). -/
def execSneImm (x : Nibble) (nn : Byte) (s : State) : Result := .next (skipIf (s.getV x != nn) s)

/-- `SE_REG Vx, Vy` (R122). -/
def execSeReg (x y : Nibble) (s : State) : Result := .next (skipIf (s.getV x == s.getV y) s)

/-- `SNE_REG Vx, Vy` (R123). -/
def execSneReg (x y : Nibble) (s : State) : Result := .next (skipIf (s.getV x != s.getV y) s)

end Sys2Proof.Machine
end

