-- ==== Sys2Proof/Machine/Ports.lean ====
section
/-! DEFINITION. The host's ports, applied between ticks (60_exceptions.md R218 to R226, 70_reset_and_hazards.md R241, R242). -/

namespace Sys2Proof.Machine

/-- `SetKeyState(code, pressed)` (R218): ignored above 0x0F; a press ends a wait, which is the deferred half of `LD_VX_K`
(R172). -/
def setKeyState (code : Byte) (pressed : Bool) (s : State) : State :=
  if code.toNat > 0x0F then s
  else
    let s := s.setKey (BitVec.ofNat 4 code.toNat) pressed
    if pressed = true ∧ s.MODE = .awaitingKey then
      { (s.setV s.WAITREG code).advance 2 with MODE := .running }
    else s

/-- `LoadROM(bytes)` (R242): Reset, then the bytes from 0x200 on; an image above 3584 bytes faults at 0x1000. -/
def loadROM (bytes : List Byte) (s : State) : State :=
  match storeBytes bytes Config.progBase (resetState s) with
  | .done _ s => s
  | .raised cause info s => takeFault cause info s

/-- `WriteByte(a, v)` (R226). -/
def hostWriteByte (a : Addr) (v : Byte) (s : State) : State := s.setByte a.toNat v

/-- A rejected debug write: no state changes, an error reply (R212). -/
def rejectWrite (s : State) : State := { s with out := { s.out with errorReply := true } }

/-- `DebugSetPC(v)` (R222). -/
def debugSetPC (v : Word) (s : State) : State := if v.toNat > 0xFFF then rejectWrite s else s.setPc v.toNat

/-- `DebugSetReg(i, v)` (R223). -/
def debugSetReg (i : Nat) (v : Byte) (s : State) : State :=
  if i > 15 then rejectWrite s else s.setV (BitVec.ofNat 4 i) v

/-- `DebugSetI(v)` (R224). -/
def debugSetI (v : Word) (s : State) : State := if v.toNat > 0xFFF then rejectWrite s else s.setI v.toNat

/-- A host event (R90, R57: only between ticks). -/
def hostEvent (e : HostEvent) (s : State) : State :=
  match e with
  | .setKeyState code pressed => setKeyState code pressed s
  | .reset => resetState s
  | .loadROM bytes => loadROM bytes s
  | .writeByte a v => hostWriteByte a v s
  | .debugSetPC v => debugSetPC v s
  | .debugSetReg i v => debugSetReg i v s
  | .debugSetI v => debugSetI v s

/-- `GetKeyState(code)` (R219): none is the error reply for a code above 0x0F (D30). R219 gives no width for `code`; 8 bits
is the model's DESIGN CHOICE (log 14). -/
def getKeyState (s : State) (code : Byte) : Option Bool :=
  if code.toNat > 0x0F then none else some (s.key (BitVec.ofNat 4 code.toNat))

/-- Debug read of `pc` (R221). -/
def debugGetPC (s : State) : Addr := s.pc

/-- Debug read of `V[i]` (R221): none for an index above 15 (log 14). -/
def debugGetReg (s : State) (i : Nat) : Option Byte :=
  if i > 15 then none else some (s.getV (BitVec.ofNat 4 i))

/-- Debug read of `I` (R221). -/
def debugGetI (s : State) : Word := s.I

/-- The read-only view of memory (R226). -/
def hostReadByte (s : State) (a : Addr) : Byte := s.byteAt a.toNat

/-- The framebuffer read port (R220). -/
def hostReadPixel (s : State) (x : Fin 64) (y : Fin 32) : Bool := Framebuffer.pixel s.FB x.val y.val

end Sys2Proof.Machine
end

