-- ==== Sys2Proof/Machine/Cycle.lean ====
section
/-! DEFINITION. The execution cycle (40_execution_cycle.md): fetch, the tick in each macro-state, the consumption of the
tick's inputs, and the host's next step. -/

namespace Sys2Proof.Machine

/-- Fetch: the big-endian word at `pc` (R93). -/
def fetch (s : State) : Access Word := memReadWord s s.pc.toNat

/-- A function of the next state, where there is one. -/
def onNext (f : State → State) : Result → Result
  | .next s => .next (f s)
  | .fault r => .fault r
  | .refused r => .refused r

/-- The last phase of a tick: the timer phase, skipped where the tick raised a fault (R92, R97, R100). -/
def endOfTick (s : State) : State := if s.MODE = .faulted then s else timerPhase s

/-- The tick in Running (R92): fetch, decode, execute with the PC advance, timer phase; the first fault ends it (R210). -/
def tickRunning (s : State) : Result :=
  match fetch s with
  | .raised cause info s => .next (takeFault cause info s)
  | .done w s =>
    match decode w with
    | .error _ => .next (takeFault .illegalOpcode w.toNat s)
    | .ok i => onNext endOfTick (exec i s)

/-- The tick by macro-state (R92, R98, R99). -/
def tick (s : State) : Result :=
  match s.MODE with
  | .running => tickRunning s
  | .awaitingKey => .next (timerPhase s)
  | .faulted => .next s

/-- A step begins with no output raised: an output lasts for one step only (R29; log 2). -/
def clearOutputs (s : State) : State := { s with out := {} }

/-- After a tick its inputs are spent: the list's entry, or one draw of the free values (R91; the list and
the draws are log 1). -/
def spendInputs (s : State) : State :=
  match s.inputs with
  | .tick _ :: rest => { s with inputs := rest }
  | _ => { s with draws := s.draws + 1 }

/-- Is this step of the host's list a host event? -/
def Input.isEvent : Input → Bool
  | .tick _ => false
  | .event _ => true

/-- One step of a run (R90): the host event that comes next in the list, or a tick (the list, and a tick where it is empty,
are log 1). -/
def nextStep (s : State) : Result :=
  match s.inputs with
  | .event e :: rest => .next (hostEvent e { clearOutputs s with inputs := rest })
  | _ => onNext spendInputs (tick (clearOutputs s))

/-- Where an instruction is placed to be fetched next: at `pc`, or at 0x200 where `pc = 0xFFF` cannot be fetched (R93). -/
def fetchPlace (s : State) : Addr := if s.pc = 0xFFF#12 then BitVec.ofNat 12 Config.progBase else s.pc

/-- A state whose next step is a tick in Running that fetches at `fetchPlace`, with the word's bytes there (R70). -/
def placeWord (w : Word) (s : State) : State :=
  let a := fetchPlace s
  let s := { s with MODE := .running, pc := a, inputs := s.inputs.dropWhile Input.isEvent }
  (s.setByte a.toNat (highByte w)).setByte (a.toNat + 1) (lowByte w)

end Sys2Proof.Machine
end

