-- ==== Sys2Proof/Machine/Step.lean ====
section
/-! DEFINITION. The step of the machine, and the placing of one instruction where the step fetches. -/

namespace Sys2Proof.Machine

/-- One step: a tick or a host event (R90). Its three outcomes are Host.Outcome's; this machine always answers a next
state. -/
def step (s : State) : Host.Outcome State Fault Refusal := nextStep s

/-- `s` with the instruction of `nbits` bits `w` stored where the next step fetches, so that it runs that instruction:
`pc` kept (moved to 0x200 from 0xFFF only), `MODE` Running, host events before the next tick dropped (log 7). -/
def State.withFetchWord (s : State) (nbits w : Nat) : State := placeWord (BitVec.ofNat 16 (w % 2 ^ nbits)) s

end Sys2Proof.Machine
end

