-- ==== Sys2Proof/Safety.lean ====
section
/-! DEFINITION. What claims are stated in: the invariants of the machine, what a fault record may hold, the frames (what an
instruction leaves unchanged, field by field, memory through the read of one byte), safe runs, and the spec's example of an
end of a run. -/

namespace Sys2Proof.Machine

/-- The stack pointer is a slot boundary of the stack region: `STACK_BASE + 2*k`, `k` = 0 to 24 (R17). -/
def State.stackLegal (s : State) : Prop := ∃ k : Nat, k ≤ 24 ∧ s.SP = s.params.stackBase.val + 2 * k

/-- What holds in every state of a run: the memory list is canonical and inside the address space (the model's own form,
log 5), `I` has its 12-bit meaning (R14), `SP` is legal (R17), the fault record is filled exactly in Faulted and empty
otherwise (R26, R31; log 9). -/
structure State.Inv (s : State) : Prop where
  memory  : Memory.wf s.params.font s.MEM = true
  address : s.I.toNat ≤ 0x0FFF
  stack   : s.stackLegal
  record  : s.MODE = .faulted ↔ s.FCAUSE ≠ none
  info    : s.FCAUSE = none → s.FINFO = 0x0000#16

/-- What `FINFO` can be for each cause (R200), in states of a run: the lowest offending address is always 0x1000, since the
base addresses are valid (R45, R210). -/
def causeInfoLegal : Cause → Word → Prop
  | .illegalOpcode, w => ∃ e, decode w = .error e
  | .machineCall, w => ∃ nnn, decode w = .ok (.sys nnn)
  | .stackOverflow, w => 0x0002 ≤ w.toNat ∧ w.toNat ≤ 0x1001
  | .stackUnderflow, w => w = 0x0000#16
  | .memBounds, w => w = 0x1000#16
  | .keyRange, w => 0x10 ≤ w.toNat ∧ w.toNat ≤ 0xFF

/-- The fault record, where there is one, is legal. -/
def State.recordLegal (s : State) : Prop := ∀ c, s.FCAUSE = some c → causeInfoLegal c s.FINFO

/-- A state is safe if no fatal condition has stopped the engine. -/
def State.safe (s : State) : Prop := s.MODE ≠ .faulted

/-- The spec's example of an end of a run (R103): `pc = a` and the cells at `a` encode `JP a`. -/
def SpinsAt (a : Addr) (s : State) : Prop :=
  s.MODE = .running ∧ s.pc = a ∧ decode (bigEndian (s.byteAt a.toNat) (s.byteAt (a.toNat + 1))) = .ok (.jp a)

/-- The code number of a cause (R200). -/
def Cause.code : Cause → Nat
  | .illegalOpcode => 1
  | .machineCall => 2
  | .stackOverflow => 3
  | .stackUnderflow => 4
  | .memBounds => 5
  | .keyRange => 6

/-- The word whose first byte stands at `a` (R48, R70). -/
def State.wordAt (s : State) (a : Nat) : Word := bigEndian (s.byteAt a) (s.byteAt (a + 1))

/-- A tick of this state fetches the word `w`: Running, and both its bytes are inside the address space (R93). -/
structure Fetches (s : State) (w : Word) : Prop where
  mode : s.MODE = .running
  pc   : s.pc.toNat < 0xFFF
  word : s.wordAt s.pc.toNat = w

/-- The next step of the run is a tick: the host's list does not begin with an event (R90; the list is
log 1's). -/
def TickIsNext (s : State) : Prop := ∀ e rest, s.inputs ≠ .event e :: rest

/-- Does a sprite of `rows` rows, read from address `a` on and drawn at column `x`, row `y`, have a 1 at the pixel
`(px, py)`? Bit 7 of a row's byte is its leftmost column; nothing wraps (R162). -/
def spriteBit (s : State) (x y rows a px py : Nat) : Bool :=
  decide (x ≤ px ∧ px < x + 8 ∧ y ≤ py ∧ py < y + rows) && (s.byteAt (a + (py - y))).getLsbD (7 - (px - x))

/-! ## Frames: what stays as it was -/

/-- Every register but those in the list reads as before. -/
def RegsKept (s t : State) (but : List Nibble) : Prop := ∀ r : Nibble, r ∉ but → t.getV r = s.getV r

/-- Every byte of memory outside `[lo, lo + n)` reads as before. -/
def MemoryKept (s t : State) (lo n : Nat) : Prop := ∀ a : Nat, (a < lo ∨ lo + n ≤ a) → t.byteAt a = s.byteAt a

/-- Every byte of memory reads as before. -/
def AllMemoryKept (s t : State) : Prop := ∀ a : Nat, t.byteAt a = s.byteAt a

/-- The frame of an instruction that writes at most the registers in the list and `pc`: every other field is as it was. -/
structure OnlyRegs (s t : State) (but : List Nibble) : Prop where
  regs   : RegsKept s t but
  memory : AllMemoryKept s t
  rest   : t = { s with V := t.V, pc := t.pc }

/-- The frame of an instruction that stores at most the `n` bytes at `lo` and moves `pc`: every other field is as it was. -/
structure OnlyStores (s t : State) (lo n : Nat) : Prop where
  memory : MemoryKept s t lo n
  rest   : t = { s with MEM := t.MEM, pc := t.pc }

/-- `t` is `s` after fault entry (R207): mode, record and the `fault` output; every other field is as it was. -/
def FaultedFrom (s t : State) (cause : Cause) (info : Word) : Prop :=
  t = { s with MODE := .faulted, FCAUSE := some cause, FINFO := info,
               out := { s.out with fault := some (cause, info) } }

end Sys2Proof.Machine
end

