-- ==== Sys2Proof/Certificates/Slice0/Obligations.lean ====
section
/-! DEFINITION. The statements for the provers, from the numbered rules of spec/. Every statement about an instruction says
its encoding, that it completes (its conclusion is the next state), what it computes (in Nat arithmetic, not in the model's
own functions) and its frame. Wherever a statement speaks of the host's list (`inputs`, `draws`, `TickIsNext`,
`spendInputs`) or of the field `out`, that form of the run's steps, inputs and outputs is the model's own: log 1 and log 2,
both DESIGN CHOICE. -/

open Sys2Proof Sys2Proof.Machine

/-! ## Encoding -/

/-- R70, R74, R83: decoding an encoded well-formed instruction gives it back, with every operand at every value, from a
word and from the front of a byte sequence. -/
def Obligations.DecodeInvertsEncode : Prop :=
  ∀ i : Instr, i.wf = true →
    decode (encode i) = .ok i ∧ ∀ rest : List Byte, decodeBytes (encodeBytes i ++ rest) = .ok (i, rest)

/-- Every word has at most one meaning, and it is that meaning's encoding (R74, R80). -/
def Obligations.EncodeInvertsDecode : Prop :=
  ∀ (w : Word) (i : Instr), decode w = .ok i → i.wf = true ∧ encode i = w

/-- R75 to R78: families 0, 8, E and F, every word of each; an unrecognized word is rejected, and a tick that fetches it
raises ILLEGAL_OPCODE with the word and changes nothing else. -/
def Obligations.SecondDispatchFamilies : Prop :=
  let rejected : Word → Prop := fun w =>
    (∃ e, decode w = .error e) ∧
      ∀ s : State, Fetches s w → ∃ t, tick s = .next t ∧ FaultedFrom s t .illegalOpcode w
  decode 0x00E0#16 = .ok .cls ∧ decode 0x00EE#16 = .ok .ret ∧
  (∀ nnn : Addr, nnn ≠ 0x0E0#12 → nnn ≠ 0x0EE#12 → decode (0x0#4 ++ nnn) = .ok (.sys nnn)) ∧
  (∀ x y n : Nibble,
    (n = 0x0#4 → decode (0x8#4 ++ x ++ y ++ n) = .ok (.ldReg x y)) ∧
    (n = 0x1#4 → decode (0x8#4 ++ x ++ y ++ n) = .ok (.orReg x y)) ∧
    (n = 0x2#4 → decode (0x8#4 ++ x ++ y ++ n) = .ok (.andReg x y)) ∧
    (n = 0x3#4 → decode (0x8#4 ++ x ++ y ++ n) = .ok (.xorReg x y)) ∧
    (n = 0x4#4 → decode (0x8#4 ++ x ++ y ++ n) = .ok (.addReg x y)) ∧
    (n = 0x5#4 → decode (0x8#4 ++ x ++ y ++ n) = .ok (.sub x y)) ∧
    (n = 0x6#4 → decode (0x8#4 ++ x ++ y ++ n) = .ok (.shr x y)) ∧
    (n = 0x7#4 → decode (0x8#4 ++ x ++ y ++ n) = .ok (.subn x y)) ∧
    (n = 0xE#4 → decode (0x8#4 ++ x ++ y ++ n) = .ok (.shl x y)) ∧
    (n.toNat ∈ [8, 9, 0xA, 0xB, 0xC, 0xD, 0xF] → rejected (0x8#4 ++ x ++ y ++ n))) ∧
  (∀ (x : Nibble) (nn : Byte),
    (nn = 0x9E#8 → decode (0xE#4 ++ x ++ nn) = .ok (.skp x)) ∧
    (nn = 0xA1#8 → decode (0xE#4 ++ x ++ nn) = .ok (.sknp x)) ∧
    (nn.toNat ∉ [0x9E, 0xA1] → rejected (0xE#4 ++ x ++ nn)) ∧
    (nn = 0x07#8 → decode (0xF#4 ++ x ++ nn) = .ok (.ldVxDt x)) ∧
    (nn = 0x0A#8 → decode (0xF#4 ++ x ++ nn) = .ok (.ldVxK x)) ∧
    (nn = 0x15#8 → decode (0xF#4 ++ x ++ nn) = .ok (.ldDtVx x)) ∧
    (nn = 0x18#8 → decode (0xF#4 ++ x ++ nn) = .ok (.ldStVx x)) ∧
    (nn = 0x1E#8 → decode (0xF#4 ++ x ++ nn) = .ok (.addI x)) ∧
    (nn = 0x29#8 → decode (0xF#4 ++ x ++ nn) = .ok (.ldF x)) ∧
    (nn = 0x33#8 → decode (0xF#4 ++ x ++ nn) = .ok (.ldB x)) ∧
    (nn = 0x55#8 → decode (0xF#4 ++ x ++ nn) = .ok (.stRegs x)) ∧
    (nn = 0x65#8 → decode (0xF#4 ++ x ++ nn) = .ok (.ldRegs x)) ∧
    (nn.toNat ∉ [0x07, 0x0A, 0x15, 0x18, 0x1E, 0x29, 0x33, 0x55, 0x65] → rejected (0xF#4 ++ x ++ nn)))

/-- R79 (the spec's own decision D16): families 5 and 9 decode with a low nibble 0 only; with another one the word is
rejected, and a tick that fetches it raises ILLEGAL_OPCODE with the word and changes nothing else. -/
def Obligations.ReservedWordsOfFamilies5And9 : Prop :=
  ∀ x y n : Nibble,
    (n = 0x0#4 → decode (0x5#4 ++ x ++ y ++ n) = .ok (.seReg x y) ∧ decode (0x9#4 ++ x ++ y ++ n) = .ok (.sneReg x y)) ∧
    (n ≠ 0x0#4 → ∀ w : Word, (w = 0x5#4 ++ x ++ y ++ n ∨ w = 0x9#4 ++ x ++ y ++ n) →
      (∃ e, decode w = .error e) ∧
      ∀ s : State, Fetches s w → ∃ t, tick s = .next t ∧ FaultedFrom s t .illegalOpcode w)

/-- Words written out by hand from the patterns of R74 decode to the instructions they stand for (a sanity statement). -/
def Obligations.SampleWordsDecode : Prop :=
  decode 0x0123#16 = .ok (.sys 0x123#12) ∧
  decode 0x2300#16 = .ok (.call 0x300#12) ∧
  decode 0x332A#16 = .ok (.seImm 0x3#4 0x2A#8) ∧
  decode 0x8124#16 = .ok (.addReg 0x1#4 0x2#4) ∧
  decode 0xA2F0#16 = .ok (.ldI 0x2F0#12) ∧
  decode 0xD345#16 = .ok (.drw 0x3#4 0x4#4 0x5#4) ∧
  decode 0xE5A1#16 = .ok (.sknp 0x5#4) ∧
  decode 0xF365#16 = .ok (.ldRegs 0x3#4)

/-! ## The step -/

/-- R90: a step is one host event or one tick. R92, R97, R100: when the word at `pc` decodes to an instruction, a tick in
Running is `exec` of it, followed by the timer phase unless `exec` entered Faulted. The model's own (DESIGN CHOICE): that
the next step is what the list `inputs` begins with, that an event leaves the list, that the tick's inputs are spent, and
that on an empty list the step is a tick (`TickIsNext`, `spendInputs`) are log 1; that a step clears `out` first is log 2.
-/
def Obligations.StepRunsDecodedInstruction : Prop :=
  ∀ s : State,
    (∀ e rest, s.inputs = .event e :: rest →
      step s = .next (hostEvent e { s with out := {}, inputs := rest })) ∧
    (∀ (w : Word) (i : Instr) (t : State), TickIsNext s → Fetches s w → decode w = .ok i →
      exec i { s with out := {} } = .next t →
      (t.MODE = .faulted → step s = .next (spendInputs t)) ∧
      (t.MODE ≠ .faulted → step s = .next (spendInputs (timerPhase t))))

/-- R97 (the spec's own decisions D11, D12, D33): the timer phase. Each timer falls by one exactly when its strobe is
true and it is not 0; `beep` is raised exactly when the sound timer falls (R217); nothing else changes. -/
def Obligations.TimerPhaseLaw : Prop :=
  ∀ s : State,
    (timerPhase s).DT.toNat = (if s.tickInputs.dueDt = true ∧ s.DT.toNat > 0 then s.DT.toNat - 1 else s.DT.toNat) ∧
    (timerPhase s).ST.toNat = (if s.tickInputs.dueSt = true ∧ s.ST.toNat > 0 then s.ST.toNat - 1 else s.ST.toNat) ∧
    (timerPhase s).out = { s.out with beep := s.out.beep || (s.tickInputs.dueSt && decide (s.ST.toNat > 0)) } ∧
    timerPhase s = { s with DT := (timerPhase s).DT, ST := (timerPhase s).ST, out := (timerPhase s).out }

/-- R98: in AwaitingKey a tick performs the timer phase and nothing else: each timer falls by one exactly when its
strobe is true and it is not 0, with `beep` for the sound timer; no other field changes and the random byte plays no
part. -/
def Obligations.AwaitingTickRunsTimersOnly : Prop :=
  ∀ s : State, s.MODE = .awaitingKey → ∃ t, tick s = .next t ∧
    t.DT.toNat = (if s.tickInputs.dueDt = true then s.DT.toNat - 1 else s.DT.toNat) ∧
    t.ST.toNat = (if s.tickInputs.dueSt = true then s.ST.toNat - 1 else s.ST.toNat) ∧
    t.out = { s.out with beep := s.out.beep || (s.tickInputs.dueSt && decide (s.ST.toNat > 0)) } ∧
    t = { s with DT := t.DT, ST := t.ST, out := t.out }

/-- R99 (the spec's own decision D14): a tick in Faulted does nothing and raises no output. The model's own: the
step spends the tick's inputs (log 1) and clears `out` (log 2). -/
def Obligations.FaultedTickDoesNothing : Prop :=
  ∀ s : State, s.MODE = .faulted → TickIsNext s →
    tick s = .next s ∧
    ∃ inputs draws, step s = .next { s with out := {}, inputs := inputs, draws := draws }

/-- R93: at `pc = 0xFFF` the fetch raises MEM_BOUNDS with 0x1000 and the second byte does not wrap; for every other `pc`
the fetch is the big-endian word and has no side effect. -/
def Obligations.FetchIsBigEndianAndBounded : Prop :=
  ∀ s : State,
    (s.MODE = .running → s.pc = 0xFFF#12 → ∃ t, tick s = .next t ∧ FaultedFrom s t .memBounds 0x1000#16) ∧
    (s.pc ≠ 0xFFF#12 → ∃ w : Word, fetch s = .done w s ∧
      w.toNat = 256 * (s.byteAt s.pc.toNat).toNat + (s.byteAt (s.pc.toNat + 1)).toNat)

/-- R100, R207 (the spec's own decision D14): a tick that enters Faulted writes the fault record, raises the `fault`
output, leaves `pc` at the faulting instruction and `SP` as it was, and skips the timer phase; the address register, the
keys and the wait register are not touched either. -/
def Obligations.FaultEntryKeepsPcAndTimers : Prop :=
  ∀ s t : State, s.MODE = .running → s.stackLegal → tick s = .next t → t.MODE = .faulted →
    (∃ c, t.FCAUSE = some c ∧ t.out.fault = some (c, t.FINFO)) ∧
    t.pc = s.pc ∧ t.SP = s.SP ∧ t.DT = s.DT ∧ t.ST = s.ST ∧ t.out.beep = s.out.beep ∧
    t.I = s.I ∧ t.K = s.K ∧ t.WAITREG = s.WAITREG

/-! ## Control transfer -/

/-- R110: `SYS` always faults with its word and changes nothing else. -/
def Obligations.SysAlwaysFaults : Prop :=
  ∀ (s : State) (nnn : Addr), nnn ≠ 0x0E0#12 → nnn ≠ 0x0EE#12 →
    decode (0x0#4 ++ nnn) = .ok (.sys nnn) ∧
    ∃ t, exec (.sys nnn) s = .next t ∧ FaultedFrom s t .machineCall (0x0#4 ++ nnn)

/-- R111: `RET` continues at the popped word's low 12 bits, `SP` falls by 2 and memory stays; on the empty stack it raises
STACK_UNDERFLOW and nothing else changes. -/
def Obligations.ReturnPopsTheStack : Prop :=
  decode 0x00EE#16 = .ok .ret ∧
  ∀ s : State, s.stackLegal →
    (s.SP > s.params.stackBase.val → ∃ t, exec .ret s = .next t ∧
      t.pc.toNat = (256 * (s.byteAt (s.SP - 2)).toNat + (s.byteAt (s.SP - 1)).toNat) % 4096 ∧
      t.SP = s.SP - 2 ∧ AllMemoryKept s t ∧ t = { s with pc := t.pc, SP := t.SP }) ∧
    (s.SP = s.params.stackBase.val → ∃ t, exec .ret s = .next t ∧ FaultedFrom s t .stackUnderflow 0x0000#16)

/-- R112, R114: `JP` goes to `NNN`, `JP_V0` to `(NNN + V0) mod 4096` (the modulo is the spec's own decision D3); nothing
else changes. -/
def Obligations.JumpsSetPcOnly : Prop :=
  ∀ (s : State) (nnn : Addr),
    decode (0x1#4 ++ nnn) = .ok (.jp nnn) ∧ decode (0xB#4 ++ nnn) = .ok (.jpV0 nnn) ∧
    (∃ t, exec (.jp nnn) s = .next t ∧ t.pc = nnn ∧ OnlyRegs s t []) ∧
    (∃ t, exec (.jpV0 nnn) s = .next t ∧ t.pc.toNat = (nnn.toNat + (s.getV 0x0#4).toNat) % 4096 ∧ OnlyRegs s t [])

/-- R113: `CALL` stores the unmasked `pc + 2` (the spec's own decision D25) big-endian at the old `SP`, `SP` rises by 2,
`pc` is `NNN`; with 24 entries stacked it raises STACK_OVERFLOW with that value and nothing else changes. -/
def Obligations.CallPushesReturnAddress : Prop :=
  ∀ (s : State) (nnn : Addr), s.stackLegal →
    decode (0x2#4 ++ nnn) = .ok (.call nnn) ∧
    (s.SP < s.params.stackBase.val + 48 → ∃ t, exec (.call nnn) s = .next t ∧
      t.pc = nnn ∧ t.SP = s.SP + 2 ∧
      (t.byteAt s.SP).toNat = (s.pc.toNat + 2) / 256 ∧ (t.byteAt (s.SP + 1)).toNat = (s.pc.toNat + 2) % 256 ∧
      MemoryKept s t s.SP 2 ∧ t = { s with pc := t.pc, SP := t.SP, MEM := t.MEM }) ∧
    (s.SP = s.params.stackBase.val + 48 → ∃ t, exec (.call nnn) s = .next t ∧
      FaultedFrom s t .stackOverflow (BitVec.ofNat 16 (s.pc.toNat + 2)))

/-- R55: 24 pushes succeed from the empty stack and the 25th raises STACK_OVERFLOW, and a pop after a push returns the
value pushed, with `SP` back where it was. -/
def Obligations.StackRoundTrip : Prop :=
  ∀ (s : State) (v : Word) (k : Nat), s.SP = s.params.stackBase.val + 2 * k →
    (k < 24 → ∃ t, push v s = .done () t ∧ t.SP = s.params.stackBase.val + 2 * (k + 1) ∧
      pop t = .done v { t with SP := s.SP }) ∧
    (k = 24 → push v s = .raised .stackOverflow v.toNat s)

/-- R113 with R111: a call and the return from it continue after the `CALL`, modulo 4096, with the stack as it was. -/
def Obligations.CallThenReturnContinues : Prop :=
  ∀ (s : State) (nnn : Addr), s.stackLegal → s.SP < s.params.stackBase.val + 48 →
    ∃ t u, exec (.call nnn) s = .next t ∧ exec .ret t = .next u ∧ u.pc = s.pc + 2#12 ∧ u.SP = s.SP

/-- R112, R103 (an end of run is the spec's OPEN decision D23): where the cells at `pc` encode a jump to `pc` itself,
each tick changes at most the timers, the outputs (log 2) and the host's list with its counter (log 1, the model's own), and
the next tick finds the same. -/
def Obligations.JumpToSelfSpins : Prop :=
  ∀ (a : Addr) (s : State), a ≠ 0xFFF#12 → SpinsAt a s → TickIsNext s →
    ∃ t, step s = .next t ∧ SpinsAt a t ∧
      t = { s with DT := t.DT, ST := t.ST, out := t.out, inputs := t.inputs, draws := t.draws }

/-! ## Skips -/

/-- R120 to R123: the four skips on registers, both outcomes, modulo 4096; nothing but `pc` changes. -/
def Obligations.RegisterSkips : Prop :=
  ∀ (s : State) (x y : Nibble) (nn : Byte),
    decode (0x3#4 ++ x ++ nn) = .ok (.seImm x nn) ∧ decode (0x4#4 ++ x ++ nn) = .ok (.sneImm x nn) ∧
    decode (0x5#4 ++ x ++ y ++ 0x0#4) = .ok (.seReg x y) ∧ decode (0x9#4 ++ x ++ y ++ 0x0#4) = .ok (.sneReg x y) ∧
    (∃ t, exec (.seImm x nn) s = .next t ∧ OnlyRegs s t [] ∧
      t.pc = (if (s.getV x).toNat = nn.toNat then s.pc + 4#12 else s.pc + 2#12)) ∧
    (∃ t, exec (.sneImm x nn) s = .next t ∧ OnlyRegs s t [] ∧
      t.pc = (if (s.getV x).toNat = nn.toNat then s.pc + 2#12 else s.pc + 4#12)) ∧
    (∃ t, exec (.seReg x y) s = .next t ∧ OnlyRegs s t [] ∧
      t.pc = (if (s.getV x).toNat = (s.getV y).toNat then s.pc + 4#12 else s.pc + 2#12)) ∧
    (∃ t, exec (.sneReg x y) s = .next t ∧ OnlyRegs s t [] ∧
      t.pc = (if (s.getV x).toNat = (s.getV y).toNat then s.pc + 2#12 else s.pc + 4#12))

/-- R170, R171 with R176: the skips on the key latch; a register above 0x0F raises KEY_RANGE with its value (the spec's
own decision D9) and nothing else changes. -/
def Obligations.KeySkips : Prop :=
  ∀ (s : State) (x : Nibble),
    decode (0xE#4 ++ x ++ 0x9E#8) = .ok (.skp x) ∧ decode (0xE#4 ++ x ++ 0xA1#8) = .ok (.sknp x) ∧
    (∀ k : Nibble, (s.getV x).toNat = k.toNat →
      (∃ t, exec (.skp x) s = .next t ∧ OnlyRegs s t [] ∧
        t.pc = (if s.key k = true then s.pc + 4#12 else s.pc + 2#12)) ∧
      (∃ t, exec (.sknp x) s = .next t ∧ OnlyRegs s t [] ∧
        t.pc = (if s.key k = true then s.pc + 2#12 else s.pc + 4#12))) ∧
    ((s.getV x).toNat > 0x0F →
      (∃ t, exec (.skp x) s = .next t ∧ FaultedFrom s t .keyRange (BitVec.ofNat 16 (s.getV x).toNat)) ∧
      (∃ t, exec (.sknp x) s = .next t ∧ FaultedFrom s t .keyRange (BitVec.ofNat 16 (s.getV x).toNat)))

/-! ## Loads, arithmetic, logic, shifts, random -/

/-- R130, R131: `LD_IMM` and `ADD_IMM`; only `V[X]` and `pc` change, VF not even on a carry. -/
def Obligations.ImmediateForms : Prop :=
  ∀ (s : State) (x : Nibble) (nn : Byte),
    decode (0x6#4 ++ x ++ nn) = .ok (.ldImm x nn) ∧ decode (0x7#4 ++ x ++ nn) = .ok (.addImm x nn) ∧
    (∃ t, exec (.ldImm x nn) s = .next t ∧ t.getV x = nn ∧ t.pc = s.pc + 2#12 ∧ OnlyRegs s t [x]) ∧
    (∃ t, exec (.addImm x nn) s = .next t ∧ (t.getV x).toNat = ((s.getV x).toNat + nn.toNat) % 256 ∧
      t.pc = s.pc + 2#12 ∧ OnlyRegs s t [x])

/-- R132 to R135: copy and the bitwise forms, bit by bit; VF is not written as a side effect. -/
def Obligations.CopyAndLogicForms : Prop :=
  ∀ (s : State) (x y : Nibble),
    decode (0x8#4 ++ x ++ y ++ 0x0#4) = .ok (.ldReg x y) ∧ decode (0x8#4 ++ x ++ y ++ 0x1#4) = .ok (.orReg x y) ∧
    decode (0x8#4 ++ x ++ y ++ 0x2#4) = .ok (.andReg x y) ∧ decode (0x8#4 ++ x ++ y ++ 0x3#4) = .ok (.xorReg x y) ∧
    (∃ t, exec (.ldReg x y) s = .next t ∧ t.getV x = s.getV y ∧ t.pc = s.pc + 2#12 ∧ OnlyRegs s t [x]) ∧
    (∃ t, exec (.orReg x y) s = .next t ∧ t.pc = s.pc + 2#12 ∧ OnlyRegs s t [x] ∧
      ∀ b : Nat, (t.getV x).getLsbD b = ((s.getV x).getLsbD b || (s.getV y).getLsbD b)) ∧
    (∃ t, exec (.andReg x y) s = .next t ∧ t.pc = s.pc + 2#12 ∧ OnlyRegs s t [x] ∧
      ∀ b : Nat, (t.getV x).getLsbD b = ((s.getV x).getLsbD b && (s.getV y).getLsbD b)) ∧
    (∃ t, exec (.xorReg x y) s = .next t ∧ t.pc = s.pc + 2#12 ∧ OnlyRegs s t [x] ∧
      ∀ b : Nat, (t.getV x).getLsbD b = ((s.getV x).getLsbD b ^^ (s.getV y).getLsbD b))

/-- R136: the sum modulo 256 in `V[X]`, the carry in VF, written second: with `X` = 0xF the carry remains. -/
def Obligations.AddWithCarry : Prop :=
  ∀ (s : State) (x y : Nibble),
    decode (0x8#4 ++ x ++ y ++ 0x4#4) = .ok (.addReg x y) ∧
    ∃ t, exec (.addReg x y) s = .next t ∧ t.pc = s.pc + 2#12 ∧ OnlyRegs s t [x, 0xF#4] ∧
      (x ≠ 0xF#4 → (t.getV x).toNat = ((s.getV x).toNat + (s.getV y).toNat) % 256) ∧
      (t.getV 0xF#4).toNat = (if (s.getV x).toNat + (s.getV y).toNat > 255 then 1 else 0)

/-- R137, R139: the differences modulo 256 and the no-borrow flags; `SUB` writes VF second, `SUBN` first, so with `X` =
0xF VF ends as the flag after `SUB` and as the difference after `SUBN`. -/
def Obligations.SubtractForms : Prop :=
  ∀ (s : State) (x y : Nibble),
    decode (0x8#4 ++ x ++ y ++ 0x5#4) = .ok (.sub x y) ∧ decode (0x8#4 ++ x ++ y ++ 0x7#4) = .ok (.subn x y) ∧
    (∃ t, exec (.sub x y) s = .next t ∧ t.pc = s.pc + 2#12 ∧ OnlyRegs s t [x, 0xF#4] ∧
      (x ≠ 0xF#4 → ((t.getV x).toNat : Int) = (((s.getV x).toNat : Int) - ((s.getV y).toNat : Int)) % 256) ∧
      (t.getV 0xF#4).toNat = (if (s.getV x).toNat < (s.getV y).toNat then 0 else 1)) ∧
    (∃ t, exec (.subn x y) s = .next t ∧ t.pc = s.pc + 2#12 ∧ OnlyRegs s t [x, 0xF#4] ∧
      ((t.getV x).toNat : Int) = (((s.getV y).toNat : Int) - ((s.getV x).toNat : Int)) % 256 ∧
      (x ≠ 0xF#4 → (t.getV 0xF#4).toNat = (if (s.getV y).toNat < (s.getV x).toNat then 0 else 1)))

/-- R138, R140: the shifts by one of the source `V[Y]`; VF is the bit shifted out, written first, so with `X` = 0xF VF
ends as the result; `V[X]` before the instruction is not used. -/
def Obligations.ShiftForms : Prop :=
  ∀ (s : State) (x y : Nibble),
    decode (0x8#4 ++ x ++ y ++ 0x6#4) = .ok (.shr x y) ∧ decode (0x8#4 ++ x ++ y ++ 0xE#4) = .ok (.shl x y) ∧
    (∃ t, exec (.shr x y) s = .next t ∧ t.pc = s.pc + 2#12 ∧ OnlyRegs s t [x, 0xF#4] ∧
      (t.getV x).toNat = (s.getV y).toNat / 2 ∧
      (x ≠ 0xF#4 → (t.getV 0xF#4).toNat = (s.getV y).toNat % 2)) ∧
    (∃ t, exec (.shl x y) s = .next t ∧ t.pc = s.pc + 2#12 ∧ OnlyRegs s t [x, 0xF#4] ∧
      (t.getV x).toNat = (s.getV y).toNat * 2 % 256 ∧
      (x ≠ 0xF#4 → (t.getV 0xF#4).toNat = (s.getV y).toNat / 128))

/-- R141 (the input is the spec's own decision D13): `RND` writes the tick's random input under the mask, whatever that
input is: every byte the host gives, and the free byte where the host's list gives none (list and free byte: log 1, the
model's own). -/
def Obligations.RandomByteUnderMask : Prop :=
  ∀ (s : State) (x : Nibble) (nn : Byte),
    decode (0xC#4 ++ x ++ nn) = .ok (.rnd x nn) ∧
    ∃ t, exec (.rnd x nn) s = .next t ∧ t.pc = s.pc + 2#12 ∧ OnlyRegs s t [x] ∧
      (∀ r dt st rest, s.inputs = .tick ⟨r, dt, st⟩ :: rest → t.getV x = r &&& nn) ∧
      (∃ r : Byte, t.getV x = r &&& nn) ∧ t.getV x &&& ~~~nn = 0x00#8 ∧ (t.getV x).toNat ≤ nn.toNat

/-! ## Address register and memory -/

/-- R150, R152: `LD_I` and `LD_F`; `LD_F` multiplies the whole byte by 5 (the spec's own decision D27). -/
def Obligations.LoadAddressForms : Prop :=
  ∀ (s : State) (x : Nibble) (nnn : Addr),
    decode (0xA#4 ++ nnn) = .ok (.ldI nnn) ∧ decode (0xF#4 ++ x ++ 0x29#8) = .ok (.ldF x) ∧
    (∃ t, exec (.ldI nnn) s = .next t ∧ t.I.toNat = nnn.toNat ∧ t.pc = s.pc + 2#12 ∧ AllMemoryKept s t ∧
      t = { s with I := t.I, pc := t.pc }) ∧
    (∃ t, exec (.ldF x) s = .next t ∧ t.I.toNat = (s.getV x).toNat * 5 ∧ t.pc = s.pc + 2#12 ∧ AllMemoryKept s t ∧
      t = { s with I := t.I, pc := t.pc })

/-- R151: `ADD_I` subtracts 0xFFF from a sum above 0xFFF (the spec's own decision D28 to keep the literal); VF tells
whether it did, and is written always. -/
def Obligations.AddToAddressRegister : Prop :=
  ∀ (s : State) (x : Nibble), s.I.toNat ≤ 0xFFF →
    decode (0xF#4 ++ x ++ 0x1E#8) = .ok (.addI x) ∧
    ∃ t, exec (.addI x) s = .next t ∧ t.pc = s.pc + 2#12 ∧
      (s.I.toNat + (s.getV x).toNat > 0xFFF →
        t.I.toNat = s.I.toNat + (s.getV x).toNat - 0xFFF ∧ t.getV 0xF#4 = 0x01#8) ∧
      (s.I.toNat + (s.getV x).toNat ≤ 0xFFF →
        t.I.toNat = s.I.toNat + (s.getV x).toNat ∧ t.getV 0xF#4 = 0x00#8) ∧
      t.I.toNat ≤ 0xFFF ∧ RegsKept s t [0xF#4] ∧ AllMemoryKept s t ∧
      t = { s with V := t.V, I := t.I, pc := t.pc }

/-- R153: `LD_B` stores the hundreds, tens and ones at `I`, `I + 1`, `I + 2`; where the last byte would be above 0xFFF it
stores the digits that fit and raises MEM_BOUNDS with 0x1000. -/
def Obligations.BcdStore : Prop :=
  ∀ (s : State) (x : Nibble), s.I.toNat ≤ 0xFFF →
    decode (0xF#4 ++ x ++ 0x33#8) = .ok (.ldB x) ∧
    ∃ t, exec (.ldB x) s = .next t ∧
      (t.byteAt s.I.toNat).toNat = (s.getV x).toNat / 100 ∧
      (s.I.toNat + 1 ≤ 0xFFF → (t.byteAt (s.I.toNat + 1)).toNat = (s.getV x).toNat / 10 % 10) ∧
      (s.I.toNat + 2 ≤ 0xFFF → (t.byteAt (s.I.toNat + 2)).toNat = (s.getV x).toNat % 10) ∧
      (s.I.toNat + 2 ≤ 0xFFF → t.pc = s.pc + 2#12 ∧ OnlyStores s t s.I.toNat 3) ∧
      (s.I.toNat + 2 > 0xFFF → MemoryKept s t s.I.toNat (0x1000 - s.I.toNat) ∧
        FaultedFrom { s with MEM := t.MEM } t .memBounds 0x1000#16)

/-- R154: `ST_REGS` stores `V[0]` to `V[X]` at `I` to `I + X` and changes neither `I` (the spec's own decision D19) nor
a register; where the last byte would be above 0xFFF it stores those that fit and raises MEM_BOUNDS with 0x1000. -/
def Obligations.StoreRegisters : Prop :=
  ∀ (s : State) (x : Nibble), s.I.toNat ≤ 0xFFF →
    decode (0xF#4 ++ x ++ 0x55#8) = .ok (.stRegs x) ∧
    ∃ t, exec (.stRegs x) s = .next t ∧
      (∀ k : Nibble, k.toNat ≤ x.toNat → s.I.toNat + k.toNat ≤ 0xFFF → t.byteAt (s.I.toNat + k.toNat) = s.getV k) ∧
      (s.I.toNat + x.toNat ≤ 0xFFF → t.pc = s.pc + 2#12 ∧ OnlyStores s t s.I.toNat (x.toNat + 1)) ∧
      (s.I.toNat + x.toNat > 0xFFF → MemoryKept s t s.I.toNat (0x1000 - s.I.toNat) ∧
        FaultedFrom { s with MEM := t.MEM } t .memBounds 0x1000#16)

/-- R155: `LD_REGS` loads `V[0]` to `V[X]` from `I` to `I + X`, keeps `I` (the spec's own decision D19), memory and the
registers above `X`; where the last byte would be above 0xFFF it loads those that fit and raises MEM_BOUNDS with 0x1000.
-/
def Obligations.LoadRegisters : Prop :=
  ∀ (s : State) (x : Nibble), s.I.toNat ≤ 0xFFF →
    decode (0xF#4 ++ x ++ 0x65#8) = .ok (.ldRegs x) ∧
    ∃ t, exec (.ldRegs x) s = .next t ∧
      (∀ k : Nibble, k.toNat ≤ x.toNat → s.I.toNat + k.toNat ≤ 0xFFF → t.getV k = s.byteAt (s.I.toNat + k.toNat)) ∧
      (∀ k : Nibble, (k.toNat > x.toNat ∨ s.I.toNat + k.toNat > 0xFFF) → t.getV k = s.getV k) ∧
      AllMemoryKept s t ∧
      (s.I.toNat + x.toNat ≤ 0xFFF → t.pc = s.pc + 2#12 ∧ t = { s with V := t.V, pc := t.pc }) ∧
      (s.I.toNat + x.toNat > 0xFFF → FaultedFrom { s with V := t.V } t .memBounds 0x1000#16)

/-- D0 §8 (rules R154, R155): dumping `V[0]` to `V[X]` and loading them back, whatever the registers held in between,
restores the dumped values. -/
def Obligations.DumpThenLoadRestores : Prop :=
  ∀ (s t u : State) (x : Nibble), s.I.toNat + x.toNat ≤ 0xFFF → exec (.stRegs x) s = .next t →
    u.I = t.I → AllMemoryKept t u →
    ∃ r, exec (.ldRegs x) u = .next r ∧ r.MODE = u.MODE ∧ ∀ k : Nibble, k.toNat ≤ x.toNat → r.getV k = s.getV k

/-- R60: a store is seen by the very next fetch: where `ST_REGS` stores both bytes of the word that follows it, the next
tick fetches the stored bytes. -/
def Obligations.StoreIsSeenByTheNextFetch : Prop :=
  ∀ (s : State) (x j k : Nibble), s.I.toNat + x.toNat ≤ 0xFFF → k.toNat = j.toNat + 1 → k.toNat ≤ x.toNat →
    (s.pc + 2#12).toNat = s.I.toNat + j.toNat →
    ∃ t, exec (.stRegs x) s = .next t ∧ fetch t = .done (bigEndian (s.getV j) (s.getV k)) t

/-! ## Framebuffer -/

/-- R160, R163: `CLS` clears every pixel, raises `refresh`, writes nothing else. -/
def Obligations.ClearScreen : Prop :=
  decode 0x00E0#16 = .ok .cls ∧
  ∀ s : State, ∃ t, exec .cls s = .next t ∧ t.pc = s.pc + 2#12 ∧
    (∀ x y : Nat, x < 64 → y < 32 → Framebuffer.pixel t.FB x y = false) ∧
    t.out = { s.out with refresh := true } ∧ AllMemoryKept s t ∧
    t = { s with FB := t.FB, pc := t.pc, out := t.out }

/-- R161, R162 (a start outside the grid draws nothing: the spec's own decision D20): `DRW` toggles exactly the pixels
inside the grid where the sprite has a 1 (nothing wraps), VF is 1 exactly if one of them was on, `refresh` is raised;
where a row's byte is above 0xFFF, the rows before it are drawn, VF and `pc` stay, no `refresh`, and MEM_BOUNDS with
0x1000 is raised. -/
def Obligations.DrawSprite : Prop :=
  ∀ (s : State) (x y n : Nibble), s.I.toNat ≤ 0xFFF →
    decode (0xD#4 ++ x ++ y ++ n) = .ok (.drw x y n) ∧
    ∃ t, exec (.drw x y n) s = .next t ∧
      (s.I.toNat + n.toNat ≤ 0x1000 →
        (∀ px py : Nat, px < 64 → py < 32 → Framebuffer.pixel t.FB px py =
          (Framebuffer.pixel s.FB px py ^^
            spriteBit s (s.getV x).toNat (s.getV y).toNat n.toNat s.I.toNat px py)) ∧
        (t.getV 0xF#4 = 0x01#8 ∨ t.getV 0xF#4 = 0x00#8) ∧
        (t.getV 0xF#4 = 0x01#8 ↔ ∃ px py : Nat, px < 64 ∧ py < 32 ∧ Framebuffer.pixel s.FB px py = true ∧
          spriteBit s (s.getV x).toNat (s.getV y).toNat n.toNat s.I.toNat px py = true) ∧
        t.pc = s.pc + 2#12 ∧ t.out = { s.out with refresh := true } ∧ RegsKept s t [0xF#4] ∧ AllMemoryKept s t ∧
        t = { s with V := t.V, FB := t.FB, pc := t.pc, out := t.out }) ∧
      (s.I.toNat + n.toNat > 0x1000 →
        (∀ px py : Nat, px < 64 → py < 32 → Framebuffer.pixel t.FB px py =
          (Framebuffer.pixel s.FB px py ^^
            spriteBit s (s.getV x).toNat (s.getV y).toNat (0x1000 - s.I.toNat) s.I.toNat px py)) ∧
        AllMemoryKept s t ∧ FaultedFrom { s with FB := t.FB } t .memBounds 0x1000#16)

/-- D0 §8 (rule R162): drawing the same sprite twice at the same place restores the framebuffer. -/
def Obligations.DrawingTwiceRestores : Prop :=
  ∀ (s t u : State) (x y h a : Nat) (c d : Bool),
    drawSprite x y h a s = .done c t → drawSprite x y h a t = .done d u → u.FB = s.FB

/-! ## Keys and timers -/

/-- R172 (which presses count is the spec's own decision D10): `LD_VX_K` waits, and its tick runs the timer phase; while
it waits, ticks, releases and codes above 0x0F do not end the wait and `pc` stays; the next accepted press gives its
code to `V[X]`, adds 2 to `pc` and resumes. -/
def Obligations.WaitForKeyPress : Prop :=
  ∀ (s : State) (x : Nibble),
    decode (0xF#4 ++ x ++ 0x0A#8) = .ok (.ldVxK x) ∧
    (∃ t, exec (.ldVxK x) s = .next t ∧ t = { s with WAITREG := x, MODE := .awaitingKey } ∧
      ∀ w, Fetches s w → decode w = .ok (.ldVxK x) → tick s = .next (timerPhase t)) ∧
    (s.MODE = .awaitingKey → s.WAITREG = x →
      (∃ u, tick s = .next u ∧ u.MODE = .awaitingKey ∧ u.WAITREG = x ∧ u.pc = s.pc ∧ u.V = s.V) ∧
      (∀ (code : Byte) (pressed : Bool), (code.toNat > 0x0F ∨ pressed = false) →
        (setKeyState code pressed s).MODE = .awaitingKey ∧ (setKeyState code pressed s).WAITREG = x ∧
        (setKeyState code pressed s).pc = s.pc ∧ (setKeyState code pressed s).V = s.V) ∧
      (∀ k : Nibble, ∀ u, u = setKeyState (k.setWidth 8) true s →
        u.getV x = k.setWidth 8 ∧ RegsKept s u [x] ∧ u.key k = true ∧ (∀ j, j ≠ k → u.key j = s.key j) ∧
        u.pc = s.pc + 2#12 ∧ AllMemoryKept s u ∧
        u = { s with V := u.V, K := u.K, pc := u.pc, MODE := .running }))

/-- R173, R174, R175: the timers are read and written whole. -/
def Obligations.TimerAccess : Prop :=
  ∀ (s : State) (x : Nibble),
    decode (0xF#4 ++ x ++ 0x07#8) = .ok (.ldVxDt x) ∧ decode (0xF#4 ++ x ++ 0x15#8) = .ok (.ldDtVx x) ∧
    decode (0xF#4 ++ x ++ 0x18#8) = .ok (.ldStVx x) ∧
    (∃ t, exec (.ldVxDt x) s = .next t ∧ t.getV x = s.DT ∧ t.pc = s.pc + 2#12 ∧ OnlyRegs s t [x]) ∧
    (∃ t, exec (.ldDtVx x) s = .next t ∧ t = { s with DT := s.getV x, pc := s.pc + 2#12 }) ∧
    (∃ t, exec (.ldStVx x) s = .next t ∧ t = { s with ST := s.getV x, pc := s.pc + 2#12 })

/-! ## Host ports, reset, load -/

/-- R31, R32 (the zeros are the spec's own decisions D5, D6): what the state holds after power-on, for every value of
the parameters. -/
def Obligations.PowerOnValues : Prop :=
  ∀ p : Config.Params, ∃ s, s = State.powerOn p ∧
    (∀ r : Nibble, s.getV r = 0x00#8) ∧ s.I = 0x0000#16 ∧ s.pc = 0x200#12 ∧ s.SP = p.stackBase.val ∧
    s.DT = 0x00#8 ∧ s.ST = 0x00#8 ∧ s.MODE = .running ∧ s.WAITREG = 0x0#4 ∧ s.FCAUSE = none ∧ s.FINFO = 0x0000#16 ∧
    (∀ x y : Nat, Framebuffer.pixel s.FB x y = false) ∧ (∀ k : Nibble, s.key k = false) ∧
    (∀ d r : Nat, (hd : d < 16) → (hr : r < 5) → s.byteAt (5 * d + r) = (p.font[d])[r]) ∧
    (∀ a : Nat, 0x50 ≤ a → a ≤ 0xFFF → s.byteAt a = 0x00#8)

/-- R241, R33 (the zeros are the spec's own decision D5): Reset establishes the values of R31 in any mode, raises
`refresh`, and touches neither memory nor the keys. -/
def Obligations.ResetEstablishes : Prop :=
  ∀ s : State, ∃ t, hostEvent .reset s = t ∧
    (∀ r : Nibble, t.getV r = 0x00#8) ∧ t.I = 0x0000#16 ∧ t.pc = 0x200#12 ∧ t.SP = s.params.stackBase.val ∧
    t.DT = 0x00#8 ∧ t.ST = 0x00#8 ∧ t.MODE = .running ∧ t.WAITREG = 0x0#4 ∧ t.FCAUSE = none ∧ t.FINFO = 0x0000#16 ∧
    (∀ x y : Nat, Framebuffer.pixel t.FB x y = false) ∧ t.out = { s.out with refresh := true } ∧
    t.K = s.K ∧ AllMemoryKept s t ∧
    t.MEM = s.MEM ∧ t.params = s.params ∧ t.inputs = s.inputs ∧ t.draws = s.draws

/-- R242 (the fault of an image too long is the spec's own decision D24): LoadROM resets and copies the image to 0x200
on, leaving every other cell; an image above 3584 bytes leaves its first 3584 bytes and raises MEM_BOUNDS with 0x1000.
-/
def Obligations.LoadRomCopiesTheImage : Prop :=
  ∀ (s : State) (bytes : List Byte), ∃ t, hostEvent (.loadROM bytes) s = t ∧
    (∀ j : Nat, (h : j < bytes.length) → j < 3584 → t.byteAt (0x200 + j) = bytes[j]) ∧
    MemoryKept s t 0x200 (min bytes.length 3584) ∧
    (bytes.length ≤ 3584 → t = { hostEvent .reset s with MEM := t.MEM }) ∧
    (bytes.length > 3584 → FaultedFrom { hostEvent .reset s with MEM := t.MEM } t .memBounds 0x1000#16)

/-- R218 (which presses count, and the width of the code: the spec's own decisions D10, D31): SetKeyState ignores a code
above 0x0F; otherwise it writes the latch entry, and a press while waiting ends the wait; in the other modes, and on a
release, nothing but the entry changes. -/
def Obligations.SetKeyStateLaw : Prop :=
  ∀ (s : State) (code : Byte) (pressed : Bool), ∃ t, hostEvent (.setKeyState code pressed) s = t ∧
    (code.toNat > 0x0F → t = s) ∧
    (∀ k : Nibble, code.toNat = k.toNat →
      t.key k = pressed ∧ (∀ j : Nibble, j ≠ k → t.key j = s.key j) ∧
      (pressed = true → s.MODE = .awaitingKey →
        t.getV s.WAITREG = code ∧ RegsKept s t [s.WAITREG] ∧ t.pc = s.pc + 2#12 ∧ AllMemoryKept s t ∧
        t = { s with V := t.V, K := t.K, pc := t.pc, MODE := .running }) ∧
      ((pressed = false ∨ s.MODE ≠ .awaitingKey) → t = { s with K := t.K }))

/-- R222, R223, R224 (the port widths are the spec's own decision D22): a debug write inside its range writes its target
and nothing else, in any mode; outside its range it changes no state and only the error reply is raised (its form is log 2, the width of the register index
log 14, both the model's own). -/
def Obligations.DebugWritesAreRangeChecked : Prop :=
  ∀ (s : State) (v : Word) (b : Byte) (i : Nat),
    (v.toNat ≤ 0xFFF → hostEvent (.debugSetPC v) s = { s with pc := v.setWidth 12 } ∧
      hostEvent (.debugSetI v) s = { s with I := v }) ∧
    (v.toNat > 0xFFF → hostEvent (.debugSetPC v) s = { s with out := { s.out with errorReply := true } } ∧
      hostEvent (.debugSetI v) s = { s with out := { s.out with errorReply := true } }) ∧
    (∀ r : Nibble, i = r.toNat → ∃ t, hostEvent (.debugSetReg i b) s = t ∧ t.getV r = b ∧ RegsKept s t [r] ∧
      t = { s with V := t.V }) ∧
    (i > 15 → hostEvent (.debugSetReg i b) s = { s with out := { s.out with errorReply := true } })

/-- R226, R44, R219 (the widths of WriteByte and the error reply are the spec's own decisions D22, D30; the 8 bits of
GetKeyState's code are the model's own, log 14): WriteByte writes its cell,
in any region, and nothing else, and the read-only view gives the cell; the host's key read gives the latch entry, and
nothing for a code above 0x0F. -/
def Obligations.HostMemoryAndKeyPorts : Prop :=
  ∀ (s : State) (a : Addr) (v code : Byte),
    (∃ t, hostEvent (.writeByte a v) s = t ∧
      t.byteAt a.toNat = v ∧ hostReadByte t a = v ∧ MemoryKept s t a.toNat 1 ∧ t = { s with MEM := t.MEM }) ∧
    (∀ k : Nibble, code.toNat = k.toNat → getKeyState s code = some (s.key k)) ∧
    (code.toNat > 0x0F → getKeyState s code = none)

/-! ## Whole-machine rules -/

/-- The power-on state meets the invariant, for every value of the parameters; so does the reset state. The zeros are the
spec's own decision D5, the legal `SP` its D26, the fault record its D15. The model's own: that memory is a canonical list
(log 5, DESIGN CHOICE for the list form), that an empty record is none with 0 (log 9, DEDUCED), and the parameters of
`State.reset` (log 3). -/
def Obligations.InvariantHoldsAtPowerOn : Prop :=
  (∀ p : Config.Params, (State.powerOn p).Inv ∧ (State.powerOn p).recordLegal) ∧ State.reset.Inv

/-- Every step, a tick or a host event, keeps the invariant. From the rules: `I` at most 0x0FFF (R14), a legal stack pointer
(R17, the spec's own decision D26), a fault record that belongs to Faulted (R26, the spec's own decision D15), which is
there exactly in Faulted and else none with 0 (log 9, DEDUCED). The model's own: the clause that the memory list is
canonical, its addresses below 4096 (log 5, DESIGN CHOICE for the list form), which no rule states. -/
def Obligations.EveryStepKeepsInvariant : Prop :=
  ∀ s t : State, s.Inv → step s = .next t → t.Inv

/-- R200 (the causes and the record are the spec's own decision D15): every step keeps the fault record one that its
cause can have; a bounds fault always reports 0x1000. The premise `Inv` contains the model's own memory form (log 5) and
empty record (log 9). -/
def Obligations.EveryStepKeepsFaultRecordLegal : Prop :=
  ∀ s t : State, s.Inv → s.recordLegal → step s = .next t → t.recordLegal

/-- R102 (with the spec's own decision D14): every step answers a next state: nothing stops the model, fatal conditions
included. -/
def Obligations.EveryStepAnswers : Prop :=
  ∀ s : State, ∃ t, step s = .next t ∧ t.params = s.params

/-- R24, R209 (Faulted is the spec's own decision D14): the transitions of `MODE`, for one step of a run (which step
that is, the host's list says: log 1, the model's own). -/
def Obligations.ModeTransitions : Prop :=
  ∀ s t : State, step s = .next t → t.MODE ≠ s.MODE →
    (s.MODE = .running ∧ t.MODE = .awaitingKey ∧ TickIsNext s ∧
      ∃ x, decode (s.wordAt s.pc.toNat) = .ok (.ldVxK x) ∧ t.WAITREG = x) ∨
    (s.MODE = .awaitingKey ∧ t.MODE = .running ∧
      ∃ code rest, s.inputs = .event (.setKeyState code true) :: rest ∧ code.toNat ≤ 0x0F) ∨
    (s.MODE = .running ∧ t.MODE = .faulted ∧ t.out.fault ≠ none) ∨
    (∃ rest, s.inputs = .event .reset :: rest ∧ t.MODE = .running) ∨
    (∃ bytes rest, s.inputs = .event (.loadROM bytes) :: rest ∧
      t.MODE = (if bytes.length ≤ 3584 then .running else .faulted))

/-- R17, R30 (the cursor is the spec's own decision D26): only `CALL`, `RET` and the host's Reset and LoadROM change the
stack pointer. -/
def Obligations.StackPointerWriters : Prop :=
  ∀ s t : State, s.stackLegal → step s = .next t → t.SP ≠ s.SP →
    (Fetches s (s.wordAt s.pc.toNat) ∧ TickIsNext s ∧
      ((∃ nnn, decode (s.wordAt s.pc.toNat) = .ok (.call nnn) ∧ t.SP = s.SP + 2) ∨
        (decode (s.wordAt s.pc.toNat) = .ok .ret ∧ t.SP + 2 = s.SP))) ∨
    (∃ rest, s.inputs = .event .reset :: rest) ∨ (∃ bytes rest, s.inputs = .event (.loadROM bytes) :: rest)

/-- R12: the instructions that write VF as a side effect are the seven of the rule, and what they leave is 0 or 1 unless
VF is also the destination of a form that writes it last; every other instruction changes VF only as its destination. -/
def Obligations.FlagWriters : Prop :=
  ∀ (s t : State) (i : Instr), exec i s = .next t → t.getV 0xF#4 ≠ s.getV 0xF#4 →
    (∃ x y, (i = .addReg x y ∨ i = .sub x y) ∧ (t.getV 0xF#4).toNat ≤ 1) ∨
    (∃ x y, (i = .shr x y ∨ i = .subn x y ∨ i = .shl x y) ∧ (x = 0xF#4 ∨ (t.getV 0xF#4).toNat ≤ 1)) ∨
    (∃ x, i = .addI x ∧ (t.getV 0xF#4).toNat ≤ 1) ∨
    (∃ x y n, i = .drw x y n ∧ (t.getV 0xF#4).toNat ≤ 1) ∨
    (∃ nn, i = .ldImm 0xF#4 nn ∨ i = .addImm 0xF#4 nn ∨ i = .rnd 0xF#4 nn) ∨
    (∃ y, i = .ldReg 0xF#4 y ∨ i = .orReg 0xF#4 y ∨ i = .andReg 0xF#4 y ∨ i = .xorReg 0xF#4 y) ∨
    i = .ldVxDt 0xF#4 ∨ i = .ldRegs 0xF#4

/-- R13: only `LD_I`, `ADD_I`, `LD_F` change `I`. -/
def Obligations.AddressRegisterWriters : Prop :=
  ∀ (s t : State) (i : Instr), exec i s = .next t → t.I ≠ s.I →
    (∃ nnn, i = .ldI nnn) ∨ (∃ x, i = .addI x) ∨ (∃ x, i = .ldF x)

/-- R41: the only instructions that change a byte of memory are `CALL` (two bytes at `SP`), `LD_B` (three at `I`) and
`ST_REGS` (`X + 1` at `I`). -/
def Obligations.MemoryWriters : Prop :=
  ∀ (s t : State) (i : Instr) (a : Nat), exec i s = .next t → t.byteAt a ≠ s.byteAt a →
    a ≤ 0xFFF ∧
    ((∃ nnn, i = .call nnn ∧ (a = s.SP ∨ a = s.SP + 1)) ∨
      (∃ x, i = .ldB x ∧ s.I.toNat ≤ a ∧ a ≤ s.I.toNat + 2) ∨
      (∃ x, i = .stRegs x ∧ s.I.toNat ≤ a ∧ a ≤ s.I.toNat + x.toNat))

/-- R22, R23: over a whole step, the framebuffer changes only by `CLS`, `DRW`, Reset and LoadROM, the key latch only by
SetKeyState. -/
def Obligations.ScreenAndKeyWriters : Prop :=
  ∀ s t : State, step s = .next t →
    (t.FB ≠ s.FB →
      (s.MODE = .running ∧ TickIsNext s ∧ (decode (s.wordAt s.pc.toNat) = .ok .cls ∨
        ∃ x y n, decode (s.wordAt s.pc.toNat) = .ok (.drw x y n))) ∨
      (∃ rest, s.inputs = .event .reset :: rest) ∨ (∃ bytes rest, s.inputs = .event (.loadROM bytes) :: rest)) ∧
    (t.K ≠ s.K → ∃ code pressed rest, s.inputs = .event (.setKeyState code pressed) :: rest)

/-- R216 (the strobes are the spec's own decision D11): for every strobe sequence, a step lowers a timer by at most 1,
never raises it and leaves it at 0 once there, except where the step executes the timer's own write instruction or is a
Reset or LoadROM, which make it 0. -/
def Obligations.TimersOnlyCountDown : Prop :=
  ∀ s t : State, step s = .next t →
    (∃ rest, s.inputs = .event .reset :: rest) ∨ (∃ bytes rest, s.inputs = .event (.loadROM bytes) :: rest) ∨
    (((t.DT.toNat ≤ s.DT.toNat ∧ s.DT.toNat ≤ t.DT.toNat + 1) ∨
        (s.MODE = .running ∧ ∃ x, decode (s.wordAt s.pc.toNat) = .ok (.ldDtVx x) ∧
          t.DT.toNat ≤ (s.getV x).toNat ∧ (s.getV x).toNat ≤ t.DT.toNat + 1)) ∧
      ((t.ST.toNat ≤ s.ST.toNat ∧ s.ST.toNat ≤ t.ST.toNat + 1) ∨
        (s.MODE = .running ∧ ∃ x, decode (s.wordAt s.pc.toNat) = .ok (.ldStVx x) ∧
          t.ST.toNat ≤ (s.getV x).toNat ∧ (s.getV x).toNat ≤ t.ST.toNat + 1)))

/-- R23, R213: the key latch reaches the engine only through `SKP` and `SKNP`: with another instruction at `pc`, a tick
gives the same state whatever keys are held, but for the latch itself. -/
def Obligations.KeysReachOnlyKeySkips : Prop :=
  ∀ (s t : State) (keys : Vector Bool 16), tick s = .next t →
    (∀ x, decode (s.wordAt s.pc.toNat) ≠ .ok (.skp x)) → (∀ x, decode (s.wordAt s.pc.toNat) ≠ .ok (.sknp x)) →
    tick { s with K := keys } = .next { t with K := keys }

/-- R27, R91 (the input is the spec's own decision D13): the random byte reaches the state only through `RND`: with
another instruction at `pc`, two ticks that differ in `rnd` only give the same state (the list that holds the inputs, and
that the tick spends them, is log 1, the model's own). -/
def Obligations.RandomReachesOnlyRnd : Prop :=
  ∀ (s t : State) (r r' : Byte) (dt st : Bool) (rest : List Input), s.inputs = .tick ⟨r, dt, st⟩ :: rest →
    (∀ x nn, decode (s.wordAt s.pc.toNat) ≠ .ok (.rnd x nn)) → step s = .next t →
    step { s with inputs := .tick ⟨r', dt, st⟩ :: rest } = .next t

/-- R46, R47, R60: memory as a program sees it: a write is read back, and leaves every other byte. -/
def Obligations.WriteThenRead : Prop :=
  ∀ (s : State) (a : Nat) (v : Byte), a ≤ 0xFFF →
    ∃ t, memWrite s a v = .done () t ∧ memRead t a = .done v t ∧ MemoryKept s t a 1 ∧ t = { s with MEM := t.MEM }

/-- R45 (validating a derived address is the spec's own decision D2): an address above 0xFFF is never wrapped: each
primitive raises MEM_BOUNDS with the first invalid address. -/
def Obligations.OutOfRangeIsNeverWrapped : Prop :=
  ∀ (s : State) (a : Nat) (v : Byte), a > 0xFFF →
    memRead s a = .raised .memBounds a s ∧ memWrite s a v = .raised .memBounds a s ∧
    memReadWord s a = .raised .memBounds a s ∧ memReadWord s 0xFFF = .raised .memBounds 0x1000 s

/-- Equal memories are equal data: two canonical lists that read alike at every address are the same list (the model's own
form of memory: log 5, DESIGN CHOICE for the list form). -/
def Obligations.CanonicalMemoryIsUnique : Prop :=
  ∀ (font : Vector (Vector Byte 5) 16) (m n : Memory), Memory.wf font m = true → Memory.wf font n = true →
    (∀ a : Nat, Memory.get font m a = Memory.get font n a) → m = n
end

