-- ==== Sys2Proof/Laws/Encoding.lean ====
section
/-! SUPPORT. The fields of a word built by a format, and of a word taken apart (30_encoding.md R71, R72). -/

namespace Sys2Proof

theorem toNat_append' {m n : Nat} (a : BitVec m) (b : BitVec n) : (a ++ b).toNat = 2 ^ n * a.toNat + b.toNat := by
  rw [BitVec.toNat_append, ← Nat.shiftLeft_add_eq_or_of_lt b.isLt, Nat.shiftLeft_eq, Nat.mul_comm]

theorem toNat_fieldOp (w : Word) : (fieldOp w).toNat = w.toNat / 4096 := by
  have := w.isLt
  simp only [fieldOp, BitVec.extractLsb'_toNat, Nat.shiftRight_eq_div_pow]; omega

theorem toNat_fieldX (w : Word) : (fieldX w).toNat = w.toNat / 256 % 16 := by
  simp only [fieldX, BitVec.extractLsb'_toNat, Nat.shiftRight_eq_div_pow]

theorem toNat_fieldY (w : Word) : (fieldY w).toNat = w.toNat / 16 % 16 := by
  simp only [fieldY, BitVec.extractLsb'_toNat, Nat.shiftRight_eq_div_pow]

theorem toNat_fieldN (w : Word) : (fieldN w).toNat = w.toNat % 16 := by
  simp [fieldN]

/-- A word is its four nibbles. -/
theorem nibbles_eq (w : Word) : fieldOp w ++ fieldX w ++ fieldY w ++ fieldN w = w := by
  apply BitVec.eq_of_toNat_eq
  have := w.isLt
  simp only [toNat_append', toNat_fieldOp, toNat_fieldX, toNat_fieldY, toNat_fieldN]; omega

/-- Decoding a word given as its four nibbles (format XYN and XY). -/
theorem decode_nibbles (op x y n : Nibble) :
    decode (op ++ x ++ y ++ n) = decodeNibbles (op ++ x ++ y ++ n) op x y n := by
  have h1 : fieldOp (op ++ x ++ y ++ n) = op := by
    apply BitVec.eq_of_toNat_eq; simp only [toNat_fieldOp, toNat_append']; omega
  have h2 : fieldX (op ++ x ++ y ++ n) = x := by
    apply BitVec.eq_of_toNat_eq; simp only [toNat_fieldX, toNat_append']; omega
  have h3 : fieldY (op ++ x ++ y ++ n) = y := by
    apply BitVec.eq_of_toNat_eq; simp only [toNat_fieldY, toNat_append']; omega
  have h4 : fieldN (op ++ x ++ y ++ n) = n := by
    apply BitVec.eq_of_toNat_eq; simp only [toNat_fieldN, toNat_append']; omega
  rw [decode, h1, h2, h3, h4]

/-- A byte is the immediate of its two nibbles. -/
theorem immediate_split (nn : Byte) : immediate (nn.extractLsb' 4 4) (nn.extractLsb' 0 4) = nn := by
  apply BitVec.eq_of_toNat_eq
  have := nn.isLt
  simp only [immediate, toNat_append', BitVec.extractLsb'_toNat, Nat.shiftRight_eq_div_pow]; omega

/-- A 12-bit value is the address of its three nibbles. -/
theorem address_split (nnn : Addr) :
    address (nnn.extractLsb' 8 4) (nnn.extractLsb' 4 4) (nnn.extractLsb' 0 4) = nnn := by
  apply BitVec.eq_of_toNat_eq
  have := nnn.isLt
  simp only [address, toNat_append', BitVec.extractLsb'_toNat, Nat.shiftRight_eq_div_pow]; omega

theorem ximm_nibbles (op x : Nibble) (nn : Byte) :
    op ++ x ++ nn = op ++ x ++ nn.extractLsb' 4 4 ++ nn.extractLsb' 0 4 := by
  apply BitVec.eq_of_toNat_eq
  have := nn.isLt
  simp only [toNat_append', BitVec.extractLsb'_toNat, Nat.shiftRight_eq_div_pow]; omega

theorem addr_nibbles (op : Nibble) (nnn : Addr) :
    op ++ nnn = op ++ nnn.extractLsb' 8 4 ++ nnn.extractLsb' 4 4 ++ nnn.extractLsb' 0 4 := by
  apply BitVec.eq_of_toNat_eq
  have := nnn.isLt
  simp only [toNat_append', BitVec.extractLsb'_toNat, Nat.shiftRight_eq_div_pow]; omega

/-- Decoding a word of format XIMM. -/
theorem decode_ximm (op x : Nibble) (nn : Byte) :
    decode (op ++ x ++ nn) = decodeNibbles (op ++ x ++ nn) op x (nn.extractLsb' 4 4) (nn.extractLsb' 0 4) := by
  rw [ximm_nibbles, decode_nibbles]

/-- Decoding a word of format ADDR. -/
theorem decode_addr (op : Nibble) (nnn : Addr) :
    decode (op ++ nnn) =
      decodeNibbles (op ++ nnn) op (nnn.extractLsb' 8 4) (nnn.extractLsb' 4 4) (nnn.extractLsb' 0 4) := by
  rw [addr_nibbles, decode_nibbles]

end Sys2Proof
end

