-- ==== Sys2Proof/Laws/State.lean ====
section
/-! SUPPORT. What each update of the state does to each field, and how the accessors read through it: one lemma per field
per update, so that no later proof unfolds a record update. -/

namespace Sys2Proof.Machine

variable (s : State)


/-! ### setV -/

@[simp] theorem setV_I (x : Nibble) (v : Byte) : (s.setV x v).I = s.I := rfl
@[simp] theorem setV_pc (x : Nibble) (v : Byte) : (s.setV x v).pc = s.pc := rfl
@[simp] theorem setV_SP (x : Nibble) (v : Byte) : (s.setV x v).SP = s.SP := rfl
@[simp] theorem setV_DT (x : Nibble) (v : Byte) : (s.setV x v).DT = s.DT := rfl
@[simp] theorem setV_ST (x : Nibble) (v : Byte) : (s.setV x v).ST = s.ST := rfl
@[simp] theorem setV_MEM (x : Nibble) (v : Byte) : (s.setV x v).MEM = s.MEM := rfl
@[simp] theorem setV_FB (x : Nibble) (v : Byte) : (s.setV x v).FB = s.FB := rfl
@[simp] theorem setV_K (x : Nibble) (v : Byte) : (s.setV x v).K = s.K := rfl
@[simp] theorem setV_MODE (x : Nibble) (v : Byte) : (s.setV x v).MODE = s.MODE := rfl
@[simp] theorem setV_WAITREG (x : Nibble) (v : Byte) : (s.setV x v).WAITREG = s.WAITREG := rfl
@[simp] theorem setV_FCAUSE (x : Nibble) (v : Byte) : (s.setV x v).FCAUSE = s.FCAUSE := rfl
@[simp] theorem setV_FINFO (x : Nibble) (v : Byte) : (s.setV x v).FINFO = s.FINFO := rfl
@[simp] theorem setV_params (x : Nibble) (v : Byte) : (s.setV x v).params = s.params := rfl
@[simp] theorem setV_inputs (x : Nibble) (v : Byte) : (s.setV x v).inputs = s.inputs := rfl
@[simp] theorem setV_draws (x : Nibble) (v : Byte) : (s.setV x v).draws = s.draws := rfl
@[simp] theorem setV_out (x : Nibble) (v : Byte) : (s.setV x v).out = s.out := rfl
@[simp] theorem setV_key (x : Nibble) (v : Byte) (j : Nibble) : (s.setV x v).key j = s.key j := rfl
@[simp] theorem setV_byteAt (x : Nibble) (v : Byte) (m : Nat) : (s.setV x v).byteAt m = s.byteAt m := rfl
@[simp] theorem setV_tickInputs (x : Nibble) (v : Byte) : (s.setV x v).tickInputs = s.tickInputs := rfl

/-! ### setVF -/

@[simp] theorem setVF_I (v : Byte) : (s.setVF v).I = s.I := rfl
@[simp] theorem setVF_pc (v : Byte) : (s.setVF v).pc = s.pc := rfl
@[simp] theorem setVF_SP (v : Byte) : (s.setVF v).SP = s.SP := rfl
@[simp] theorem setVF_DT (v : Byte) : (s.setVF v).DT = s.DT := rfl
@[simp] theorem setVF_ST (v : Byte) : (s.setVF v).ST = s.ST := rfl
@[simp] theorem setVF_MEM (v : Byte) : (s.setVF v).MEM = s.MEM := rfl
@[simp] theorem setVF_FB (v : Byte) : (s.setVF v).FB = s.FB := rfl
@[simp] theorem setVF_K (v : Byte) : (s.setVF v).K = s.K := rfl
@[simp] theorem setVF_MODE (v : Byte) : (s.setVF v).MODE = s.MODE := rfl
@[simp] theorem setVF_WAITREG (v : Byte) : (s.setVF v).WAITREG = s.WAITREG := rfl
@[simp] theorem setVF_FCAUSE (v : Byte) : (s.setVF v).FCAUSE = s.FCAUSE := rfl
@[simp] theorem setVF_FINFO (v : Byte) : (s.setVF v).FINFO = s.FINFO := rfl
@[simp] theorem setVF_params (v : Byte) : (s.setVF v).params = s.params := rfl
@[simp] theorem setVF_inputs (v : Byte) : (s.setVF v).inputs = s.inputs := rfl
@[simp] theorem setVF_draws (v : Byte) : (s.setVF v).draws = s.draws := rfl
@[simp] theorem setVF_out (v : Byte) : (s.setVF v).out = s.out := rfl
@[simp] theorem setVF_key (v : Byte) (j : Nibble) : (s.setVF v).key j = s.key j := rfl
@[simp] theorem setVF_byteAt (v : Byte) (m : Nat) : (s.setVF v).byteAt m = s.byteAt m := rfl
@[simp] theorem setVF_tickInputs (v : Byte) : (s.setVF v).tickInputs = s.tickInputs := rfl

/-! ### setI -/

@[simp] theorem setI_V (v : Nat) : (s.setI v).V = s.V := rfl
@[simp] theorem setI_I (v : Nat) : (s.setI v).I = BitVec.ofNat 16 v := rfl
@[simp] theorem setI_pc (v : Nat) : (s.setI v).pc = s.pc := rfl
@[simp] theorem setI_SP (v : Nat) : (s.setI v).SP = s.SP := rfl
@[simp] theorem setI_DT (v : Nat) : (s.setI v).DT = s.DT := rfl
@[simp] theorem setI_ST (v : Nat) : (s.setI v).ST = s.ST := rfl
@[simp] theorem setI_MEM (v : Nat) : (s.setI v).MEM = s.MEM := rfl
@[simp] theorem setI_FB (v : Nat) : (s.setI v).FB = s.FB := rfl
@[simp] theorem setI_K (v : Nat) : (s.setI v).K = s.K := rfl
@[simp] theorem setI_MODE (v : Nat) : (s.setI v).MODE = s.MODE := rfl
@[simp] theorem setI_WAITREG (v : Nat) : (s.setI v).WAITREG = s.WAITREG := rfl
@[simp] theorem setI_FCAUSE (v : Nat) : (s.setI v).FCAUSE = s.FCAUSE := rfl
@[simp] theorem setI_FINFO (v : Nat) : (s.setI v).FINFO = s.FINFO := rfl
@[simp] theorem setI_params (v : Nat) : (s.setI v).params = s.params := rfl
@[simp] theorem setI_inputs (v : Nat) : (s.setI v).inputs = s.inputs := rfl
@[simp] theorem setI_draws (v : Nat) : (s.setI v).draws = s.draws := rfl
@[simp] theorem setI_out (v : Nat) : (s.setI v).out = s.out := rfl
@[simp] theorem setI_getV (v : Nat) (r : Nibble) : (s.setI v).getV r = s.getV r := rfl
@[simp] theorem setI_key (v : Nat) (j : Nibble) : (s.setI v).key j = s.key j := rfl
@[simp] theorem setI_byteAt (v : Nat) (m : Nat) : (s.setI v).byteAt m = s.byteAt m := rfl
@[simp] theorem setI_tickInputs (v : Nat) : (s.setI v).tickInputs = s.tickInputs := rfl

/-! ### setPc -/

@[simp] theorem setPc_V (v : Nat) : (s.setPc v).V = s.V := rfl
@[simp] theorem setPc_I (v : Nat) : (s.setPc v).I = s.I := rfl
@[simp] theorem setPc_pc (v : Nat) : (s.setPc v).pc = BitVec.ofNat 12 v := rfl
@[simp] theorem setPc_SP (v : Nat) : (s.setPc v).SP = s.SP := rfl
@[simp] theorem setPc_DT (v : Nat) : (s.setPc v).DT = s.DT := rfl
@[simp] theorem setPc_ST (v : Nat) : (s.setPc v).ST = s.ST := rfl
@[simp] theorem setPc_MEM (v : Nat) : (s.setPc v).MEM = s.MEM := rfl
@[simp] theorem setPc_FB (v : Nat) : (s.setPc v).FB = s.FB := rfl
@[simp] theorem setPc_K (v : Nat) : (s.setPc v).K = s.K := rfl
@[simp] theorem setPc_MODE (v : Nat) : (s.setPc v).MODE = s.MODE := rfl
@[simp] theorem setPc_WAITREG (v : Nat) : (s.setPc v).WAITREG = s.WAITREG := rfl
@[simp] theorem setPc_FCAUSE (v : Nat) : (s.setPc v).FCAUSE = s.FCAUSE := rfl
@[simp] theorem setPc_FINFO (v : Nat) : (s.setPc v).FINFO = s.FINFO := rfl
@[simp] theorem setPc_params (v : Nat) : (s.setPc v).params = s.params := rfl
@[simp] theorem setPc_inputs (v : Nat) : (s.setPc v).inputs = s.inputs := rfl
@[simp] theorem setPc_draws (v : Nat) : (s.setPc v).draws = s.draws := rfl
@[simp] theorem setPc_out (v : Nat) : (s.setPc v).out = s.out := rfl
@[simp] theorem setPc_getV (v : Nat) (r : Nibble) : (s.setPc v).getV r = s.getV r := rfl
@[simp] theorem setPc_key (v : Nat) (j : Nibble) : (s.setPc v).key j = s.key j := rfl
@[simp] theorem setPc_byteAt (v : Nat) (m : Nat) : (s.setPc v).byteAt m = s.byteAt m := rfl
@[simp] theorem setPc_tickInputs (v : Nat) : (s.setPc v).tickInputs = s.tickInputs := rfl

/-! ### advance -/

@[simp] theorem advance_V (d : Nat) : (s.advance d).V = s.V := rfl
@[simp] theorem advance_I (d : Nat) : (s.advance d).I = s.I := rfl
@[simp] theorem advance_pc (d : Nat) : (s.advance d).pc = BitVec.ofNat 12 (s.pc.toNat + d) := rfl
@[simp] theorem advance_SP (d : Nat) : (s.advance d).SP = s.SP := rfl
@[simp] theorem advance_DT (d : Nat) : (s.advance d).DT = s.DT := rfl
@[simp] theorem advance_ST (d : Nat) : (s.advance d).ST = s.ST := rfl
@[simp] theorem advance_MEM (d : Nat) : (s.advance d).MEM = s.MEM := rfl
@[simp] theorem advance_FB (d : Nat) : (s.advance d).FB = s.FB := rfl
@[simp] theorem advance_K (d : Nat) : (s.advance d).K = s.K := rfl
@[simp] theorem advance_MODE (d : Nat) : (s.advance d).MODE = s.MODE := rfl
@[simp] theorem advance_WAITREG (d : Nat) : (s.advance d).WAITREG = s.WAITREG := rfl
@[simp] theorem advance_FCAUSE (d : Nat) : (s.advance d).FCAUSE = s.FCAUSE := rfl
@[simp] theorem advance_FINFO (d : Nat) : (s.advance d).FINFO = s.FINFO := rfl
@[simp] theorem advance_params (d : Nat) : (s.advance d).params = s.params := rfl
@[simp] theorem advance_inputs (d : Nat) : (s.advance d).inputs = s.inputs := rfl
@[simp] theorem advance_draws (d : Nat) : (s.advance d).draws = s.draws := rfl
@[simp] theorem advance_out (d : Nat) : (s.advance d).out = s.out := rfl
@[simp] theorem advance_getV (d : Nat) (r : Nibble) : (s.advance d).getV r = s.getV r := rfl
@[simp] theorem advance_key (d : Nat) (j : Nibble) : (s.advance d).key j = s.key j := rfl
@[simp] theorem advance_byteAt (d : Nat) (m : Nat) : (s.advance d).byteAt m = s.byteAt m := rfl
@[simp] theorem advance_tickInputs (d : Nat) : (s.advance d).tickInputs = s.tickInputs := rfl

/-! ### setKey -/

@[simp] theorem setKey_V (k : Nibble) (p : Bool) : (s.setKey k p).V = s.V := rfl
@[simp] theorem setKey_I (k : Nibble) (p : Bool) : (s.setKey k p).I = s.I := rfl
@[simp] theorem setKey_pc (k : Nibble) (p : Bool) : (s.setKey k p).pc = s.pc := rfl
@[simp] theorem setKey_SP (k : Nibble) (p : Bool) : (s.setKey k p).SP = s.SP := rfl
@[simp] theorem setKey_DT (k : Nibble) (p : Bool) : (s.setKey k p).DT = s.DT := rfl
@[simp] theorem setKey_ST (k : Nibble) (p : Bool) : (s.setKey k p).ST = s.ST := rfl
@[simp] theorem setKey_MEM (k : Nibble) (p : Bool) : (s.setKey k p).MEM = s.MEM := rfl
@[simp] theorem setKey_FB (k : Nibble) (p : Bool) : (s.setKey k p).FB = s.FB := rfl
@[simp] theorem setKey_MODE (k : Nibble) (p : Bool) : (s.setKey k p).MODE = s.MODE := rfl
@[simp] theorem setKey_WAITREG (k : Nibble) (p : Bool) : (s.setKey k p).WAITREG = s.WAITREG := rfl
@[simp] theorem setKey_FCAUSE (k : Nibble) (p : Bool) : (s.setKey k p).FCAUSE = s.FCAUSE := rfl
@[simp] theorem setKey_FINFO (k : Nibble) (p : Bool) : (s.setKey k p).FINFO = s.FINFO := rfl
@[simp] theorem setKey_params (k : Nibble) (p : Bool) : (s.setKey k p).params = s.params := rfl
@[simp] theorem setKey_inputs (k : Nibble) (p : Bool) : (s.setKey k p).inputs = s.inputs := rfl
@[simp] theorem setKey_draws (k : Nibble) (p : Bool) : (s.setKey k p).draws = s.draws := rfl
@[simp] theorem setKey_out (k : Nibble) (p : Bool) : (s.setKey k p).out = s.out := rfl
@[simp] theorem setKey_getV (k : Nibble) (p : Bool) (r : Nibble) : (s.setKey k p).getV r = s.getV r := rfl
@[simp] theorem setKey_byteAt (k : Nibble) (p : Bool) (m : Nat) : (s.setKey k p).byteAt m = s.byteAt m := rfl
@[simp] theorem setKey_tickInputs (k : Nibble) (p : Bool) : (s.setKey k p).tickInputs = s.tickInputs := rfl

/-! ### setByte -/

@[simp] theorem setByte_V (a : Nat) (v : Byte) : (s.setByte a v).V = s.V := rfl
@[simp] theorem setByte_I (a : Nat) (v : Byte) : (s.setByte a v).I = s.I := rfl
@[simp] theorem setByte_pc (a : Nat) (v : Byte) : (s.setByte a v).pc = s.pc := rfl
@[simp] theorem setByte_SP (a : Nat) (v : Byte) : (s.setByte a v).SP = s.SP := rfl
@[simp] theorem setByte_DT (a : Nat) (v : Byte) : (s.setByte a v).DT = s.DT := rfl
@[simp] theorem setByte_ST (a : Nat) (v : Byte) : (s.setByte a v).ST = s.ST := rfl
@[simp] theorem setByte_MEM (a : Nat) (v : Byte) : (s.setByte a v).MEM = Memory.put s.params.font s.MEM a v := rfl
@[simp] theorem setByte_FB (a : Nat) (v : Byte) : (s.setByte a v).FB = s.FB := rfl
@[simp] theorem setByte_K (a : Nat) (v : Byte) : (s.setByte a v).K = s.K := rfl
@[simp] theorem setByte_MODE (a : Nat) (v : Byte) : (s.setByte a v).MODE = s.MODE := rfl
@[simp] theorem setByte_WAITREG (a : Nat) (v : Byte) : (s.setByte a v).WAITREG = s.WAITREG := rfl
@[simp] theorem setByte_FCAUSE (a : Nat) (v : Byte) : (s.setByte a v).FCAUSE = s.FCAUSE := rfl
@[simp] theorem setByte_FINFO (a : Nat) (v : Byte) : (s.setByte a v).FINFO = s.FINFO := rfl
@[simp] theorem setByte_params (a : Nat) (v : Byte) : (s.setByte a v).params = s.params := rfl
@[simp] theorem setByte_inputs (a : Nat) (v : Byte) : (s.setByte a v).inputs = s.inputs := rfl
@[simp] theorem setByte_draws (a : Nat) (v : Byte) : (s.setByte a v).draws = s.draws := rfl
@[simp] theorem setByte_out (a : Nat) (v : Byte) : (s.setByte a v).out = s.out := rfl
@[simp] theorem setByte_getV (a : Nat) (v : Byte) (r : Nibble) : (s.setByte a v).getV r = s.getV r := rfl
@[simp] theorem setByte_key (a : Nat) (v : Byte) (j : Nibble) : (s.setByte a v).key j = s.key j := rfl
@[simp] theorem setByte_tickInputs (a : Nat) (v : Byte) : (s.setByte a v).tickInputs = s.tickInputs := rfl

/-! ### takeFault -/

@[simp] theorem takeFault_V (c : Cause) (n : Nat) : (takeFault c n s).V = s.V := rfl
@[simp] theorem takeFault_I (c : Cause) (n : Nat) : (takeFault c n s).I = s.I := rfl
@[simp] theorem takeFault_pc (c : Cause) (n : Nat) : (takeFault c n s).pc = s.pc := rfl
@[simp] theorem takeFault_SP (c : Cause) (n : Nat) : (takeFault c n s).SP = s.SP := rfl
@[simp] theorem takeFault_DT (c : Cause) (n : Nat) : (takeFault c n s).DT = s.DT := rfl
@[simp] theorem takeFault_ST (c : Cause) (n : Nat) : (takeFault c n s).ST = s.ST := rfl
@[simp] theorem takeFault_MEM (c : Cause) (n : Nat) : (takeFault c n s).MEM = s.MEM := rfl
@[simp] theorem takeFault_FB (c : Cause) (n : Nat) : (takeFault c n s).FB = s.FB := rfl
@[simp] theorem takeFault_K (c : Cause) (n : Nat) : (takeFault c n s).K = s.K := rfl
@[simp] theorem takeFault_MODE (c : Cause) (n : Nat) : (takeFault c n s).MODE = .faulted := rfl
@[simp] theorem takeFault_WAITREG (c : Cause) (n : Nat) : (takeFault c n s).WAITREG = s.WAITREG := rfl
@[simp] theorem takeFault_FCAUSE (c : Cause) (n : Nat) : (takeFault c n s).FCAUSE = some c := rfl
@[simp] theorem takeFault_FINFO (c : Cause) (n : Nat) : (takeFault c n s).FINFO = BitVec.ofNat 16 n := rfl
@[simp] theorem takeFault_params (c : Cause) (n : Nat) : (takeFault c n s).params = s.params := rfl
@[simp] theorem takeFault_inputs (c : Cause) (n : Nat) : (takeFault c n s).inputs = s.inputs := rfl
@[simp] theorem takeFault_draws (c : Cause) (n : Nat) : (takeFault c n s).draws = s.draws := rfl
@[simp] theorem takeFault_out (c : Cause) (n : Nat) : (takeFault c n s).out = { s.out with fault := some (c, BitVec.ofNat 16 n) } := rfl
@[simp] theorem takeFault_getV (c : Cause) (n : Nat) (r : Nibble) : (takeFault c n s).getV r = s.getV r := rfl
@[simp] theorem takeFault_key (c : Cause) (n : Nat) (j : Nibble) : (takeFault c n s).key j = s.key j := rfl
@[simp] theorem takeFault_byteAt (c : Cause) (n : Nat) (m : Nat) : (takeFault c n s).byteAt m = s.byteAt m := rfl
@[simp] theorem takeFault_tickInputs (c : Cause) (n : Nat) : (takeFault c n s).tickInputs = s.tickInputs := rfl

/-! ### emitRefresh -/

@[simp] theorem emitRefresh_V : (emitRefresh s).V = s.V := rfl
@[simp] theorem emitRefresh_I : (emitRefresh s).I = s.I := rfl
@[simp] theorem emitRefresh_pc : (emitRefresh s).pc = s.pc := rfl
@[simp] theorem emitRefresh_SP : (emitRefresh s).SP = s.SP := rfl
@[simp] theorem emitRefresh_DT : (emitRefresh s).DT = s.DT := rfl
@[simp] theorem emitRefresh_ST : (emitRefresh s).ST = s.ST := rfl
@[simp] theorem emitRefresh_MEM : (emitRefresh s).MEM = s.MEM := rfl
@[simp] theorem emitRefresh_FB : (emitRefresh s).FB = s.FB := rfl
@[simp] theorem emitRefresh_K : (emitRefresh s).K = s.K := rfl
@[simp] theorem emitRefresh_MODE : (emitRefresh s).MODE = s.MODE := rfl
@[simp] theorem emitRefresh_WAITREG : (emitRefresh s).WAITREG = s.WAITREG := rfl
@[simp] theorem emitRefresh_FCAUSE : (emitRefresh s).FCAUSE = s.FCAUSE := rfl
@[simp] theorem emitRefresh_FINFO : (emitRefresh s).FINFO = s.FINFO := rfl
@[simp] theorem emitRefresh_params : (emitRefresh s).params = s.params := rfl
@[simp] theorem emitRefresh_inputs : (emitRefresh s).inputs = s.inputs := rfl
@[simp] theorem emitRefresh_draws : (emitRefresh s).draws = s.draws := rfl
@[simp] theorem emitRefresh_out : (emitRefresh s).out = { s.out with refresh := true } := rfl
@[simp] theorem emitRefresh_getV (r : Nibble) : (emitRefresh s).getV r = s.getV r := rfl
@[simp] theorem emitRefresh_key (j : Nibble) : (emitRefresh s).key j = s.key j := rfl
@[simp] theorem emitRefresh_byteAt (m : Nat) : (emitRefresh s).byteAt m = s.byteAt m := rfl
@[simp] theorem emitRefresh_tickInputs : (emitRefresh s).tickInputs = s.tickInputs := rfl

/-! ### emitBeep -/

@[simp] theorem emitBeep_V : (emitBeep s).V = s.V := rfl
@[simp] theorem emitBeep_I : (emitBeep s).I = s.I := rfl
@[simp] theorem emitBeep_pc : (emitBeep s).pc = s.pc := rfl
@[simp] theorem emitBeep_SP : (emitBeep s).SP = s.SP := rfl
@[simp] theorem emitBeep_DT : (emitBeep s).DT = s.DT := rfl
@[simp] theorem emitBeep_ST : (emitBeep s).ST = s.ST := rfl
@[simp] theorem emitBeep_MEM : (emitBeep s).MEM = s.MEM := rfl
@[simp] theorem emitBeep_FB : (emitBeep s).FB = s.FB := rfl
@[simp] theorem emitBeep_K : (emitBeep s).K = s.K := rfl
@[simp] theorem emitBeep_MODE : (emitBeep s).MODE = s.MODE := rfl
@[simp] theorem emitBeep_WAITREG : (emitBeep s).WAITREG = s.WAITREG := rfl
@[simp] theorem emitBeep_FCAUSE : (emitBeep s).FCAUSE = s.FCAUSE := rfl
@[simp] theorem emitBeep_FINFO : (emitBeep s).FINFO = s.FINFO := rfl
@[simp] theorem emitBeep_params : (emitBeep s).params = s.params := rfl
@[simp] theorem emitBeep_inputs : (emitBeep s).inputs = s.inputs := rfl
@[simp] theorem emitBeep_draws : (emitBeep s).draws = s.draws := rfl
@[simp] theorem emitBeep_out : (emitBeep s).out = { s.out with beep := true } := rfl
@[simp] theorem emitBeep_getV (r : Nibble) : (emitBeep s).getV r = s.getV r := rfl
@[simp] theorem emitBeep_key (j : Nibble) : (emitBeep s).key j = s.key j := rfl
@[simp] theorem emitBeep_byteAt (m : Nat) : (emitBeep s).byteAt m = s.byteAt m := rfl
@[simp] theorem emitBeep_tickInputs : (emitBeep s).tickInputs = s.tickInputs := rfl

/-! ### rejectWrite -/

@[simp] theorem rejectWrite_V : (rejectWrite s).V = s.V := rfl
@[simp] theorem rejectWrite_I : (rejectWrite s).I = s.I := rfl
@[simp] theorem rejectWrite_pc : (rejectWrite s).pc = s.pc := rfl
@[simp] theorem rejectWrite_SP : (rejectWrite s).SP = s.SP := rfl
@[simp] theorem rejectWrite_DT : (rejectWrite s).DT = s.DT := rfl
@[simp] theorem rejectWrite_ST : (rejectWrite s).ST = s.ST := rfl
@[simp] theorem rejectWrite_MEM : (rejectWrite s).MEM = s.MEM := rfl
@[simp] theorem rejectWrite_FB : (rejectWrite s).FB = s.FB := rfl
@[simp] theorem rejectWrite_K : (rejectWrite s).K = s.K := rfl
@[simp] theorem rejectWrite_MODE : (rejectWrite s).MODE = s.MODE := rfl
@[simp] theorem rejectWrite_WAITREG : (rejectWrite s).WAITREG = s.WAITREG := rfl
@[simp] theorem rejectWrite_FCAUSE : (rejectWrite s).FCAUSE = s.FCAUSE := rfl
@[simp] theorem rejectWrite_FINFO : (rejectWrite s).FINFO = s.FINFO := rfl
@[simp] theorem rejectWrite_params : (rejectWrite s).params = s.params := rfl
@[simp] theorem rejectWrite_inputs : (rejectWrite s).inputs = s.inputs := rfl
@[simp] theorem rejectWrite_draws : (rejectWrite s).draws = s.draws := rfl
@[simp] theorem rejectWrite_out : (rejectWrite s).out = { s.out with errorReply := true } := rfl
@[simp] theorem rejectWrite_getV (r : Nibble) : (rejectWrite s).getV r = s.getV r := rfl
@[simp] theorem rejectWrite_key (j : Nibble) : (rejectWrite s).key j = s.key j := rfl
@[simp] theorem rejectWrite_byteAt (m : Nat) : (rejectWrite s).byteAt m = s.byteAt m := rfl
@[simp] theorem rejectWrite_tickInputs : (rejectWrite s).tickInputs = s.tickInputs := rfl

/-! ### clearOutputs -/

@[simp] theorem clearOutputs_V : (clearOutputs s).V = s.V := rfl
@[simp] theorem clearOutputs_I : (clearOutputs s).I = s.I := rfl
@[simp] theorem clearOutputs_pc : (clearOutputs s).pc = s.pc := rfl
@[simp] theorem clearOutputs_SP : (clearOutputs s).SP = s.SP := rfl
@[simp] theorem clearOutputs_DT : (clearOutputs s).DT = s.DT := rfl
@[simp] theorem clearOutputs_ST : (clearOutputs s).ST = s.ST := rfl
@[simp] theorem clearOutputs_MEM : (clearOutputs s).MEM = s.MEM := rfl
@[simp] theorem clearOutputs_FB : (clearOutputs s).FB = s.FB := rfl
@[simp] theorem clearOutputs_K : (clearOutputs s).K = s.K := rfl
@[simp] theorem clearOutputs_MODE : (clearOutputs s).MODE = s.MODE := rfl
@[simp] theorem clearOutputs_WAITREG : (clearOutputs s).WAITREG = s.WAITREG := rfl
@[simp] theorem clearOutputs_FCAUSE : (clearOutputs s).FCAUSE = s.FCAUSE := rfl
@[simp] theorem clearOutputs_FINFO : (clearOutputs s).FINFO = s.FINFO := rfl
@[simp] theorem clearOutputs_params : (clearOutputs s).params = s.params := rfl
@[simp] theorem clearOutputs_inputs : (clearOutputs s).inputs = s.inputs := rfl
@[simp] theorem clearOutputs_draws : (clearOutputs s).draws = s.draws := rfl
@[simp] theorem clearOutputs_out : (clearOutputs s).out = {} := rfl
@[simp] theorem clearOutputs_getV (r : Nibble) : (clearOutputs s).getV r = s.getV r := rfl
@[simp] theorem clearOutputs_key (j : Nibble) : (clearOutputs s).key j = s.key j := rfl
@[simp] theorem clearOutputs_byteAt (m : Nat) : (clearOutputs s).byteAt m = s.byteAt m := rfl
@[simp] theorem clearOutputs_tickInputs : (clearOutputs s).tickInputs = s.tickInputs := rfl

/-! ### clearDisplay -/

@[simp] theorem clearDisplay_V : (clearDisplay s).V = s.V := rfl
@[simp] theorem clearDisplay_I : (clearDisplay s).I = s.I := rfl
@[simp] theorem clearDisplay_pc : (clearDisplay s).pc = s.pc := rfl
@[simp] theorem clearDisplay_SP : (clearDisplay s).SP = s.SP := rfl
@[simp] theorem clearDisplay_DT : (clearDisplay s).DT = s.DT := rfl
@[simp] theorem clearDisplay_ST : (clearDisplay s).ST = s.ST := rfl
@[simp] theorem clearDisplay_MEM : (clearDisplay s).MEM = s.MEM := rfl
@[simp] theorem clearDisplay_FB : (clearDisplay s).FB = Framebuffer.cleared := rfl
@[simp] theorem clearDisplay_K : (clearDisplay s).K = s.K := rfl
@[simp] theorem clearDisplay_MODE : (clearDisplay s).MODE = s.MODE := rfl
@[simp] theorem clearDisplay_WAITREG : (clearDisplay s).WAITREG = s.WAITREG := rfl
@[simp] theorem clearDisplay_FCAUSE : (clearDisplay s).FCAUSE = s.FCAUSE := rfl
@[simp] theorem clearDisplay_FINFO : (clearDisplay s).FINFO = s.FINFO := rfl
@[simp] theorem clearDisplay_params : (clearDisplay s).params = s.params := rfl
@[simp] theorem clearDisplay_inputs : (clearDisplay s).inputs = s.inputs := rfl
@[simp] theorem clearDisplay_draws : (clearDisplay s).draws = s.draws := rfl
@[simp] theorem clearDisplay_out : (clearDisplay s).out = { s.out with refresh := true } := rfl
@[simp] theorem clearDisplay_getV (r : Nibble) : (clearDisplay s).getV r = s.getV r := rfl
@[simp] theorem clearDisplay_key (j : Nibble) : (clearDisplay s).key j = s.key j := rfl
@[simp] theorem clearDisplay_byteAt (m : Nat) : (clearDisplay s).byteAt m = s.byteAt m := rfl
@[simp] theorem clearDisplay_tickInputs : (clearDisplay s).tickInputs = s.tickInputs := rfl

/-! ### resetState -/

@[simp] theorem resetState_V : (resetState s).V = Vector.replicate 16 0x00#8 := rfl
@[simp] theorem resetState_I : (resetState s).I = 0x0000#16 := rfl
@[simp] theorem resetState_pc : (resetState s).pc = 0x200#12 := rfl
@[simp] theorem resetState_SP : (resetState s).SP = s.params.stackBase.val := rfl
@[simp] theorem resetState_DT : (resetState s).DT = 0x00#8 := rfl
@[simp] theorem resetState_ST : (resetState s).ST = 0x00#8 := rfl
@[simp] theorem resetState_MEM : (resetState s).MEM = s.MEM := rfl
@[simp] theorem resetState_FB : (resetState s).FB = Framebuffer.cleared := rfl
@[simp] theorem resetState_K : (resetState s).K = s.K := rfl
@[simp] theorem resetState_MODE : (resetState s).MODE = .running := rfl
@[simp] theorem resetState_WAITREG : (resetState s).WAITREG = 0x0#4 := rfl
@[simp] theorem resetState_FCAUSE : (resetState s).FCAUSE = none := rfl
@[simp] theorem resetState_FINFO : (resetState s).FINFO = 0x0000#16 := rfl
@[simp] theorem resetState_params : (resetState s).params = s.params := rfl
@[simp] theorem resetState_inputs : (resetState s).inputs = s.inputs := rfl
@[simp] theorem resetState_draws : (resetState s).draws = s.draws := rfl
@[simp] theorem resetState_out : (resetState s).out = { s.out with refresh := true } := rfl
@[simp] theorem resetState_key (j : Nibble) : (resetState s).key j = s.key j := rfl
@[simp] theorem resetState_byteAt (m : Nat) : (resetState s).byteAt m = s.byteAt m := rfl
@[simp] theorem resetState_tickInputs : (resetState s).tickInputs = s.tickInputs := rfl

/-! ### delayTimerPhase -/

@[simp] theorem delayTimerPhase_V : (delayTimerPhase s).V = s.V := by unfold delayTimerPhase; split <;> rfl
@[simp] theorem delayTimerPhase_I : (delayTimerPhase s).I = s.I := by unfold delayTimerPhase; split <;> rfl
@[simp] theorem delayTimerPhase_pc : (delayTimerPhase s).pc = s.pc := by unfold delayTimerPhase; split <;> rfl
@[simp] theorem delayTimerPhase_SP : (delayTimerPhase s).SP = s.SP := by unfold delayTimerPhase; split <;> rfl
@[simp] theorem delayTimerPhase_ST : (delayTimerPhase s).ST = s.ST := by unfold delayTimerPhase; split <;> rfl
@[simp] theorem delayTimerPhase_MEM : (delayTimerPhase s).MEM = s.MEM := by unfold delayTimerPhase; split <;> rfl
@[simp] theorem delayTimerPhase_FB : (delayTimerPhase s).FB = s.FB := by unfold delayTimerPhase; split <;> rfl
@[simp] theorem delayTimerPhase_K : (delayTimerPhase s).K = s.K := by unfold delayTimerPhase; split <;> rfl
@[simp] theorem delayTimerPhase_MODE : (delayTimerPhase s).MODE = s.MODE := by unfold delayTimerPhase; split <;> rfl
@[simp] theorem delayTimerPhase_WAITREG : (delayTimerPhase s).WAITREG = s.WAITREG := by unfold delayTimerPhase; split <;> rfl
@[simp] theorem delayTimerPhase_FCAUSE : (delayTimerPhase s).FCAUSE = s.FCAUSE := by unfold delayTimerPhase; split <;> rfl
@[simp] theorem delayTimerPhase_FINFO : (delayTimerPhase s).FINFO = s.FINFO := by unfold delayTimerPhase; split <;> rfl
@[simp] theorem delayTimerPhase_params : (delayTimerPhase s).params = s.params := by unfold delayTimerPhase; split <;> rfl
@[simp] theorem delayTimerPhase_inputs : (delayTimerPhase s).inputs = s.inputs := by unfold delayTimerPhase; split <;> rfl
@[simp] theorem delayTimerPhase_draws : (delayTimerPhase s).draws = s.draws := by unfold delayTimerPhase; split <;> rfl
@[simp] theorem delayTimerPhase_out : (delayTimerPhase s).out = s.out := by unfold delayTimerPhase; split <;> rfl
@[simp] theorem delayTimerPhase_getV (r : Nibble) : (delayTimerPhase s).getV r = s.getV r := by unfold delayTimerPhase; split <;> rfl
@[simp] theorem delayTimerPhase_key (j : Nibble) : (delayTimerPhase s).key j = s.key j := by unfold delayTimerPhase; split <;> rfl
@[simp] theorem delayTimerPhase_byteAt (m : Nat) : (delayTimerPhase s).byteAt m = s.byteAt m := by unfold delayTimerPhase; split <;> rfl
@[simp] theorem delayTimerPhase_tickInputs : (delayTimerPhase s).tickInputs = s.tickInputs := by unfold delayTimerPhase; split <;> rfl

/-! ### soundTimerPhase -/

@[simp] theorem soundTimerPhase_V : (soundTimerPhase s).V = s.V := by unfold soundTimerPhase; split <;> rfl
@[simp] theorem soundTimerPhase_I : (soundTimerPhase s).I = s.I := by unfold soundTimerPhase; split <;> rfl
@[simp] theorem soundTimerPhase_pc : (soundTimerPhase s).pc = s.pc := by unfold soundTimerPhase; split <;> rfl
@[simp] theorem soundTimerPhase_SP : (soundTimerPhase s).SP = s.SP := by unfold soundTimerPhase; split <;> rfl
@[simp] theorem soundTimerPhase_DT : (soundTimerPhase s).DT = s.DT := by unfold soundTimerPhase; split <;> rfl
@[simp] theorem soundTimerPhase_MEM : (soundTimerPhase s).MEM = s.MEM := by unfold soundTimerPhase; split <;> rfl
@[simp] theorem soundTimerPhase_FB : (soundTimerPhase s).FB = s.FB := by unfold soundTimerPhase; split <;> rfl
@[simp] theorem soundTimerPhase_K : (soundTimerPhase s).K = s.K := by unfold soundTimerPhase; split <;> rfl
@[simp] theorem soundTimerPhase_MODE : (soundTimerPhase s).MODE = s.MODE := by unfold soundTimerPhase; split <;> rfl
@[simp] theorem soundTimerPhase_WAITREG : (soundTimerPhase s).WAITREG = s.WAITREG := by unfold soundTimerPhase; split <;> rfl
@[simp] theorem soundTimerPhase_FCAUSE : (soundTimerPhase s).FCAUSE = s.FCAUSE := by unfold soundTimerPhase; split <;> rfl
@[simp] theorem soundTimerPhase_FINFO : (soundTimerPhase s).FINFO = s.FINFO := by unfold soundTimerPhase; split <;> rfl
@[simp] theorem soundTimerPhase_params : (soundTimerPhase s).params = s.params := by unfold soundTimerPhase; split <;> rfl
@[simp] theorem soundTimerPhase_inputs : (soundTimerPhase s).inputs = s.inputs := by unfold soundTimerPhase; split <;> rfl
@[simp] theorem soundTimerPhase_draws : (soundTimerPhase s).draws = s.draws := by unfold soundTimerPhase; split <;> rfl
@[simp] theorem soundTimerPhase_getV (r : Nibble) : (soundTimerPhase s).getV r = s.getV r := by unfold soundTimerPhase; split <;> rfl
@[simp] theorem soundTimerPhase_key (j : Nibble) : (soundTimerPhase s).key j = s.key j := by unfold soundTimerPhase; split <;> rfl
@[simp] theorem soundTimerPhase_byteAt (m : Nat) : (soundTimerPhase s).byteAt m = s.byteAt m := by unfold soundTimerPhase; split <;> rfl
@[simp] theorem soundTimerPhase_tickInputs : (soundTimerPhase s).tickInputs = s.tickInputs := by unfold soundTimerPhase; split <;> rfl

/-! ### spendInputs -/

@[simp] theorem spendInputs_V : (spendInputs s).V = s.V := by unfold spendInputs; split <;> rfl
@[simp] theorem spendInputs_I : (spendInputs s).I = s.I := by unfold spendInputs; split <;> rfl
@[simp] theorem spendInputs_pc : (spendInputs s).pc = s.pc := by unfold spendInputs; split <;> rfl
@[simp] theorem spendInputs_SP : (spendInputs s).SP = s.SP := by unfold spendInputs; split <;> rfl
@[simp] theorem spendInputs_DT : (spendInputs s).DT = s.DT := by unfold spendInputs; split <;> rfl
@[simp] theorem spendInputs_ST : (spendInputs s).ST = s.ST := by unfold spendInputs; split <;> rfl
@[simp] theorem spendInputs_MEM : (spendInputs s).MEM = s.MEM := by unfold spendInputs; split <;> rfl
@[simp] theorem spendInputs_FB : (spendInputs s).FB = s.FB := by unfold spendInputs; split <;> rfl
@[simp] theorem spendInputs_K : (spendInputs s).K = s.K := by unfold spendInputs; split <;> rfl
@[simp] theorem spendInputs_MODE : (spendInputs s).MODE = s.MODE := by unfold spendInputs; split <;> rfl
@[simp] theorem spendInputs_WAITREG : (spendInputs s).WAITREG = s.WAITREG := by unfold spendInputs; split <;> rfl
@[simp] theorem spendInputs_FCAUSE : (spendInputs s).FCAUSE = s.FCAUSE := by unfold spendInputs; split <;> rfl
@[simp] theorem spendInputs_FINFO : (spendInputs s).FINFO = s.FINFO := by unfold spendInputs; split <;> rfl
@[simp] theorem spendInputs_params : (spendInputs s).params = s.params := by unfold spendInputs; split <;> rfl
@[simp] theorem spendInputs_out : (spendInputs s).out = s.out := by unfold spendInputs; split <;> rfl
@[simp] theorem spendInputs_getV (r : Nibble) : (spendInputs s).getV r = s.getV r := by unfold spendInputs; split <;> rfl
@[simp] theorem spendInputs_key (j : Nibble) : (spendInputs s).key j = s.key j := by unfold spendInputs; split <;> rfl
@[simp] theorem spendInputs_byteAt (m : Nat) : (spendInputs s).byteAt m = s.byteAt m := by unfold spendInputs; split <;> rfl

/-! ### timerPhase -/

@[simp] theorem timerPhase_V : (timerPhase s).V = s.V := by simp [timerPhase]
@[simp] theorem timerPhase_I : (timerPhase s).I = s.I := by simp [timerPhase]
@[simp] theorem timerPhase_pc : (timerPhase s).pc = s.pc := by simp [timerPhase]
@[simp] theorem timerPhase_SP : (timerPhase s).SP = s.SP := by simp [timerPhase]
@[simp] theorem timerPhase_MEM : (timerPhase s).MEM = s.MEM := by simp [timerPhase]
@[simp] theorem timerPhase_FB : (timerPhase s).FB = s.FB := by simp [timerPhase]
@[simp] theorem timerPhase_K : (timerPhase s).K = s.K := by simp [timerPhase]
@[simp] theorem timerPhase_MODE : (timerPhase s).MODE = s.MODE := by simp [timerPhase]
@[simp] theorem timerPhase_WAITREG : (timerPhase s).WAITREG = s.WAITREG := by simp [timerPhase]
@[simp] theorem timerPhase_FCAUSE : (timerPhase s).FCAUSE = s.FCAUSE := by simp [timerPhase]
@[simp] theorem timerPhase_FINFO : (timerPhase s).FINFO = s.FINFO := by simp [timerPhase]
@[simp] theorem timerPhase_params : (timerPhase s).params = s.params := by simp [timerPhase]
@[simp] theorem timerPhase_inputs : (timerPhase s).inputs = s.inputs := by simp [timerPhase]
@[simp] theorem timerPhase_draws : (timerPhase s).draws = s.draws := by simp [timerPhase]
@[simp] theorem timerPhase_getV (r : Nibble) : (timerPhase s).getV r = s.getV r := by simp [timerPhase]
@[simp] theorem timerPhase_key (j : Nibble) : (timerPhase s).key j = s.key j := by simp [timerPhase]
@[simp] theorem timerPhase_byteAt (m : Nat) : (timerPhase s).byteAt m = s.byteAt m := by simp [timerPhase]

/-! ### Registers and keys: the value written is read back, the others stay -/

@[simp] theorem getV_setV_same (x : Nibble) (v : Byte) : (s.setV x v).getV x = v := by
  simp [State.getV, State.setV]

theorem getV_setV (x r : Nibble) (v : Byte) : (s.setV x v).getV r = if r = x then v else s.getV r := by
  by_cases h : r = x
  · subst h; simp
  · have hn : x.toNat ≠ r.toNat := fun e => h (BitVec.eq_of_toNat_eq e.symm)
    simp [State.getV, State.setV, h, hn]

@[simp] theorem getV_setV_ne {x r : Nibble} (h : r ≠ x) (v : Byte) : (s.setV x v).getV r = s.getV r := by
  simp [getV_setV, h]

@[simp] theorem getV_setVF_same (v : Byte) : (s.setVF v).getV 0xF#4 = v := getV_setV_same s _ v

theorem getV_setVF (r : Nibble) (v : Byte) : (s.setVF v).getV r = if r = 0xF#4 then v else s.getV r :=
  getV_setV s 0xF#4 r v

@[simp] theorem key_setKey_same (k : Nibble) (p : Bool) : (s.setKey k p).key k = p := by
  simp [State.key, State.setKey]

@[simp] theorem key_setKey_ne {k j : Nibble} (h : j ≠ k) (p : Bool) : (s.setKey k p).key j = s.key j := by
  have hn : k.toNat ≠ j.toNat := fun e => h (BitVec.eq_of_toNat_eq e.symm)
  simp [State.key, State.setKey, hn]

@[simp] theorem resetState_getV (r : Nibble) : (resetState s).getV r = 0x00#8 := by
  simp [State.getV]

@[simp] theorem powerOn_getV (p : Config.Params) (r : Nibble) : (State.powerOn p).getV r = 0x00#8 := by
  simp [State.getV, State.powerOn]

@[simp] theorem powerOn_key (p : Config.Params) (k : Nibble) : (State.powerOn p).key k = false := by
  simp [State.key, State.powerOn]

/-- Reset on the power-on state changes nothing: `State.powerOn` and `resetState` name the same values (R31). -/
theorem resetState_powerOn (p : Config.Params) : resetState (State.powerOn p) = State.powerOn p := rfl

/-! ### The framebuffer -/

@[simp] theorem pixel_cleared (x y : Nat) : Framebuffer.pixel Framebuffer.cleared x y = false := by
  simp [Framebuffer.pixel, Framebuffer.cleared]

/-- A toggle changes its own pixel, if it is inside the grid, and no other (R162). -/
theorem pixel_toggle (fb : Framebuffer) (x y px py : Nat) :
    Framebuffer.pixel (Framebuffer.toggle fb x y) px py =
      (Framebuffer.pixel fb px py ^^ decide (x = px ∧ y = py ∧ x < 64 ∧ y < 32)) := by
  unfold Framebuffer.pixel Framebuffer.toggle
  by_cases h : px < 64 ∧ py < 32
  · by_cases h' : x < 64 ∧ y < 32
    · by_cases hy : y = py
      · subst hy
        by_cases hx : x = px
        · subst hx; simp [h]
        · simp [h, h', hx]
      · simp [h, h', hy]
    · have : ¬(x = px ∧ y = py ∧ x < 64 ∧ y < 32) := fun ⟨_, _, a, b⟩ => h' ⟨a, b⟩
      simp [h, h']
  · have : ¬(x = px ∧ y = py ∧ x < 64 ∧ y < 32) := by rintro ⟨rfl, rfl, a, b⟩; exact h ⟨a, b⟩
    simp [h, this]

/-- Two framebuffers with the same pixels are the same. -/
theorem framebuffer_ext {fb gb : Framebuffer}
    (h : ∀ x y, x < 64 → y < 32 → Framebuffer.pixel fb x y = Framebuffer.pixel gb x y) : fb = gb := by
  refine Vector.ext fun y hy => Vector.ext fun x hx => ?_
  have := h x y hx hy
  simpa [Framebuffer.pixel, hx, hy] using this

end Sys2Proof.Machine
end

