-- ==== Sys2Proof/Laws/Memory.lean ====
section
/-! SUPPORT. The laws of memory: a write is read back and leaves every other cell (R46, R47), and every operation keeps the
canonical form. -/

namespace Sys2Proof.Machine

variable (font : Vector (Vector Byte 5) 16)

theorem find?_insert (m : Memory) (a b : Nat) (v : Byte) :
    Memory.find? (Memory.insert m a v) b = if b = a then some v else Memory.find? m b := by
  induction m with
  | nil => simp [Memory.insert, Memory.find?, eq_comm]
  | cons c m ih =>
    obtain ⟨k, w⟩ := c
    simp only [Memory.insert]
    split_ifs with h1 h2 h3 h3 <;> simp_all [Memory.find?] <;> grind

theorem find?_erase (m : Memory) (a b : Nat) :
    Memory.find? (Memory.erase m a) b = if b = a then none else Memory.find? m b := by
  induction m with
  | nil => simp [Memory.erase, Memory.find?]
  | cons c m ih =>
    obtain ⟨k, w⟩ := c
    simp only [Memory.erase]
    split_ifs <;> simp_all [Memory.find?] <;> grind

/-- Reading after a write (R46, R47): the cell written gives the value, every other cell what it gave. -/
theorem get_put (m : Memory) (a b : Nat) (v : Byte) :
    Memory.get font (Memory.put font m a v) b = if b = a then v else Memory.get font m b := by
  unfold Memory.get Memory.put
  by_cases hv : v = Memory.unlisted font a
  · by_cases hb : b = a <;> simp [hv, hb, find?_erase]
  · by_cases hb : b = a <;> simp [hv, hb, find?_insert]

@[simp] theorem get_nil (a : Nat) : Memory.get font [] a = Memory.unlisted font a := rfl

theorem risesFrom_mono {m : Memory} {a b : Nat} (hab : a ≤ b) (h : Memory.risesFrom b m = true) :
    Memory.risesFrom a m = true := by
  cases m with
  | nil => rfl
  | cons c m => obtain ⟨k, w⟩ := c; simp_all [Memory.risesFrom]; omega

theorem risesFrom_insert {m : Memory} {a b : Nat} {v : Byte} (hb : b ≤ a) (h : Memory.risesFrom b m = true) :
    Memory.risesFrom b (Memory.insert m a v) = true := by
  induction m generalizing b with
  | nil => simp [Memory.insert, Memory.risesFrom, hb]
  | cons c m ih =>
    obtain ⟨k, w⟩ := c
    simp only [Memory.risesFrom, Bool.and_eq_true, decide_eq_true_eq] at h
    simp only [Memory.insert]
    split_ifs with h1 h2
    · simp [Memory.risesFrom, hb, h.2]; omega
    · subst h2; simp [Memory.risesFrom, h]
    · simp [Memory.risesFrom, h.1, ih (b := k + 1) (by omega) h.2]

theorem risesFrom_erase {m : Memory} {a b : Nat} (h : Memory.risesFrom b m = true) :
    Memory.risesFrom b (Memory.erase m a) = true := by
  induction m generalizing b with
  | nil => rfl
  | cons c m ih =>
    obtain ⟨k, w⟩ := c
    simp only [Memory.risesFrom, Bool.and_eq_true, decide_eq_true_eq] at h
    simp only [Memory.erase]
    split_ifs with h1
    · exact risesFrom_mono (by omega) (ih h.2)
    · simp [Memory.risesFrom, h.1, ih h.2]

theorem mem_insert {m : Memory} {a : Nat} {v : Byte} {c : Host.Cell} (h : c ∈ Memory.insert m a v) :
    c = (a, v) ∨ c ∈ m := by
  induction m with
  | nil => simp [Memory.insert] at h; exact .inl h
  | cons d m ih =>
    obtain ⟨k, w⟩ := d
    simp only [Memory.insert] at h
    split_ifs at h <;> simp_all <;> grind

theorem mem_erase {m : Memory} {a : Nat} {c : Host.Cell} (h : c ∈ Memory.erase m a) : c ∈ m := by
  induction m with
  | nil => simp [Memory.erase] at h
  | cons d m ih =>
    obtain ⟨k, w⟩ := d
    simp only [Memory.erase] at h
    split_ifs at h <;> simp_all <;> grind

/-- Reset memory, nothing listed, is canonical. -/
theorem wf_nil : Memory.wf font [] = true := rfl

/-- A write inside the address space keeps the canonical form. -/
theorem wf_put {m : Memory} {a : Nat} {v : Byte} (ha : a < 4096) (h : Memory.wf font m = true) :
    Memory.wf font (Memory.put font m a v) = true := by
  simp only [Memory.wf, Bool.and_eq_true, List.all_eq_true, bne_iff_ne, Config.memSize] at h ⊢
  unfold Memory.put
  split_ifs with hv
  · exact ⟨risesFrom_erase h.1, fun c hc => h.2 c (mem_erase hc)⟩
  · refine ⟨risesFrom_insert (Nat.zero_le _) h.1, fun c hc => ?_⟩
    rcases mem_insert hc with rfl | hc
    · exact ⟨decide_eq_true ha, hv⟩
    · exact h.2 c hc

/-- The power-on contents of a cell (R32): `FONT` in the font table, zero above it. -/
theorem unlisted_above {a : Nat} (h : 0x50 ≤ a) : Memory.unlisted font a = 0x00#8 := by
  have : ¬a < 80 := by omega
  simp [Memory.unlisted, Config.fontBytes, this]

theorem unlisted_font {d r : Nat} (hd : d < 16) (hr : r < 5) : Memory.unlisted font (5 * d + r) = (font[d])[r] := by
  have h1 : (5 * d + r) / 5 = d := by omega
  have h2 : (5 * d + r) % 5 = r := by omega
  have h3 : 5 * d + r < 80 := by omega
  simp [Memory.unlisted, Config.fontBytes, fontByte, h1, h2, h3, hd]

/-- Reading a byte after `setByte`. -/
theorem byteAt_setByte (s : State) (a b : Nat) (v : Byte) :
    (s.setByte a v).byteAt b = if b = a then v else s.byteAt b := get_put _ _ _ _ _

@[simp] theorem byteAt_setByte_same (s : State) (a : Nat) (v : Byte) : (s.setByte a v).byteAt a = v := by
  simp [byteAt_setByte]

end Sys2Proof.Machine
end

