-- ==== Sys2Proof/Laws/Ops.lean ====
section
/-! SUPPORT. One lemma per shared operation that says once everything it can do, for the proofs to cite instead of unfolding
it: the memory primitives, the block transfers, the stack, the key read, fault entry, the compositor. -/

namespace Sys2Proof.Machine

/-! ### Accesses and their conclusion -/

@[simp] theorem conclude_done {α : Type} (a : α) (s : State) (last : α → State → State) :
    conclude (.done a s) last = .next (last a s) := rfl

@[simp] theorem conclude_raised {α : Type} (c : Cause) (n : Nat) (s : State) (last : α → State → State) :
    conclude (.raised c n s) last = .next (takeFault c n s) := rfl

/-- What an instruction that may fault ends in (R92, R100). -/
theorem conclude_next {α : Type} {r : Access α} {last : α → State → State} {t : State} (h : conclude r last = .next t) :
    (∃ a s, r = .done a s ∧ t = last a s) ∨ (∃ c n s, r = .raised c n s ∧ t = takeFault c n s) := by
  cases r with
  | done a s => exact .inl ⟨a, s, rfl, by simpa using h.symm⟩
  | raised c n s => exact .inr ⟨c, n, s, rfl, by simpa using h.symm⟩

/-! ### Memory primitives -/

theorem memRead_valid (s : State) {a : Nat} (h : a < 4096) : memRead s a = .done (s.byteAt a) s := by
  simp [memRead, Config.memSize, h]

theorem memRead_invalid (s : State) {a : Nat} (h : 4096 ≤ a) : memRead s a = .raised .memBounds a s := by
  have : ¬a < 4096 := by omega
  simp [memRead, Config.memSize, this]

theorem memWrite_valid (s : State) {a : Nat} (v : Byte) (h : a < 4096) : memWrite s a v = .done () (s.setByte a v) := by
  simp [memWrite, Config.memSize, h]

theorem memWrite_invalid (s : State) {a : Nat} (v : Byte) (h : 4096 ≤ a) :
    memWrite s a v = .raised .memBounds a s := by
  have : ¬a < 4096 := by omega
  simp [memWrite, Config.memSize, this]

/-- `MemRead(a, 2)` inside the address space (R48). -/
theorem memReadWord_valid (s : State) {a : Nat} (h : a + 1 < 4096) : memReadWord s a = .done (s.wordAt a) s := by
  simp [memReadWord, memRead_valid s (show a < 4096 by omega), memRead_valid s h, State.wordAt]

/-- `MemRead(0xFFF, 2)` does not wrap (R48). -/
theorem memReadWord_top (s : State) : memReadWord s 4095 = .raised .memBounds 4096 s := by
  simp [memReadWord, memRead_valid s (show 4095 < 4096 by omega), memRead_invalid s (show 4096 ≤ 4096 by omega)]

/-- The bytes of a list put at `a` on, no address checked: what `storeBytes` leaves where it completes. -/
def setBytes : List Byte → Nat → State → State
  | [], _, s => s
  | v :: vs, a, s => setBytes vs (a + 1) (s.setByte a v)

theorem setBytes_rest (vs : List Byte) (a : Nat) (s : State) :
    setBytes vs a s = { s with MEM := (setBytes vs a s).MEM } := by
  induction vs generalizing a s with
  | nil => rfl
  | cons v vs ih => exact ih (a + 1) (s.setByte a v)

theorem byteAt_setBytes (vs : List Byte) (a b : Nat) (s : State) :
    (setBytes vs a s).byteAt b = if h : a ≤ b ∧ b - a < vs.length then vs[b - a] else s.byteAt b := by
  induction vs generalizing a s with
  | nil => simp [setBytes]
  | cons v vs ih =>
    rw [setBytes, ih, byteAt_setByte]
    by_cases h0 : b = a
    · subst h0; simp
    · by_cases h1 : a + 1 ≤ b
      · have e : b - a = (b - (a + 1)) + 1 := by omega
        have h2 : a ≤ b := by omega
        simp only [e, List.getElem_cons_succ, List.length_cons, Nat.add_lt_add_iff_right, h1, h2, h0, true_and, if_false]
      · have h2 : ¬a ≤ b := by omega
        simp [h0, h1, h2]

theorem setBytes_wf {vs : List Byte} {a : Nat} {s : State} (ha : a + vs.length ≤ 4096)
    (h : Memory.wf s.params.font s.MEM = true) : Memory.wf s.params.font (setBytes vs a s).MEM = true := by
  induction vs generalizing a s with
  | nil => exact h
  | cons v vs ih =>
    simp only [List.length_cons] at ha
    exact ih (s := s.setByte a v) (by omega) (wf_put s.params.font (by omega) h)

/-- A store of several bytes that stays inside the address space completes (R52). -/
theorem storeBytes_fits {vs : List Byte} {a : Nat} (s : State) (h : a + vs.length ≤ 4096) :
    storeBytes vs a s = .done () (setBytes vs a s) := by
  induction vs generalizing a s with
  | nil => rfl
  | cons v vs ih =>
    simp only [List.length_cons] at h
    simp [storeBytes, setBytes, memWrite_valid s v (show a < 4096 by omega), ih (a := a + 1) (s.setByte a v) (by omega)]

/-- A store that leaves the address space faults at 0x1000 with the bytes below it stored (R45, R100). -/
theorem storeBytes_raises {vs : List Byte} {a : Nat} (s : State) (ha : a ≤ 4096) (h : 4096 < a + vs.length) :
    storeBytes vs a s = .raised .memBounds 4096 (setBytes (vs.take (4096 - a)) a s) := by
  induction vs generalizing a s with
  | nil => simp at h; omega
  | cons v vs ih =>
    simp only [List.length_cons] at h
    by_cases e : a = 4096
    · subst e; simp [storeBytes, setBytes, memWrite_invalid]
    · have hs : 4096 - a = (4096 - (a + 1)) + 1 := by omega
      simp [storeBytes, setBytes, memWrite_valid s v (show a < 4096 by omega), hs,
        ih (a := a + 1) (s.setByte a v) (by omega) (by omega)]

/-- Whatever a store does, only memory differs, and only in bytes of its range inside the address space. -/
theorem storeBytes_cases (vs : List Byte) (a : Nat) (s : State) :
    ∃ m : Memory, (Memory.wf s.params.font s.MEM = true → Memory.wf s.params.font m = true) ∧
      (∀ b, (b < a ∨ a + vs.length ≤ b ∨ 4096 ≤ b) → ({ s with MEM := m } : State).byteAt b = s.byteAt b) ∧
      (storeBytes vs a s = .done () { s with MEM := m } ∨
        ∃ n, 4096 ≤ n ∧ (a ≤ 4096 → n = 4096) ∧ storeBytes vs a s = .raised .memBounds n { s with MEM := m }) := by
  by_cases h : a + vs.length ≤ 4096
  · refine ⟨(setBytes vs a s).MEM, setBytes_wf h, fun b hb => ?_, .inl ?_⟩
    · rw [← setBytes_rest, byteAt_setBytes, dif_neg (by omega)]
    · rw [← setBytes_rest]; exact storeBytes_fits s h
  · by_cases ha : a ≤ 4096
    · refine ⟨(setBytes (vs.take (4096 - a)) a s).MEM, setBytes_wf (by simp; omega), fun b hb => ?_,
        .inr ⟨4096, le_refl _, fun _ => rfl, ?_⟩⟩
      · rw [← setBytes_rest, byteAt_setBytes, dif_neg (by simp; omega)]
      · rw [← setBytes_rest]; exact storeBytes_raises s ha (by omega)
    · refine ⟨s.MEM, id, fun _ _ => rfl, ?_⟩
      cases vs with
      | nil => exact .inl rfl
      | cons v vs =>
        exact .inr ⟨a, by omega, fun h => absurd h ha, by simp [storeBytes, memWrite_invalid s v (show 4096 ≤ a by omega)]⟩

/-! ### The block load -/

/-- A load of registers inside the address space (R155). -/
theorem loadRegisters_fits {count k a : Nat} (s : State) (hk : k + count ≤ 16) (h : a + count ≤ 4096) :
    ∃ t, loadRegisters count k a s = .done () t ∧ t = { s with V := t.V } ∧
      ∀ r : Nibble, t.getV r = if k ≤ r.toNat ∧ r.toNat < k + count then s.byteAt (a + (r.toNat - k)) else s.getV r := by
  induction count generalizing k a s with
  | zero => exact ⟨s, rfl, rfl, fun r => by rw [if_neg (by omega)]⟩
  | succ count ih =>
    obtain ⟨t, h1, h2, h3⟩ := ih (s.setV (BitVec.ofNat 4 k) (s.byteAt a)) (k := k + 1) (a := a + 1) (by omega) (by omega)
    refine ⟨t, by simp [loadRegisters, memRead_valid s (show a < 4096 by omega), h1], h2, fun r => ?_⟩
    have hr : (r = BitVec.ofNat 4 k) ↔ r.toNat = k := by
      rw [← BitVec.toNat_inj, BitVec.toNat_ofNat, Nat.mod_eq_of_lt (by omega)]
    rw [h3, getV_setV, setV_byteAt]
    by_cases e : r.toNat = k
    · simp [hr, e]
    · by_cases g : k + 1 ≤ r.toNat ∧ r.toNat < k + 1 + count
      · rw [if_pos g, if_pos (by omega)]; congr 1; omega
      · rw [if_neg g, if_neg (by simpa [hr] using e), if_neg (by omega)]

/-- A load that leaves the address space: the registers of the bytes below 0x1000 are loaded, then MEM_BOUNDS. -/
theorem loadRegisters_raises {count k a : Nat} (s : State) (hk : k + count ≤ 16) (ha : a ≤ 4096) (h : 4096 < a + count) :
    ∃ t, loadRegisters count k a s = .raised .memBounds 4096 t ∧ t = { s with V := t.V } ∧
      ∀ r : Nibble, t.getV r =
        if k ≤ r.toNat ∧ r.toNat < k + (4096 - a) then s.byteAt (a + (r.toNat - k)) else s.getV r := by
  induction count generalizing k a s with
  | zero => omega
  | succ count ih =>
    by_cases e : a = 4096
    · subst e
      exact ⟨s, by simp [loadRegisters, memRead_invalid], rfl, fun r => by rw [if_neg (by omega)]⟩
    · obtain ⟨t, h1, h2, h3⟩ :=
        ih (s.setV (BitVec.ofNat 4 k) (s.byteAt a)) (k := k + 1) (a := a + 1) (by omega) (by omega) (by omega)
      refine ⟨t, by simp [loadRegisters, memRead_valid s (show a < 4096 by omega), h1], h2, fun r => ?_⟩
      have hr : (r = BitVec.ofNat 4 k) ↔ r.toNat = k := by
        rw [← BitVec.toNat_inj, BitVec.toNat_ofNat, Nat.mod_eq_of_lt (by omega)]
      rw [h3, getV_setV, setV_byteAt]
      by_cases e' : r.toNat = k
      · have : k < k + (4096 - a) := by omega
        simp [hr, e', this]
      · by_cases g : k + 1 ≤ r.toNat ∧ r.toNat < k + 1 + (4096 - (a + 1))
        · rw [if_pos g, if_pos (by omega)]; congr 1; omega
        · rw [if_neg g, if_neg (by simpa [hr] using e'), if_neg (by omega)]

/-- Whatever a load does, only registers differ. -/
theorem loadRegisters_cases (count k a : Nat) (s : State) :
    ∃ v : Vector Byte 16, loadRegisters count k a s = .done () { s with V := v } ∨
      ∃ n, 4096 ≤ n ∧ (a ≤ 4096 → n = 4096) ∧ loadRegisters count k a s = .raised .memBounds n { s with V := v } := by
  induction count generalizing k a s with
  | zero => exact ⟨s.V, .inl rfl⟩
  | succ count ih =>
    by_cases h : a < 4096
    · obtain ⟨v, hv⟩ := ih (k + 1) (a + 1) (s.setV (BitVec.ofNat 4 k) (s.byteAt a))
      refine ⟨v, ?_⟩
      simp only [loadRegisters, memRead_valid s h]
      rcases hv with hv | ⟨n, h1, h2, hv⟩
      · exact .inl hv
      · exact .inr ⟨n, h1, fun _ => h2 (by omega), hv⟩
    · exact ⟨s.V, .inr ⟨a, by omega, fun _ => by omega, by simp [loadRegisters, memRead_invalid s (show 4096 ≤ a by omega)]⟩⟩

/-! ### The stack -/

theorem toNat_bigEndian (h l : Byte) : (bigEndian h l).toNat = 256 * h.toNat + l.toNat := by
  simp only [bigEndian, BitVec.toNat_append]
  rw [← Nat.shiftLeft_add_eq_or_of_lt l.isLt, Nat.shiftLeft_eq]; omega

theorem toNat_highByte (w : Word) : (highByte w).toNat = w.toNat / 256 := by
  have := w.isLt
  simp only [highByte, BitVec.extractLsb'_toNat, Nat.shiftRight_eq_div_pow]; omega

theorem toNat_lowByte (w : Word) : (lowByte w).toNat = w.toNat % 256 := by
  simp [lowByte]

theorem bigEndian_high_low (w : Word) : bigEndian (highByte w) (lowByte w) = w := by
  apply BitVec.eq_of_toNat_eq
  rw [toNat_bigEndian, toNat_highByte, toNat_lowByte]; omega

/-- `Push` (R53): with a legal `SP` it stores the word and moves `SP`, or raises STACK_OVERFLOW on the full stack. -/
theorem push_legal {s : State} (v : Word) (h : s.stackLegal) :
    (s.SP < s.params.stackBase.val + 48 ∧
      push v s = .done () { setBytes [highByte v, lowByte v] s.SP s with SP := s.SP + 2 }) ∨
    (s.SP = s.params.stackBase.val + 48 ∧ push v s = .raised .stackOverflow v.toNat s) := by
  obtain ⟨k, hk, hs⟩ := h
  have hb := s.params.stackBase.isLt
  by_cases e : k = 24
  · right; subst e
    exact ⟨by omega, by simp [push, State.stackCeiling, Config.stackBytes, hs]⟩
  · left
    have hlt : ¬ s.stackCeiling ≤ s.SP := by simp [State.stackCeiling, Config.stackBytes]; omega
    have hf := storeBytes_fits (vs := [highByte v, lowByte v]) (a := s.SP) s (by simp; omega)
    have hsp : (setBytes [highByte v, lowByte v] s.SP s).SP = s.SP := rfl
    exact ⟨by omega, by simp only [push, hlt, if_false, memWriteWord, hf, hsp]⟩

/-- `Pop` (R54): with a legal `SP` it moves `SP` and reads the word, or raises STACK_UNDERFLOW on the empty stack. -/
theorem pop_legal {s : State} (h : s.stackLegal) :
    (s.params.stackBase.val + 2 ≤ s.SP ∧ pop s = .done (s.wordAt (s.SP - 2)) { s with SP := s.SP - 2 }) ∨
    (s.SP = s.params.stackBase.val ∧ pop s = .raised .stackUnderflow 0 s) := by
  obtain ⟨k, hk, hs⟩ := h
  have hb := s.params.stackBase.isLt
  by_cases e : k = 0
  · right; subst e
    exact ⟨by omega, by simp [pop, hs]⟩
  · left
    have hlt : ¬ s.SP ≤ s.params.stackBase.val := by omega
    have hr := memReadWord_valid { s with SP := s.SP - 2 } (a := s.SP - 2) (by omega)
    exact ⟨by omega, by simp only [pop, hlt, if_false, hr]; rfl⟩

/-! ### The key read -/

theorem toNat_ofNat4 {n : Nat} (h : n ≤ 15) : (BitVec.ofNat 4 n).toNat = n := by
  rw [BitVec.toNat_ofNat, Nat.mod_eq_of_lt (by omega)]

theorem ofNat4_eq {n : Nat} {k : Nibble} (h : n = k.toNat) : BitVec.ofNat 4 n = k := by
  subst h; simp

/-- `Key(v)` (R176). -/
theorem readKey_valid {v : Byte} {k : Nibble} (s : State) (h : v.toNat = k.toNat) :
    readKey v s = .done (s.key k) s := by
  have := k.isLt
  have hv : v.toNat ≤ 15 := by omega
  simp [readKey, hv, ofNat4_eq h]

theorem readKey_invalid {v : Byte} (s : State) (h : v.toNat > 0x0F) : readKey v s = .raised .keyRange v.toNat s := by
  have : ¬v.toNat ≤ 15 := by omega
  simp [readKey, this]

/-! ### The sprite compositor -/

/-- One source pixel changes its own pixel, where its bit is 1 and the place is inside the grid (R162). -/
theorem pixel_drawPixel (b : Byte) (x y col px py : Nat) (acc : Framebuffer × Bool) :
    Framebuffer.pixel (drawPixel b x y acc col).1 px py =
      (Framebuffer.pixel acc.1 px py ^^
        (b.getLsbD (7 - col) && decide (x + col = px ∧ y = py ∧ px < 64 ∧ py < 32))) := by
  unfold drawPixel
  split <;> rename_i h
  · rw [pixel_toggle]; simp only [h, Bool.true_and]
    congr 2; apply propext; constructor <;> rintro ⟨rfl, rfl, h⟩ <;> simpa using h
  · simp [h]

theorem collision_drawPixel (b : Byte) (x y col : Nat) (acc : Framebuffer × Bool) :
    (drawPixel b x y acc col).2 = (acc.2 || (b.getLsbD (7 - col) && Framebuffer.pixel acc.1 (x + col) y)) := by
  unfold drawPixel
  split <;> rename_i h <;> simp [h]

/-- A row toggles the grid's pixels where its byte has a 1, bit 7 leftmost (R162). -/
theorem pixel_drawRow (b : Byte) (x y px py : Nat) (acc : Framebuffer × Bool) :
    Framebuffer.pixel (drawRow b x y acc).1 px py =
      (Framebuffer.pixel acc.1 px py ^^
        (decide (x ≤ px ∧ px < x + 8 ∧ y = py ∧ px < 64 ∧ py < 32) && b.getLsbD (7 - (px - x)))) := by
  simp only [drawRow, List.foldl, pixel_drawPixel, Bool.xor_assoc]
  congr 1
  by_cases g : x ≤ px ∧ px < x + 8 ∧ y = py ∧ px < 64 ∧ py < 32
  · obtain ⟨h1, h2, rfl, h4, h5⟩ := g
    obtain ⟨c, rfl⟩ := Nat.exists_eq_add_of_le h1
    have hc : c < 8 := by omega
    interval_cases c <;> simp [h4, h5, Bool.and_comm]
  · rw [decide_eq_false g]
    have : ∀ col, col < 8 → decide (x + col = px ∧ y = py ∧ px < 64 ∧ py < 32) = false :=
      fun col hcol => decide_eq_false (by omega)
    simp only [this 0 (by omega), this 1 (by omega), this 2 (by omega), this 3 (by omega), this 4 (by omega),
      this 5 (by omega), this 6 (by omega), this 7 (by omega), Bool.and_false, Bool.false_and, Bool.xor_false]

/-- A row collides where a 1 of its byte meets a pixel that is on (R162). -/
theorem collision_drawRow (b : Byte) (x y : Nat) (acc : Framebuffer × Bool) :
    (drawRow b x y acc).2 = true ↔
      acc.2 = true ∨ ∃ px, x ≤ px ∧ px < x + 8 ∧ Framebuffer.pixel acc.1 px y = true ∧ b.getLsbD (7 - (px - x)) = true := by
  have key : (drawRow b x y acc).2 = (acc.2 ||
      ((List.range 8).any fun col => b.getLsbD (7 - col) && Framebuffer.pixel acc.1 (x + col) y)) := by
    simp [drawRow, collision_drawPixel, pixel_drawPixel, List.range, List.range.loop, Bool.or_assoc]
  rw [key, Bool.or_eq_true, List.any_eq_true]
  constructor
  · rintro (h | ⟨col, hc, h⟩)
    · exact .inl h
    · simp only [List.mem_range, Bool.and_eq_true] at hc h
      exact .inr ⟨x + col, by omega, by omega, h.2, by simpa using h.1⟩
  · rintro (h | ⟨px, h1, h2, h3, h4⟩)
    · exact .inl h
    · obtain ⟨c, rfl⟩ := Nat.exists_eq_add_of_le h1
      exact .inr ⟨c, by simp; omega, by simpa [h3] using h4⟩

/-- The rows of a sprite that stay inside the address space: the grid's pixels where the sprite has a 1 are toggled, and the
answer is whether one of them was on, or the flag already set (R162). Only the framebuffer differs. -/
theorem drawRows_fits {h : Nat} (x y a : Nat) (c : Bool) (s : State) (hf : a + h ≤ 4096) :
    ∃ d t, drawRows h x y a c s = .done d t ∧ t = { s with FB := t.FB } ∧
      (∀ px py, px < 64 → py < 32 → Framebuffer.pixel t.FB px py =
        (Framebuffer.pixel s.FB px py ^^ spriteBit s x y h a px py)) ∧
      (d = true ↔ c = true ∨
        ∃ px py, px < 64 ∧ py < 32 ∧ Framebuffer.pixel s.FB px py = true ∧ spriteBit s x y h a px py = true) := by
  induction h generalizing y a c s with
  | zero =>
    refine ⟨c, s, rfl, rfl, fun px py _ _ => ?_, ?_⟩
    · have : ¬(x ≤ px ∧ px < x + 8 ∧ y ≤ py ∧ py < y + 0) := by omega
      simp only [spriteBit, this, decide_false, Bool.false_and, Bool.xor_false]
    · constructor
      · exact .inl
      · rintro (h | ⟨px, py, _, _, _, h⟩)
        · exact h
        · simp only [spriteBit, Bool.and_eq_true, decide_eq_true_eq] at h; omega
  | succ h ih =>
    have hr := memRead_valid s (show a < 4096 by omega)
    set r := drawRow (s.byteAt a) x y (s.FB, c) with hrow
    obtain ⟨d, t, h1, h2, h3, h4⟩ := ih (y + 1) (a + 1) r.2 { s with FB := r.1 } (by omega)
    have hb : ∀ px py, px < 64 → py < 32 → spriteBit s x y (h + 1) a px py =
        ((decide (x ≤ px ∧ px < x + 8 ∧ y = py ∧ px < 64 ∧ py < 32) && (s.byteAt a).getLsbD (7 - (px - x))) ^^
          spriteBit { s with FB := r.1 } x (y + 1) h (a + 1) px py) := by
      intro px py h64 h32
      have hbyte : ∀ m, ({ s with FB := r.1 } : State).byteAt m = s.byteAt m := fun _ => rfl
      simp only [spriteBit, hbyte]
      by_cases e : py = y
      · subst e
        have n : ¬(x ≤ px ∧ px < x + 8 ∧ py + 1 ≤ py ∧ py < py + 1 + h) := by omega
        have p : (x ≤ px ∧ px < x + 8 ∧ py ≤ py ∧ py < py + (h + 1)) ↔
          (x ≤ px ∧ px < x + 8 ∧ py = py ∧ px < 64 ∧ py < 32) := by omega
        simp only [n, p, decide_false, Bool.false_and, Bool.xor_false, Nat.sub_self, Nat.add_zero]
      · have n : ¬(x ≤ px ∧ px < x + 8 ∧ y = py ∧ px < 64 ∧ py < 32) := by omega
        have p : (x ≤ px ∧ px < x + 8 ∧ y ≤ py ∧ py < y + (h + 1)) ↔
          (x ≤ px ∧ px < x + 8 ∧ y + 1 ≤ py ∧ py < y + 1 + h) := by omega
        simp only [n, decide_false, Bool.false_and, Bool.false_xor]
        by_cases q : x ≤ px ∧ px < x + 8 ∧ y + 1 ≤ py ∧ py < y + 1 + h
        · have : a + (py - y) = a + 1 + (py - (y + 1)) := by omega
          simp [p, this]
        · simp only [p, q, decide_false, Bool.false_and]
    refine ⟨d, t, by simp only [drawRows, hr, ← hrow, h1], h2, fun px py h64 h32 => ?_, ?_⟩
    · rw [h3 px py h64 h32, hb px py h64 h32]
      simp only [hrow, pixel_drawRow, Bool.xor_assoc]
    · rw [h4, hrow, collision_drawRow]
      constructor
      · rintro ((h | ⟨px, p1, p2, p3, p4⟩) | ⟨px, py, h64, h32, p3, p4⟩)
        · exact .inl h
        · have hg : px < 64 ∧ y < 32 := by
            by_contra g; simp only [Framebuffer.pixel] at p3; rw [dif_neg g] at p3; exact absurd p3 (by simp)
          refine .inr ⟨px, y, hg.1, hg.2, p3, ?_⟩
          simp [spriteBit, p1, p2, p4]
        · refine .inr ⟨px, py, h64, h32, ?_, ?_⟩ <;>
            simp only [spriteBit, Bool.and_eq_true, decide_eq_true_eq] at p4
          · rw [← hrow] at p3
            simp only [hrow, pixel_drawRow] at p3
            have n : ¬(x ≤ px ∧ px < x + 8 ∧ y = py ∧ px < 64 ∧ py < 32) := by omega
            simpa [n] using p3
          · rw [hb px py h64 h32]
            have n : ¬(x ≤ px ∧ px < x + 8 ∧ y = py ∧ px < 64 ∧ py < 32) := by omega
            simp only [n, decide_false, Bool.false_and, Bool.false_xor, spriteBit, Bool.and_eq_true, decide_eq_true_eq]
            exact p4
      · rintro (h | ⟨px, py, h64, h32, p3, p4⟩)
        · exact .inl (.inl h)
        · by_cases e : py = y
          · subst e
            simp only [spriteBit, Bool.and_eq_true, decide_eq_true_eq] at p4
            exact .inl (.inr ⟨px, p4.1.1, p4.1.2.1, p3, by simpa using p4.2⟩)
          · rw [hb px py h64 h32] at p4
            have n : ¬(x ≤ px ∧ px < x + 8 ∧ y = py ∧ px < 64 ∧ py < 32) := by omega
            simp only [n, decide_false, Bool.false_and, Bool.false_xor] at p4
            refine .inr ⟨px, py, h64, h32, ?_, p4⟩
            simp [pixel_drawRow, n, p3]

/-- A sprite that leaves the address space: the rows of the bytes below 0x1000 are drawn, then MEM_BOUNDS (R161). -/
theorem drawRows_raises {h : Nat} (x y a : Nat) (c : Bool) (s : State) (ha : a ≤ 4096) (hf : 4096 < a + h) :
    ∃ d t, drawRows (4096 - a) x y a c s = .done d t ∧ drawRows h x y a c s = .raised .memBounds 4096 t := by
  induction h generalizing y a c s with
  | zero => omega
  | succ h ih =>
    by_cases e : a = 4096
    · subst e
      exact ⟨c, s, rfl, by simp [drawRows, memRead_invalid]⟩
    · have hr := memRead_valid s (show a < 4096 by omega)
      obtain ⟨d, t, h1, h2⟩ := ih (y + 1) (a + 1) (drawRow (s.byteAt a) x y (s.FB, c)).2
        { s with FB := (drawRow (s.byteAt a) x y (s.FB, c)).1 } (by omega) (by omega)
      have hs : 4096 - a = (4096 - (a + 1)) + 1 := by omega
      exact ⟨d, t, by simp only [hs, drawRows, hr, h1], by simp only [drawRows, hr, h2]⟩

/-- Whatever the compositor's rows do, only the framebuffer differs. -/
theorem drawRows_cases (h x y a : Nat) (c : Bool) (s : State) :
    ∃ fb : Framebuffer, (∃ d, drawRows h x y a c s = .done d { s with FB := fb }) ∨
      ∃ n, 4096 ≤ n ∧ (a ≤ 4096 → n = 4096) ∧ drawRows h x y a c s = .raised .memBounds n { s with FB := fb } := by
  induction h generalizing y a c s with
  | zero => exact ⟨s.FB, .inl ⟨c, rfl⟩⟩
  | succ h ih =>
    by_cases hv : a < 4096
    · obtain ⟨fb, hfb⟩ := ih (y + 1) (a + 1) (drawRow (s.byteAt a) x y (s.FB, c)).2
        { s with FB := (drawRow (s.byteAt a) x y (s.FB, c)).1 }
      refine ⟨fb, ?_⟩
      simp only [drawRows, memRead_valid s hv]
      rcases hfb with ⟨d, hd⟩ | ⟨n, h1, h2, hn⟩
      · exact .inl ⟨d, hd⟩
      · exact .inr ⟨n, h1, fun _ => h2 (by omega), hn⟩
    · exact ⟨s.FB, .inr ⟨a, by omega, fun _ => by omega, by simp [drawRows, memRead_invalid s (show 4096 ≤ a by omega)]⟩⟩

end Sys2Proof.Machine
end

