-- ==== Sys2Proof/Laws/PerInstr.lean ====
section
/-! SUPPORT. Statements for every instruction, one lemma per constructor. Family TableRow: the encoding agrees with the
instruction's row of spec/opcode_table.json, mask and match. -/

namespace Sys2Proof.Laws.TableRow

/-- The word of `i` under its row's mask is its row's match. -/
def Statement (i : Instr) : Prop := encode i &&& (tableRow i).1 = (tableRow i).2

/-- Masking the family nibble of a word of format ADDR. -/
theorem mask_addr (op : Nibble) (nnn : Addr) : (op ++ nnn) &&& 0xF000#16 = op ++ 0x000#12 := by
  apply BitVec.eq_of_getLsbD_eq
  intro i hi
  have : i < 16 := hi
  simp only [BitVec.getLsbD_and, BitVec.getLsbD_append]
  interval_cases i <;> simp

/-- Masking the family nibble of a word of format XIMM. -/
theorem mask_ximm (op x : Nibble) (nn : Byte) : (op ++ x ++ nn) &&& 0xF000#16 = op ++ 0x000#12 := by
  apply BitVec.eq_of_getLsbD_eq
  intro i hi
  have : i < 16 := hi
  simp only [BitVec.getLsbD_and, BitVec.getLsbD_append]
  interval_cases i <;> simp

/-- Masking the family nibble and the low byte of a word of format XSUB. -/
theorem mask_xsub (op x : Nibble) (nn : Byte) : (op ++ x ++ nn) &&& 0xF0FF#16 = op ++ 0x0#4 ++ nn := by
  apply BitVec.eq_of_getLsbD_eq
  intro i hi
  have : i < 16 := hi
  simp only [BitVec.getLsbD_and, BitVec.getLsbD_append]
  interval_cases i <;> simp

/-- Masking the family nibble and the low nibble of a word of format XY. -/
theorem mask_xy (op x y n : Nibble) : (op ++ x ++ y ++ n) &&& 0xF00F#16 = op ++ 0x00#8 ++ n := by
  apply BitVec.eq_of_getLsbD_eq
  intro i hi
  have : i < 16 := hi
  simp only [BitVec.getLsbD_and, BitVec.getLsbD_append]
  interval_cases i <;> simp

/-- Masking the family nibble of a word of format XYN. -/
theorem mask_xyn (op x y n : Nibble) : (op ++ x ++ y ++ n) &&& 0xF000#16 = op ++ 0x000#12 := by
  apply BitVec.eq_of_getLsbD_eq
  intro i hi
  have : i < 16 := hi
  simp only [BitVec.getLsbD_and, BitVec.getLsbD_append]
  interval_cases i <;> simp

theorem sys (nnn : Addr) : Statement (.sys nnn) := (mask_addr _ nnn).trans rfl
theorem cls : Statement .cls := by unfold Statement; decide
theorem ret : Statement .ret := by unfold Statement; decide
theorem jp (nnn : Addr) : Statement (.jp nnn) := (mask_addr _ nnn).trans rfl
theorem call (nnn : Addr) : Statement (.call nnn) := (mask_addr _ nnn).trans rfl
theorem seImm (x : Nibble) (nn : Byte) : Statement (.seImm x nn) := (mask_ximm _ x nn).trans rfl
theorem sneImm (x : Nibble) (nn : Byte) : Statement (.sneImm x nn) := (mask_ximm _ x nn).trans rfl
theorem seReg (x y : Nibble) : Statement (.seReg x y) := (mask_xy _ x y _).trans rfl
theorem ldImm (x : Nibble) (nn : Byte) : Statement (.ldImm x nn) := (mask_ximm _ x nn).trans rfl
theorem addImm (x : Nibble) (nn : Byte) : Statement (.addImm x nn) := (mask_ximm _ x nn).trans rfl
theorem ldReg (x y : Nibble) : Statement (.ldReg x y) := (mask_xy _ x y _).trans rfl
theorem orReg (x y : Nibble) : Statement (.orReg x y) := (mask_xy _ x y _).trans rfl
theorem andReg (x y : Nibble) : Statement (.andReg x y) := (mask_xy _ x y _).trans rfl
theorem xorReg (x y : Nibble) : Statement (.xorReg x y) := (mask_xy _ x y _).trans rfl
theorem addReg (x y : Nibble) : Statement (.addReg x y) := (mask_xy _ x y _).trans rfl
theorem sub (x y : Nibble) : Statement (.sub x y) := (mask_xy _ x y _).trans rfl
theorem shr (x y : Nibble) : Statement (.shr x y) := (mask_xy _ x y _).trans rfl
theorem subn (x y : Nibble) : Statement (.subn x y) := (mask_xy _ x y _).trans rfl
theorem shl (x y : Nibble) : Statement (.shl x y) := (mask_xy _ x y _).trans rfl
theorem sneReg (x y : Nibble) : Statement (.sneReg x y) := (mask_xy _ x y _).trans rfl
theorem ldI (nnn : Addr) : Statement (.ldI nnn) := (mask_addr _ nnn).trans rfl
theorem jpV0 (nnn : Addr) : Statement (.jpV0 nnn) := (mask_addr _ nnn).trans rfl
theorem rnd (x : Nibble) (nn : Byte) : Statement (.rnd x nn) := (mask_ximm _ x nn).trans rfl
theorem drw (x y n : Nibble) : Statement (.drw x y n) := (mask_xyn _ x y n).trans rfl
theorem skp (x : Nibble) : Statement (.skp x) := (mask_xsub _ x _).trans rfl
theorem sknp (x : Nibble) : Statement (.sknp x) := (mask_xsub _ x _).trans rfl
theorem ldVxDt (x : Nibble) : Statement (.ldVxDt x) := (mask_xsub _ x _).trans rfl
theorem ldVxK (x : Nibble) : Statement (.ldVxK x) := (mask_xsub _ x _).trans rfl
theorem ldDtVx (x : Nibble) : Statement (.ldDtVx x) := (mask_xsub _ x _).trans rfl
theorem ldStVx (x : Nibble) : Statement (.ldStVx x) := (mask_xsub _ x _).trans rfl
theorem addI (x : Nibble) : Statement (.addI x) := (mask_xsub _ x _).trans rfl
theorem ldF (x : Nibble) : Statement (.ldF x) := (mask_xsub _ x _).trans rfl
theorem ldB (x : Nibble) : Statement (.ldB x) := (mask_xsub _ x _).trans rfl
theorem stRegs (x : Nibble) : Statement (.stRegs x) := (mask_xsub _ x _).trans rfl
theorem ldRegs (x : Nibble) : Statement (.ldRegs x) := (mask_xsub _ x _).trans rfl

end Sys2Proof.Laws.TableRow
end

