-- ==== Sys2Proof/Tests/Slice0.lean ====
section
/-! SUPPORT. The model's own tests: ill-formed terms refused, words written out from the patterns of 30_encoding.md, one tick
or one host event per vector of 95_test_vectors.md (the name of a test gives its row), and for every statement with
hypotheses a witness that meets them. Expected results are the spec's. -/

open Sys2Proof Sys2Proof.Machine

namespace Sys2Proof.Tests

/-! ## Helpers -/

/-- The inputs of a vector that lists none. -/
def quiet : Config.TickInputs := ⟨0x00#8, false, false⟩

/-- The base state of the vectors. -/
def base : State := State.reset

/-- The word `w` stored at `pc`, and a tick with the given inputs next. -/
def placedWith (inp : Config.TickInputs) (w : Nat) (s : State) : State :=
  ({ s with inputs := [.tick inp] } : State).withFetchWord 16 w

/-- The same with the inputs of a vector that lists none. -/
def placed (w : Nat) (s : State) : State := placedWith quiet w s

/-- A next state, and what holds in it. -/
def shows (r : Result) (p : State → Bool) : Bool :=
  match r with
  | .next t => p t
  | .fault _ => false
  | .refused _ => false

theorem shows_next {r : Result} {p : State → Bool} (h : shows r p = true) : ∃ t, r = .next t ∧ p t = true := by
  cases r with
  | next t => exact ⟨t, rfl, h⟩
  | fault f => exact absurd h Bool.false_ne_true
  | refused q => exact absurd h Bool.false_ne_true

/-- Every field of R10 but the framebuffer, and the outputs. -/
def same (t u : State) : Bool :=
  decide (t.V = u.V ∧ t.I = u.I ∧ t.pc = u.pc ∧ t.SP = u.SP ∧ t.DT = u.DT ∧ t.ST = u.ST ∧ t.MEM = u.MEM ∧ t.K = u.K ∧
    t.MODE = u.MODE ∧ t.WAITREG = u.WAITREG ∧ t.FCAUSE = u.FCAUSE ∧ t.FINFO = u.FINFO ∧ t.out = u.out)

/-- A vector: one step with the word `w` at `pc` changes the start state as `expect` says and raises the outputs `out`. -/
def vectorWith (inp : Config.TickInputs) (w : Nat) (s : State) (expect : State → State) (out : Outputs := {}) : Bool :=
  shows (step (placedWith inp w s)) fun t => same t { expect (placedWith inp w s) with out := out }

/-- A vector with the inputs of a row that lists none. -/
def vector (w : Nat) (s : State) (expect : State → State) (out : Outputs := {}) : Bool := vectorWith quiet w s expect out

/-- A vector that ends in Faulted: the cause, the information word and the `fault` output; `expect` says what was written
before. -/
def faults (w : Nat) (s : State) (cause : Cause) (info : Word) (expect : State → State := id) : Bool :=
  vector w s (fun s => { expect s with MODE := .faulted, FCAUSE := some cause, FINFO := info })
    { fault := some (cause, info) }

/-- A host event as the next step: it changes the start state as `expect` says. -/
def eventVector (e : HostEvent) (s : State) (expect : State → State) (out : Outputs := {}) : Bool :=
  shows (step { s with inputs := [.event e] }) fun t => same t { expect s with out := out }

/-- Of the columns in the list, those of row 0 whose pixel is on. -/
def rowOn (s : State) (xs : List Nat) : List Nat := xs.filter (fun x => Framebuffer.pixel s.FB x 0)

/-- A state with the pixels `xs` of row 0 on. -/
def lit (s : State) (xs : List Nat) : State :=
  { s with FB := xs.foldl (fun fb x => Framebuffer.toggle fb x 0) s.FB }

/-- A state with the bytes at `a` on. -/
def mem (s : State) (a : Nat) : List Byte → State
  | [] => s
  | v :: vs => mem (s.setByte a v) (a + 1) vs

/-- A state that waits for a key into register `x`. -/
def awaiting (s : State) (x : Nibble) : State := { s with MODE := .awaitingKey, WAITREG := x }

/-- A state in Faulted after the unrecognized word 0x8128. -/
def faulted (s : State) : State :=
  { s with MODE := .faulted, FCAUSE := some .illegalOpcode, FINFO := 0x8128#16 }

theorem tickIsNext_of_tick {s : State} {i : Config.TickInputs} {rest : List Input} (h : s.inputs = .tick i :: rest) :
    TickIsNext s := by
  intro e r h'
  rw [h] at h'
  cases h'

theorem tickIsNext_of_empty {s : State} (h : s.inputs = []) : TickIsNext s := by
  intro e r h'
  rw [h] at h'
  cases h'

/-! ## Well-formedness -/

theorem test_wf_sys_refuses_words_of_cls_and_ret :
    (Instr.sys 0x0E0#12).wf = false ∧ (Instr.sys 0x0EE#12).wf = false := by decide

theorem test_wf_accepts_neighbours :
    (Instr.sys 0x0E1#12).wf = true ∧ (Instr.sys 0x0ED#12).wf = true ∧ (Instr.sys 0x000#12).wf = true ∧
    Instr.cls.wf = true ∧ (Instr.drw 0xF#4 0xF#4 0xF#4).wf = true := by decide

/-! ## Decoding: the words are written out from the patterns of R74 -/

theorem test_decode_flow :
    decode 0x0123#16 = .ok (.sys 0x123#12) ∧ decode 0x00EE#16 = .ok .ret ∧ decode 0x1ABC#16 = .ok (.jp 0xABC#12) ∧
    decode 0x2345#16 = .ok (.call 0x345#12) ∧ decode 0xB678#16 = .ok (.jpV0 0x678#12) := by decide

theorem test_decode_skips :
    decode 0x3142#16 = .ok (.seImm 0x1#4 0x42#8) ∧ decode 0x4A43#16 = .ok (.sneImm 0xA#4 0x43#8) ∧
    decode 0x5120#16 = .ok (.seReg 0x1#4 0x2#4) ∧ decode 0x9CD0#16 = .ok (.sneReg 0xC#4 0xD#4) := by decide

theorem test_decode_alu :
    decode 0x6AFF#16 = .ok (.ldImm 0xA#4 0xFF#8) ∧ decode 0x7103#16 = .ok (.addImm 0x1#4 0x03#8) ∧
    decode 0x8120#16 = .ok (.ldReg 0x1#4 0x2#4) ∧ decode 0x8231#16 = .ok (.orReg 0x2#4 0x3#4) ∧
    decode 0x8342#16 = .ok (.andReg 0x3#4 0x4#4) ∧ decode 0x8453#16 = .ok (.xorReg 0x4#4 0x5#4) ∧
    decode 0x8564#16 = .ok (.addReg 0x5#4 0x6#4) ∧ decode 0x8675#16 = .ok (.sub 0x6#4 0x7#4) ∧
    decode 0x8786#16 = .ok (.shr 0x7#4 0x8#4) ∧ decode 0x8897#16 = .ok (.subn 0x8#4 0x9#4) ∧
    decode 0x89AE#16 = .ok (.shl 0x9#4 0xA#4) ∧ decode 0xC30F#16 = .ok (.rnd 0x3#4 0x0F#8) := by decide

theorem test_decode_memory :
    decode 0xA2F0#16 = .ok (.ldI 0x2F0#12) ∧ decode 0xF21E#16 = .ok (.addI 0x2#4) ∧
    decode 0xF429#16 = .ok (.ldF 0x4#4) ∧ decode 0xF733#16 = .ok (.ldB 0x7#4) ∧
    decode 0xF255#16 = .ok (.stRegs 0x2#4) ∧ decode 0xF165#16 = .ok (.ldRegs 0x1#4) := by decide

theorem test_decode_graphics_keys_timers :
    decode 0x00E0#16 = .ok .cls ∧ decode 0xD125#16 = .ok (.drw 0x1#4 0x2#4 0x5#4) ∧
    decode 0xE59E#16 = .ok (.skp 0x5#4) ∧ decode 0xE6A1#16 = .ok (.sknp 0x6#4) ∧
    decode 0xF207#16 = .ok (.ldVxDt 0x2#4) ∧ decode 0xF30A#16 = .ok (.ldVxK 0x3#4) ∧
    decode 0xF415#16 = .ok (.ldDtVx 0x4#4) ∧ decode 0xF518#16 = .ok (.ldStVx 0x5#4) := by decide

/-- R76 to R79. -/
theorem test_decode_rejects :
    decode 0x5121#16 = .error (.reservedFamily5 0x5121#16) ∧ decode 0x8128#16 = .error (.unknownFamily8 0x8128#16) ∧
    decode 0x812F#16 = .error (.unknownFamily8 0x812F#16) ∧ decode 0x912F#16 = .error (.reservedFamily9 0x912F#16) ∧
    decode 0xE59F#16 = .error (.unknownFamilyE 0xE59F#16) ∧ decode 0xF20B#16 = .error (.unknownFamilyF 0xF20B#16) := by
  decide

/-- R70, R243: the high byte comes first; one byte is no instruction. -/
theorem test_decode_bytes :
    decodeBytes [0xA2#8, 0xF0#8, 0x60#8] = .ok (.ldI 0x2F0#12, [0x60#8]) ∧ decodeBytes [0xA2#8] = .error .truncated ∧
    decodeTableWord 16 0xA2F0 = some (.ldI 0x2F0#12) ∧ decodeTableWord 16 0x5121 = none := by decide

/-- The image of program P1 of 95_test_vectors.md, part 4. -/
theorem test_rom_image :
    romImage [.ldImm 0x0#4 0x0A#8, .ldImm 0x1#4 0x00#8, .addReg 0x1#4 0x0#4, .addImm 0x0#4 0xFF#8,
      .seImm 0x0#4 0x00#8, .jp 0x204#12, .jp 0x20C#12] =
    [0x60#8, 0x0A#8, 0x61#8, 0x00#8, 0x81#8, 0x04#8, 0x70#8, 0xFF#8, 0x30#8, 0x00#8, 0x12#8, 0x04#8, 0x12#8, 0x0C#8] := by
  decide

/-- Lines of programs P1 and P3. -/
theorem test_assembly_text :
    assembly (.addReg 0x1#4 0x0#4) = "ADD_REG V1, V0" ∧ assembly (.addImm 0x0#4 0xFF#8) = "ADD_IMM V0, 0xFF" ∧
    assembly (.ldI 0x300#12) = "LD_I 0x300" ∧ assembly .ret = "RET" := by decide

/-! ## One tick: control transfer (T1) -/

theorem test_T1_1_zero_memory_is_sys : faults 0x0000 base .machineCall 0x0000#16 = true := by decide
theorem test_T1_2_sys : faults 0x0123 base .machineCall 0x0123#16 = true := by decide
theorem test_T1_6_jp : vector 0x1ABC base (·.setPc 0xABC) = true := by decide
theorem test_T1_7_jp_to_self : vector 0x1200 base id = true := by decide

theorem test_T1_11_call_pushes_unmasked :
    vector 0x2300 (mem (base.setPc 0xFFE) 0xEA0 [0xFF#8, 0xFF#8])
      (fun s => mem { s with pc := 0x300#12, SP := 0xEA2 } 0xEA0 [0x10#8, 0x00#8]) = true := by decide

theorem test_T1_13_call_overflows :
    faults 0x2400 { base with pc := 0x300#12, SP := 0xED0 } .stackOverflow 0x0302#16 = true := by decide

theorem test_T1_17_ret :
    vector 0x00EE (mem { base with pc := 0x300#12, SP := 0xEA2 } 0xEA0 [0xAB#8, 0xCD#8])
      (fun s => { s with pc := 0xBCD#12, SP := 0xEA0 }) = true := by decide

theorem test_T1_15_ret_underflows : faults 0x00EE (base.setPc 0x300) .stackUnderflow 0x0000#16 = true := by decide
theorem test_T1_19_jpV0_wraps : vector 0xBFFF (base.setV 0x0#4 0xFF#8) (·.setPc 0x0FE) = true := by decide

theorem test_T1_20_jpV0_uses_v0 :
    vector 0xB3A0 (base.setV 0x3#4 0x55#8) (·.setPc 0x3A0) = true := by decide

/-! ## One tick: skips (T2) -/

/-- V1 = 0x42, V2 = v. -/
def pair (v : Byte) : State := (base.setV 0x1#4 0x42#8).setV 0x2#4 v

theorem test_T2_1_seImm_skips : vector 0x3142 (pair 0x00#8) (·.setPc 0x204) = true := by decide
theorem test_T2_11_seImm_across_the_top : vector 0x3000 (base.setPc 0xFFE) (·.setPc 0x002) = true := by decide
theorem test_T2_3_sneImm_equal : vector 0x4142 (pair 0x00#8) (·.setPc 0x202) = true := by decide
theorem test_T2_4_sneImm_skips : vector 0x4143 (pair 0x00#8) (·.setPc 0x204) = true := by decide
theorem test_T2_5_seReg_skips : vector 0x5120 (pair 0x42#8) (·.setPc 0x204) = true := by decide
theorem test_T2_6_seReg_differs : vector 0x5120 (pair 0x43#8) (·.setPc 0x202) = true := by decide
theorem test_T2_8_sneReg_equal : vector 0x9120 (pair 0x42#8) (·.setPc 0x202) = true := by decide
theorem test_T2_9_sneReg_skips : vector 0x9120 (pair 0x43#8) (·.setPc 0x204) = true := by decide
theorem test_T2_13_family5_reserved : faults 0x5121 (pair 0x42#8) .illegalOpcode 0x5121#16 = true := by decide
theorem test_T2_14_family9_reserved : faults 0x912F (pair 0x43#8) .illegalOpcode 0x912F#16 = true := by decide

/-! ## One tick: loads, logic, arithmetic, shifts, random (T3, T4) -/

/-- V1, V2, VF as given. -/
def three (v1 v2 vf : Byte) : State := ((base.setV 0x1#4 v1).setV 0x2#4 v2).setV 0xF#4 vf

/-- V1 and VF as given, and `pc` after the instruction. -/
def ends (v1 vf : Byte) (s : State) : State := ((s.setV 0x1#4 v1).setV 0xF#4 vf).setPc 0x202

theorem test_T3_1_ldImm : vector 0x6AFF base (fun s => (s.setV 0xA#4 0xFF#8).setPc 0x202) = true := by decide
theorem test_T3_2_ldImm_vf : vector 0x6F00 (three 0x00#8 0x00#8 0x01#8) (ends 0x00#8 0x00#8) = true := by decide
theorem test_T3_4_addImm_keeps_vf : vector 0x71FF (three 0xFF#8 0x00#8 0x01#8) (ends 0xFE#8 0x01#8) = true := by decide
theorem test_T3_5_addImm_on_vf : vector 0x7F03 (three 0x00#8 0x00#8 0xFE#8) (ends 0x00#8 0x01#8) = true := by decide
theorem test_T3_6_ldReg : vector 0x8120 (three 0x11#8 0x22#8 0x00#8) (ends 0x22#8 0x00#8) = true := by decide
theorem test_T3_7_or_keeps_vf : vector 0x8121 (three 0xF0#8 0x0F#8 0x01#8) (ends 0xFF#8 0x01#8) = true := by decide
theorem test_T3_8_and_keeps_vf : vector 0x8122 (three 0xFC#8 0x3F#8 0x01#8) (ends 0x3C#8 0x01#8) = true := by decide
theorem test_T3_9_xor_keeps_vf : vector 0x8123 (three 0xFF#8 0x0F#8 0x01#8) (ends 0xF0#8 0x01#8) = true := by decide
theorem test_T4_3_addReg_carries : vector 0x8124 (three 0xFF#8 0x01#8 0x00#8) (ends 0x00#8 0x01#8) = true := by decide
theorem test_T4_7_addReg_into_vf : vector 0x8F14 (three 0x03#8 0x00#8 0xFF#8) (ends 0x03#8 0x01#8) = true := by decide
theorem test_T4_10_sub_borrows : vector 0x8125 (three 0x03#8 0x05#8 0x01#8) (ends 0xFE#8 0x00#8) = true := by decide
theorem test_T4_13_sub_into_vf : vector 0x8F15 (three 0x03#8 0x00#8 0x05#8) (ends 0x03#8 0x01#8) = true := by decide
theorem test_T4_16_shr_of_vy : vector 0x8126 (three 0xAA#8 0x05#8 0x00#8) (ends 0x02#8 0x01#8) = true := by decide
theorem test_T4_20_shr_into_vf : vector 0x8F26 (three 0x00#8 0x07#8 0x00#8) (ends 0x00#8 0x03#8) = true := by decide
theorem test_T4_23_subn_borrows : vector 0x8127 (three 0x05#8 0x03#8 0x01#8) (ends 0xFE#8 0x00#8) = true := by decide
theorem test_T4_25_subn_into_vf : vector 0x8F27 (three 0x00#8 0x05#8 0x01#8) (ends 0x00#8 0x04#8) = true := by decide
theorem test_T4_27_shl_of_vy : vector 0x812E (three 0xAA#8 0x81#8 0x00#8) (ends 0x02#8 0x01#8) = true := by decide
theorem test_T4_30_shl_into_vf : vector 0x8F2E (three 0x00#8 0xC1#8 0x00#8) (ends 0x00#8 0x82#8) = true := by decide

theorem test_T4_33_rnd_masks :
    vectorWith ⟨0xA7#8, false, false⟩ 0xC30F base (fun s => (s.setV 0x3#4 0x07#8).setPc 0x202) = true := by decide

/-! ## One tick: address register and memory (T5) -/

/-- V7 and `I` as given. -/
def bcdStart (v : Byte) (i : Nat) : State := (base.setV 0x7#4 v).setI i

theorem test_T5_1_ldI : vector 0xA2F0 base (fun s => (s.setI 0x2F0).setPc 0x202) = true := by decide

theorem test_T5_4_addI_overflows :
    vector 0xF21E ((three 0x00#8 0x01#8 0x00#8).setI 0xFFF) (fun s => ends 0x00#8 0x01#8 (s.setI 0x0001)) = true := by
  decide

theorem test_T5_6_addI_of_vf :
    vector 0xFF1E ((three 0x00#8 0x00#8 0x20#8).setI 0xFF0) (fun s => ends 0x00#8 0x01#8 (s.setI 0x0011)) = true := by
  decide

theorem test_T5_9_ldF :
    vector 0xF429 ((base.setV 0x4#4 0x0F#8).setI 0x300) (fun s => (s.setI 0x04B).setPc 0x202) = true := by decide

theorem test_T5_11_ldF_not_masked :
    vector 0xF429 (base.setV 0x4#4 0xFF#8) (fun s => (s.setI 0x4FB).setPc 0x202) = true := by decide

theorem test_T5_12_ldB :
    vector 0xF733 (bcdStart 0x9D#8 0x500) (fun s => mem (s.setPc 0x202) 0x500 [0x01#8, 0x05#8, 0x07#8]) = true := by decide

theorem test_T5_17_ldB_faults_part_way :
    faults 0xF733 (bcdStart 0x7B#8 0xFFE) .memBounds 0x1000#16 (mem · 0xFFE [0x01#8, 0x02#8]) = true := by decide

theorem test_T5_25_stRegs_into_next_word :
    vector 0xF155 (((base.setV 0x0#4 0x12#8).setV 0x1#4 0x34#8).setI 0x202)
      (fun s => mem (s.setPc 0x202) 0x202 [0x12#8, 0x34#8]) = true := by decide

theorem test_T5_21_stRegs_faults_part_way :
    faults 0xF255 (((base.setV 0x0#4 0x11#8).setV 0x1#4 0x22#8).setI 0xFFE) .memBounds 0x1000#16
      (mem · 0xFFE [0x11#8, 0x22#8]) = true := by decide

theorem test_T5_22_ldRegs :
    vector 0xF165 (mem ((base.setV 0x2#4 0x77#8).setI 0x300) 0x300 [0xAA#8, 0xBB#8, 0xCC#8])
      (fun s => ((s.setV 0x0#4 0xAA#8).setV 0x1#4 0xBB#8).setPc 0x202) = true := by decide

theorem test_T5_23_ldRegs_faults_part_way :
    faults 0xF165 (mem ((base.setV 0x1#4 0x77#8).setI 0xFFF) 0xFFF [0x5A#8]) .memBounds 0x1000#16
      (·.setV 0x0#4 0x5A#8) = true := by decide

/-! ## One tick: graphics (T6) -/

/-- A step raises `refresh`, ends with the given VF and `pc` = 0x202, and of the columns looked at leaves the given ones of
row 0 on. -/
def draws (w : Nat) (s : State) (vf : Byte) (looked on : List Nat) : Bool :=
  shows (step (placed w s)) fun t =>
    same t { (((placed w s).setV 0xF#4 vf).setPc 0x202) with out := { refresh := true } } && rowOn t looked == on

/-- V0 and VF as given, `I` = 0x300, one sprite byte there. -/
def spriteStart (v0 vf b : Byte) : State := mem (((base.setV 0x0#4 v0).setV 0xF#4 vf).setI 0x300) 0x300 [b]

theorem test_T6_3_drw_clips : draws 0xD011 (spriteStart 0x3C#8 0x00#8 0xFF#8) 0x00#8 [0, 59, 60, 63] [60, 63] = true := by
  decide +kernel

theorem test_T6_8_drw_collides :
    draws 0xD011 (lit (spriteStart 0x00#8 0x00#8 0xA0#8) [0, 1]) 0x01#8 [0, 1, 2] [1, 2] = true := by decide +kernel

theorem test_T6_11_drw_faults_part_way :
    shows (step (placed 0xD012 (mem (base.setI 0xFFF) 0xFFF [0x80#8])))
      (fun t => decide (t.MODE = .faulted ∧ t.FCAUSE = some .memBounds ∧ t.FINFO = 0x1000#16 ∧ t.pc = 0x200#12 ∧
        t.getV 0xF#4 = 0x00#8 ∧ t.out.refresh = false) && rowOn t [0, 1] == [0]) = true := by
  decide +kernel

theorem test_T6_13_cls : draws 0x00E0 (lit (spriteStart 0x00#8 0x01#8 0x00#8) [0, 7]) 0x01#8 [0, 7] [] = true := by
  decide +kernel

/-! ## One tick: keys and timers (T7) -/

theorem test_T7_1_skp_pressed :
    vector 0xE59E ((base.setV 0x5#4 0x0A#8).setKey 0xA#4 true) (·.setPc 0x204) = true := by decide

theorem test_T7_5_skp_key_range : faults 0xE59E (base.setV 0x5#4 0x10#8) .keyRange 0x0010#16 = true := by decide
theorem test_T7_4_sknp_released : vector 0xE5A1 (base.setV 0x5#4 0x0A#8) (·.setPc 0x204) = true := by decide
theorem test_T7_6_sknp_key_range : faults 0xE5A1 (base.setV 0x5#4 0xFF#8) .keyRange 0x00FF#16 = true := by decide
theorem test_T7_8_ldVxK_held_key : vector 0xF30A (base.setKey 0x7#4 true) (awaiting · 0x3#4) = true := by decide

theorem test_T7_9_ldVxK_runs_the_timers :
    vectorWith ⟨0x00#8, false, true⟩ 0xF30A { base with ST := 0x05#8 }
      (fun s => { awaiting s 0x3#4 with ST := 0x04#8 }) { beep := true } = true := by decide

theorem test_T7_10_ldVxDt_reads_before_the_decrement :
    vectorWith ⟨0x00#8, true, false⟩ 0xF207 { base with DT := 0x3C#8 }
      (fun s => { s.setV 0x2#4 0x3C#8 with pc := 0x202#12, DT := 0x3B#8 }) = true := by decide

theorem test_T7_12_ldDtVx :
    vectorWith ⟨0x00#8, true, false⟩ 0xF215 (base.setV 0x2#4 0x3C#8)
      (fun s => { s with pc := 0x202#12, DT := 0x3B#8 }) = true := by decide

theorem test_T7_13_ldStVx_beeps :
    vectorWith ⟨0x00#8, false, true⟩ 0xF218 (base.setV 0x2#4 0x02#8)
      (fun s => { s with pc := 0x202#12, ST := 0x01#8 }) { beep := true } = true := by decide

theorem test_T7_15_both_timers :
    vectorWith ⟨0x00#8, true, true⟩ 0x1200 { base with DT := 0x01#8, ST := 0x01#8 }
      (fun s => { s with DT := 0x00#8, ST := 0x00#8 }) { beep := true } = true := by decide

theorem test_T7_19_waiting_tick :
    shows (step { awaiting base 0x3#4 with DT := 0x05#8, ST := 0x01#8, inputs := [.tick ⟨0x00#8, true, true⟩] })
      (same · { awaiting base 0x3#4 with DT := 0x04#8, ST := 0x00#8, out := { beep := true } }) = true := by decide

theorem test_T7_20_faulted_tick :
    shows (step { faulted base with DT := 0x05#8, ST := 0x01#8, inputs := [.tick ⟨0x00#8, true, true⟩] })
      (same · { faulted base with DT := 0x05#8, ST := 0x01#8, out := {} }) = true := by decide

/-! ## One tick: fetch (T8) -/

theorem test_T8_1_fetch_does_not_wrap :
    shows (step { mem (base.setPc 0xFFF) 0xFFF [0x12#8] with inputs := [.tick quiet] })
      (fun t => decide (t.MODE = .faulted ∧ t.FCAUSE = some .memBounds ∧ t.FINFO = 0x1000#16 ∧ t.pc = 0xFFF#12)) = true := by
  decide

theorem test_T8_2_last_word_then_pc_wraps :
    vector 0x6055 (base.setPc 0xFFE) (fun s => (s.setV 0x0#4 0x55#8).setPc 0x000) = true := by decide

theorem test_T8_3_odd_pc :
    vector 0x6155 (mem (base.setPc 0x201) 0x200 [0xFF#8]) (fun s => (s.setV 0x1#4 0x55#8).setPc 0x203) = true := by decide

theorem test_T8_5_family_F_unknown : faults 0xF000 base .illegalOpcode 0xF000#16 = true := by decide

/-! ## Host events (T9) -/

theorem test_T9_3_key_code_out_of_range : eventVector (.setKeyState 0x10#8 true) base id = true := by decide

theorem test_T9_5_press_of_a_held_key_ends_the_wait :
    eventVector (.setKeyState 0x07#8 true) (awaiting (base.setKey 0x7#4 true) 0x3#4)
      (fun s => { s.setV 0x3#4 0x07#8 with pc := 0x202#12, MODE := .running }) = true := by decide

theorem test_T9_6_release_does_not_end_the_wait :
    eventVector (.setKeyState 0x07#8 false) (awaiting (base.setKey 0x7#4 true) 0x3#4) (·.setKey 0x7#4 false) = true := by
  decide

/-- T9.11, T9.13 in one state: memory, keys stay. -/
theorem test_T9_11_reset :
    eventVector .reset (mem { faulted (base.setKey 0x4#4 true) with I := 0xABC#16, SP := 0xEA4, DT := 0x09#8 } 0x000 [0xAA#8])
      (fun s => { s with I := 0x0000#16, SP := 0xEA0, DT := 0x00#8, MODE := .running, FCAUSE := none, FINFO := 0x0000#16 })
      { refresh := true } = true := by decide

theorem test_T9_12_reset_ends_the_wait :
    eventVector .reset (awaiting (base.setPc 0x20C) 0x3#4)
      (fun s => { s with pc := 0x200#12, WAITREG := 0x0#4, MODE := .running }) { refresh := true } = true := by decide

theorem test_T9_23_loadROM_does_not_zero :
    eventVector (.loadROM [0x60#8, 0x0A#8]) (mem (base.setV 0x1#4 0x55#8) 0x200 [0x11#8, 0x22#8, 0x33#8, 0x44#8])
      (fun s => mem (s.setV 0x1#4 0x00#8) 0x200 [0x60#8, 0x0A#8]) { refresh := true } = true := by decide

theorem test_T9_14_debugSetPC_rejected :
    eventVector (.debugSetPC 0x1000#16) base id { errorReply := true } = true := by decide

theorem test_T9_16_debugSetReg_rejected :
    eventVector (.debugSetReg 16 0x12#8) base id { errorReply := true } = true := by decide

theorem test_T9_17_debugSetReg : eventVector (.debugSetReg 15 0xAB#8) base (·.setV 0xF#4 0xAB#8) = true := by decide

theorem test_T9_19_debugSetI : eventVector (.debugSetI 0x0FFF#16) base (·.setI 0xFFF) = true := by decide

theorem test_T9_21_writeByte_over_the_font :
    eventVector (.writeByte 0x000#12 0xAA#8) base (fun s => { s with MEM := [(0, 0xAA#8)] }) = true := by decide

/-- The memory stays canonical: writing the power-on byte back removes the entry. -/
theorem test_writeByte_back_to_power_on :
    eventVector (.writeByte 0x000#12 0xF0#8) (mem base 0x000 [0xAA#8]) (fun s => { s with MEM := [] }) = true := by decide

/-! ## Witnesses: states and operands that meet the hypotheses of the statements -/

/-- A tick that loads VA is next. -/
def loadStart : State := placed 0x6A42 base

/-- A tick that faults (SYS) is next. -/
def sysStart : State := placed 0x0123 base

theorem loadStart_inv : loadStart.Inv :=
  ⟨by decide, by decide, ⟨0, by decide, by decide⟩, by decide, by decide⟩

theorem loadStart_recordLegal : loadStart.recordLegal := by
  intro c h
  have : loadStart.FCAUSE = none := by decide
  rw [this] at h
  cases h

theorem loadStart_tickIsNext : TickIsNext loadStart := tickIsNext_of_tick (i := quiet) (rest := []) (by decide)

theorem loadStart_fetches : Fetches loadStart 0x6A42#16 := ⟨by decide, by decide, by decide⟩

theorem loadStart_decodes : decode (loadStart.wordAt loadStart.pc.toNat) = .ok (.ldImm 0xA#4 0x42#8) := by decide

theorem witness_DecodeInvertsEncode : (Instr.sys 0x0E1#12).wf = true ∧ (Instr.ldRegs 0xF#4).wf = true := by decide

theorem witness_EncodeInvertsDecode : decode 0x8124#16 = .ok (.addReg 0x1#4 0x2#4) := by decide

theorem witness_SecondDispatchFamilies :
    (0x0DF#12 ≠ 0x0E0#12 ∧ 0x0DF#12 ≠ 0x0EE#12) ∧ (0x0EF#12 ≠ 0x0E0#12 ∧ 0x0EF#12 ≠ 0x0EE#12) ∧
    (0x8#4).toNat ∈ [8, 9, 0xA, 0xB, 0xC, 0xD, 0xF] ∧ (0xF#4).toNat ∈ [8, 9, 0xA, 0xB, 0xC, 0xD, 0xF] ∧
    (0x9F#8).toNat ∉ [0x9E, 0xA1] ∧ (0x0B#8).toNat ∉ [0x07, 0x0A, 0x15, 0x18, 0x1E, 0x29, 0x33, 0x55, 0x65] ∧
    Fetches (placed 0x8128 base) (0x8#4 ++ 0x1#4 ++ 0x2#4 ++ 0x8#4) ∧
    Fetches (placed 0x812F base) (0x8#4 ++ 0x1#4 ++ 0x2#4 ++ 0xF#4) ∧
    Fetches (placed 0xE59F base) (0xE#4 ++ 0x5#4 ++ 0x9F#8) ∧
    Fetches (placed 0xF20B base) (0xF#4 ++ 0x2#4 ++ 0x0B#8) :=
  ⟨by decide, by decide, by decide, by decide, by decide, by decide, ⟨by decide, by decide, by decide⟩,
    ⟨by decide, by decide, by decide⟩, ⟨by decide, by decide, by decide⟩, ⟨by decide, by decide, by decide⟩⟩

theorem witness_ReservedWordsOfFamilies5And9 :
    (0x1#4 ≠ 0x0#4 ∧ 0xF#4 ≠ 0x0#4) ∧
    Fetches (placed 0x5121 base) (0x5#4 ++ 0x1#4 ++ 0x2#4 ++ 0x1#4) ∧
    Fetches (placed 0x912F base) (0x9#4 ++ 0x1#4 ++ 0x2#4 ++ 0xF#4) :=
  ⟨by decide, ⟨by decide, by decide, by decide⟩, ⟨by decide, by decide, by decide⟩⟩

theorem witness_StepRunsDecodedInstruction :
    (∃ s : State, ∃ e rest, s.inputs = .event e :: rest) ∧
    (TickIsNext sysStart ∧ Fetches sysStart 0x0123#16 ∧ decode 0x0123#16 = .ok (.sys 0x123#12) ∧
      ∃ t, exec (.sys 0x123#12) { sysStart with out := {} } = .next t ∧ t.MODE = .faulted) ∧
    (TickIsNext loadStart ∧ Fetches loadStart 0x6A42#16 ∧ decode 0x6A42#16 = .ok (.ldImm 0xA#4 0x42#8) ∧
      ∃ t, exec (.ldImm 0xA#4 0x42#8) { loadStart with out := {} } = .next t ∧ t.MODE ≠ .faulted) :=
  ⟨⟨{ base with inputs := [.event .reset] }, .reset, [], rfl⟩,
    ⟨tickIsNext_of_tick (i := quiet) (rest := []) (by decide), ⟨by decide, by decide, by decide⟩, by decide, _, rfl,
      by decide⟩,
    ⟨loadStart_tickIsNext, loadStart_fetches, by decide, _, rfl, by decide⟩⟩

theorem witness_AwaitingTickRunsTimersOnly : (awaiting base 0x3#4).MODE = .awaitingKey := by decide

theorem witness_FaultedTickDoesNothing : (faulted base).MODE = .faulted ∧ TickIsNext (faulted base) :=
  ⟨by decide, tickIsNext_of_empty (by decide)⟩

theorem witness_FetchIsBigEndianAndBounded :
    ((base.setPc 0xFFF).MODE = .running ∧ (base.setPc 0xFFF).pc = 0xFFF#12) ∧ (base.setPc 0xFFE).pc ≠ 0xFFF#12 := by
  decide

theorem witness_FaultEntryKeepsPcAndTimers :
    sysStart.MODE = .running ∧ sysStart.stackLegal ∧ ∃ t, tick sysStart = .next t ∧ t.MODE = .faulted :=
  ⟨by decide, ⟨0, by decide, by decide⟩, _, rfl, by decide⟩

theorem witness_SysAlwaysFaults :
    (0x0E1#12 ≠ 0x0E0#12 ∧ 0x0E1#12 ≠ 0x0EE#12) ∧ (0x0ED#12 ≠ 0x0E0#12 ∧ 0x0ED#12 ≠ 0x0EE#12) := by decide

/-- The base state with `k` entries stacked. -/
def stacked (k : Nat) : State := { base with SP := 0xEA0 + 2 * k }

theorem stacked_legal (k : Nat) (h : k ≤ 24) : (stacked k).stackLegal := ⟨k, h, rfl⟩

theorem witness_ReturnPopsTheStack :
    ((stacked 1).stackLegal ∧ (stacked 1).SP > (stacked 1).params.stackBase.val) ∧
    ((stacked 24).stackLegal ∧ (stacked 24).SP > (stacked 24).params.stackBase.val) ∧
    ((stacked 0).stackLegal ∧ (stacked 0).SP = (stacked 0).params.stackBase.val) :=
  ⟨⟨stacked_legal 1 (by decide), by decide⟩, ⟨stacked_legal 24 (by decide), by decide⟩,
    ⟨stacked_legal 0 (by decide), by decide⟩⟩

/-- Also the hypotheses of CallThenReturnContinues. -/
theorem witness_CallPushesReturnAddress :
    ((stacked 23).stackLegal ∧ (stacked 23).SP < (stacked 23).params.stackBase.val + 48) ∧
    ((stacked 24).stackLegal ∧ (stacked 24).SP = (stacked 24).params.stackBase.val + 48) :=
  ⟨⟨stacked_legal 23 (by decide), by decide⟩, ⟨stacked_legal 24 (by decide), by decide⟩⟩

theorem witness_StackRoundTrip :
    (stacked 0).SP = (stacked 0).params.stackBase.val + 2 * 0 ∧ (stacked 23).SP = (stacked 23).params.stackBase.val + 2 * 23 ∧
    (stacked 24).SP = (stacked 24).params.stackBase.val + 2 * 24 := by decide

theorem witness_JumpToSelfSpins :
    SpinsAt 0x200#12 (placed 0x1200 base) ∧ TickIsNext (placed 0x1200 base) ∧
    SpinsAt 0xFFE#12 (placed 0x1FFE (base.setPc 0xFFE)) :=
  ⟨⟨by decide, by decide, by decide⟩, tickIsNext_of_tick (i := quiet) (rest := []) (by decide),
    ⟨by decide, by decide, by decide⟩⟩

/-- Both outcomes of each comparison are met: 0x42 = 0x42, 0x42 ≠ 0x43. -/
theorem witness_RegisterSkips :
    ((pair 0x42#8).getV 0x1#4).toNat = ((pair 0x42#8).getV 0x2#4).toNat ∧
    ((pair 0x43#8).getV 0x1#4).toNat ≠ ((pair 0x43#8).getV 0x2#4).toNat := by decide

theorem witness_KeySkips :
    ((base.setV 0x5#4 0x0F#8).getV 0x5#4).toNat = (0xF#4).toNat ∧ ((base.setV 0x5#4 0x10#8).getV 0x5#4).toNat > 0x0F := by
  decide

/-- For AddWithCarry, SubtractForms, ShiftForms. -/
theorem witness_destination_is_not_the_flag : 0xE#4 ≠ 0xF#4 := by decide

theorem witness_RandomByteUnderMask :
    (placedWith ⟨0xA7#8, true, false⟩ 0xC30F base).inputs = .tick ⟨0xA7#8, true, false⟩ :: [] := by decide

theorem witness_AddToAddressRegister :
    ((three 0x00#8 0x01#8 0x00#8).setI 0xFFF).I.toNat ≤ 0xFFF ∧
    ((three 0x00#8 0x01#8 0x00#8).setI 0xFFF).I.toNat + ((three 0x00#8 0x01#8 0x00#8).getV 0x2#4).toNat > 0xFFF ∧
    ((three 0x00#8 0x01#8 0x00#8).setI 0xFFE).I.toNat + ((three 0x00#8 0x01#8 0x00#8).getV 0x2#4).toNat ≤ 0xFFF := by
  decide

/-- The last `I` at which all three digits fit, and the two at which they do not. -/
theorem witness_BcdStore :
    (base.setI 0xFFD).I.toNat + 2 ≤ 0xFFF ∧ (base.setI 0xFFE).I.toNat + 1 ≤ 0xFFF ∧ (base.setI 0xFFE).I.toNat + 2 > 0xFFF ∧
    (base.setI 0xFFF).I.toNat ≤ 0xFFF ∧ (base.setI 0xFFF).I.toNat + 2 > 0xFFF := by decide

/-- For StoreRegisters and LoadRegisters, with X = 2: the last `I` that fits and the first that does not. -/
theorem witness_BlockTransfers :
    (base.setI 0xFFD).I.toNat ≤ 0xFFF ∧ (0x2#4).toNat ≤ (0x2#4).toNat ∧ (base.setI 0xFFD).I.toNat + (0x2#4).toNat ≤ 0xFFF ∧
    (base.setI 0xFFE).I.toNat ≤ 0xFFF ∧ (base.setI 0xFFE).I.toNat + (0x2#4).toNat > 0xFFF ∧
    (0x3#4).toNat > (0x2#4).toNat := by decide

theorem witness_DumpThenLoadRestores :
    ∃ s t u : State, ∃ x : Nibble, s.I.toNat + x.toNat ≤ 0xFFF ∧ exec (.stRegs x) s = .next t ∧ u.I = t.I ∧
      AllMemoryKept t u :=
  ⟨base.setI 0xFFE, _, _, 0x1#4, by decide, rfl, rfl, fun _ => rfl⟩

theorem witness_StoreIsSeenByTheNextFetch :
    (base.setI 0x202).I.toNat + (0x1#4).toNat ≤ 0xFFF ∧ (0x1#4).toNat = (0x0#4).toNat + 1 ∧ (0x1#4).toNat ≤ (0x1#4).toNat ∧
    ((base.setI 0x202).pc + 2#12).toNat = (base.setI 0x202).I.toNat + (0x0#4).toNat := by decide

theorem witness_DrawSprite :
    (base.setI 0xFFF).I.toNat ≤ 0xFFF ∧ (base.setI 0xFFF).I.toNat + (0x1#4).toNat ≤ 0x1000 ∧
    (base.setI 0xFFF).I.toNat + (0x2#4).toNat > 0x1000 := by decide

theorem witness_DrawingTwiceRestores :
    ∃ t u : State, ∃ c d : Bool, drawSprite 60 31 1 0 base = .done c t ∧ drawSprite 60 31 1 0 t = .done d u :=
  ⟨_, _, _, _, rfl, rfl⟩

theorem witness_WaitForKeyPress :
    (Fetches (placed 0xF30A base) 0xF30A#16 ∧ decode 0xF30A#16 = .ok (.ldVxK 0x3#4)) ∧
    ((awaiting base 0x3#4).MODE = .awaitingKey ∧ (awaiting base 0x3#4).WAITREG = 0x3#4) ∧ (0x10#8).toNat > 0x0F :=
  ⟨⟨⟨by decide, by decide, by decide⟩, by decide⟩, by decide, by decide⟩

/-- The boundary cells of the font and of the zeros above it. -/
theorem witness_PowerOnValues :
    15 < 16 ∧ 4 < 5 ∧ 0x50 ≤ 0x50 ∧ 0xFFF ≤ 0xFFF ∧ base.byteAt 0x04F = 0x80#8 ∧ base.byteAt 0x050 = 0x00#8 := by decide

theorem witness_LoadRomCopiesTheImage :
    (List.replicate 3584 0xFF#8).length ≤ 3584 ∧ (List.replicate 3585 0xFF#8).length > 3584 := by
  simp only [List.length_replicate]
  decide

theorem witness_SetKeyStateLaw :
    (0x10#8).toNat > 0x0F ∧ (0x0F#8).toNat = (0xF#4).toNat ∧ (awaiting base 0x3#4).MODE = .awaitingKey ∧
    base.MODE ≠ .awaitingKey := by decide

theorem witness_DebugWritesAreRangeChecked :
    (0x0FFF#16).toNat ≤ 0xFFF ∧ (0x1000#16).toNat > 0xFFF ∧ 15 = (0xF#4).toNat ∧ 16 > 15 := by decide

theorem witness_HostMemoryAndKeyPorts : (0x0F#8).toNat = (0xF#4).toNat ∧ (0x10#8).toNat > 0x0F := by decide

/-- Also the hypotheses of EveryStepKeepsFaultRecordLegal. -/
theorem witness_EveryStepKeepsInvariant :
    loadStart.Inv ∧ loadStart.recordLegal ∧ ∃ t, step loadStart = .next t ∧ t.getV 0xA#4 = 0x42#8 :=
  ⟨loadStart_inv, loadStart_recordLegal, _, rfl, by decide⟩

/-- The five kinds of transition. -/
theorem witness_ModeTransitions :
    ∀ s ∈ [placed 0xF30A base, { awaiting base 0x3#4 with inputs := [.event (.setKeyState 0x0F#8 true)] }, sysStart,
      { faulted base with inputs := [.event .reset] }, { faulted base with inputs := [.event (.loadROM [0x12#8, 0x00#8])] }],
    ∃ t, step s = .next t ∧ decide (t.MODE ≠ s.MODE) = true := by
  intro s hs
  apply shows_next (p := fun t => decide (t.MODE ≠ s.MODE))
  simp only [List.mem_cons, List.not_mem_nil, or_false] at hs
  obtain rfl | rfl | rfl | rfl | rfl := hs <;> decide

theorem witness_StackPointerWriters :
    ∀ s ∈ [placed 0x2300 (stacked 23), placed 0x00EE (stacked 24), { stacked 1 with inputs := [.event .reset] },
      { stacked 1 with inputs := [.event (.loadROM [])] }],
    s.stackLegal ∧ ∃ t, step s = .next t ∧ decide (t.SP ≠ s.SP) = true := by
  intro s hs
  simp only [List.mem_cons, List.not_mem_nil, or_false] at hs
  obtain rfl | rfl | rfl | rfl := hs
  · exact ⟨⟨23, by decide, by decide⟩, shows_next (by decide)⟩
  · exact ⟨⟨24, by decide, by decide⟩, shows_next (by decide)⟩
  · exact ⟨⟨1, by decide, by decide⟩, shows_next (by decide)⟩
  · exact ⟨⟨1, by decide, by decide⟩, shows_next (by decide)⟩

/-- A state in which each of the sixteen kinds of writer changes VF. -/
def flagStart : State := placed 0x6000 (three 0xF3#8 0x02#8 0x55#8)

theorem witness_FlagWriters :
    ∀ i ∈ [Instr.addReg 0x1#4 0x1#4, .sub 0x1#4 0x2#4, .shr 0x1#4 0x2#4, .subn 0x1#4 0x2#4, .shl 0xF#4 0x2#4, .addI 0x1#4,
      .drw 0x0#4 0x0#4 0x5#4, .ldImm 0xF#4 0x00#8, .addImm 0xF#4 0x01#8, .rnd 0xF#4 0xFF#8, .ldReg 0xF#4 0x1#4,
      .orReg 0xF#4 0x1#4, .andReg 0xF#4 0x1#4, .xorReg 0xF#4 0x1#4, .ldVxDt 0xF#4, .ldRegs 0xF#4],
    shows (exec i flagStart) (fun t => decide (t.getV 0xF#4 ≠ flagStart.getV 0xF#4)) = true := by decide +kernel

theorem witness_AddressRegisterWriters :
    ∀ i ∈ [Instr.ldI 0x300#12, .addI 0x1#4, .ldF 0x1#4],
    shows (exec i flagStart) (fun t => decide (t.I ≠ flagStart.I)) = true := by decide

/-- The last byte each of the three can change. -/
theorem witness_MemoryWriters :
    (shows (exec (.call 0x300#12) (stacked 23)) (fun t => t.byteAt 0xECF != (stacked 23).byteAt 0xECF) &&
      shows (exec (.ldB 0x7#4) (bcdStart 0x7B#8 0xFFD)) (fun t => t.byteAt 0xFFF != 0x00#8) &&
      shows (exec (.stRegs 0x7#4) (bcdStart 0x7B#8 0xFF8)) (fun t => t.byteAt 0xFFF != 0x00#8)) = true := by decide

theorem witness_ScreenAndKeyWriters :
    (∀ s ∈ [placed 0x00E0 (lit base [3]), placed 0xD005 base, { lit base [3] with inputs := [.event .reset] },
        { lit base [3] with inputs := [.event (.loadROM [])] }],
      shows (step s) (fun t => Framebuffer.pixel t.FB 3 0 != Framebuffer.pixel s.FB 3 0) = true) ∧
    shows (step { base with inputs := [.event (.setKeyState 0x0F#8 true)] }) (fun t => decide (t.K ≠ base.K)) = true := by
  decide +kernel

/-- The clauses on a timer's own write: LD_DT_VX, LD_ST_VX with a falling strobe. -/
theorem witness_TimersOnlyCountDown :
    (shows (step (placedWith ⟨0x00#8, true, true⟩ 0xF215 (base.setV 0x2#4 0x3C#8))) (fun t => t.DT == 0x3B#8) &&
      shows (step (placedWith ⟨0x00#8, true, true⟩ 0xF218 (base.setV 0x2#4 0x3C#8))) (fun t => t.ST == 0x3B#8)) = true := by
  decide

theorem witness_KeysReachOnlyKeySkips :
    (∃ t, tick loadStart = .next t) ∧ (∀ x, decode (loadStart.wordAt loadStart.pc.toNat) ≠ .ok (.skp x)) ∧
    (∀ x, decode (loadStart.wordAt loadStart.pc.toNat) ≠ .ok (.sknp x)) := by
  refine ⟨⟨_, rfl⟩, ?_, ?_⟩ <;> intro x <;> rw [loadStart_decodes] <;> intro h <;> cases h

theorem witness_RandomReachesOnlyRnd :
    loadStart.inputs = .tick ⟨0x00#8, false, false⟩ :: [] ∧
    (∀ x nn, decode (loadStart.wordAt loadStart.pc.toNat) ≠ .ok (.rnd x nn)) ∧ ∃ t, step loadStart = .next t := by
  refine ⟨by decide, ?_, ⟨_, rfl⟩⟩
  intro x nn
  rw [loadStart_decodes]
  intro h
  cases h

/-- The last valid address and the first invalid one, for WriteThenRead and OutOfRangeIsNeverWrapped. -/
theorem witness_address_boundary : 0xFFF ≤ 0xFFF ∧ 0x1000 > 0xFFF := by decide

theorem witness_CanonicalMemoryIsUnique :
    Memory.wf defaultFont [(0x000, 0xAA#8), (0xFFF, 0x01#8)] = true ∧
    Memory.wf defaultFont (mem (mem base 0xFFF [0x01#8]) 0x000 [0xAA#8]).MEM = true ∧
    ∀ a, Memory.get defaultFont [(0x000, 0xAA#8), (0xFFF, 0x01#8)] a =
      Memory.get defaultFont (mem (mem base 0xFFF [0x01#8]) 0x000 [0xAA#8]).MEM a :=
  ⟨by decide, by decide, fun _ => rfl⟩

end Sys2Proof.Tests
end

section
/-! PROOFS. The stack of 20_memory.md (R53 to R55): the state after a completed push, and the pop that undoes it. -/

namespace Sys2Proof.Machine

/-- The state after a completed `Push(v)` (R53): the word stands big-endian at the old `SP`, and `SP` is past it. -/
def State.pushed (v : Word) (s : State) : State :=
  { setBytes [highByte v, lowByte v] s.SP s with SP := s.SP + 2 }

@[simp] theorem pushed_SP (v : Word) (s : State) : (s.pushed v).SP = s.SP + 2 := rfl

@[simp] theorem pushed_params (v : Word) (s : State) : (s.pushed v).params = s.params := rfl

theorem byteAt_pushed (v : Word) (s : State) (b : Nat) :
    (s.pushed v).byteAt b = (setBytes [highByte v, lowByte v] s.SP s).byteAt b := rfl

/-- The word pushed stands where `SP` was (R49, R48). -/
@[simp] theorem wordAt_pushed (v : Word) (s : State) : (s.pushed v).wordAt s.SP = v := by
  simp [State.wordAt, byteAt_pushed, byteAt_setBytes, bigEndian_high_low]

theorem push_of_lt {s : State} (v : Word) (h : s.stackLegal) (hlt : s.SP < s.params.stackBase.val + 48) :
    push v s = .done () (s.pushed v) := by
  obtain ⟨-, hp⟩ | ⟨hfull, -⟩ := push_legal v h
  · exact hp
  · omega

theorem push_of_full {s : State} (v : Word) (h : s.stackLegal) (hfull : s.SP = s.params.stackBase.val + 48) :
    push v s = .raised .stackOverflow v.toNat s := by
  obtain ⟨hlt, -⟩ | ⟨-, hp⟩ := push_legal v h
  · omega
  · exact hp

/-- A completed push leaves a legal stack pointer, so pushes chain up to the ceiling (R17). -/
theorem pushed_stackLegal {s : State} (v : Word) (h : s.stackLegal) (hlt : s.SP < s.params.stackBase.val + 48) :
    (s.pushed v).stackLegal := by
  obtain ⟨k, -, hs⟩ := h
  exact ⟨k + 1, by omega, by simp; omega⟩

/-- `Pop` after a completed `Push(v)` gives `v`, and `SP` is where it was before the push (R54). -/
theorem pop_pushed {s : State} (v : Word) (h : s.stackLegal) (hlt : s.SP < s.params.stackBase.val + 48) :
    pop (s.pushed v) = .done v { s.pushed v with SP := s.SP } := by
  have hbase : s.params.stackBase.val ≤ s.SP := by obtain ⟨k, -, hs⟩ := h; omega
  obtain ⟨-, hp⟩ | ⟨hempty, -⟩ := pop_legal (pushed_stackLegal v h hlt)
  · simpa using hp
  · simp at hempty; omega

/-- Settles O16: below the ceiling a push completes and `pop_pushed` undoes it; at 24 entries the push raises. -/
theorem stackRoundTrip : Obligations.StackRoundTrip := by
  intro s v k hs
  constructor
  · intro hk
    have hlegal : s.stackLegal := ⟨k, by omega, hs⟩
    have hlt : s.SP < s.params.stackBase.val + 48 := by omega
    exact ⟨s.pushed v, push_of_lt v hlegal hlt, by simp; omega, pop_pushed v hlegal hlt⟩
  · rintro rfl
    exact push_of_full v ⟨24, le_refl _, hs⟩ hs

end Sys2Proof.Machine
end

section
/-! PROOFS. The second dispatch of 30_encoding.md (R75 to R78): what a word of families 0, 8, E and F decodes to, and the
tick that fetches a word the decoder rejects. -/

namespace Sys2Proof

theorem decode_family0 (nnn : Addr) : decode (0x0#4 ++ nnn) = .ok (decodeFamily0 nnn) := by
  rw [decode_addr]
  exact congrArg (fun a => Except.ok (decodeFamily0 a)) (address_split nnn)

theorem decode_family8 (x y n : Nibble) :
    decode (0x8#4 ++ x ++ y ++ n) = decodeFamily8 (0x8#4 ++ x ++ y ++ n) x y n :=
  decode_nibbles 0x8#4 x y n

theorem decode_familyE (x : Nibble) (nn : Byte) :
    decode (0xE#4 ++ x ++ nn) = decodeFamilyE (0xE#4 ++ x ++ nn) x nn := by
  rw [decode_ximm]
  exact congrArg (decodeFamilyE _ x) (immediate_split nn)

theorem decode_familyF (x : Nibble) (nn : Byte) :
    decode (0xF#4 ++ x ++ nn) = decodeFamilyF (0xF#4 ++ x ++ nn) x nn := by
  rw [decode_ximm]
  exact congrArg (decodeFamilyF _ x) (immediate_split nn)

theorem decodeFamily0_sys {nnn : Addr} (hcls : nnn ≠ 0x0E0#12) (hret : nnn ≠ 0x0EE#12) :
    decodeFamily0 nnn = .sys nnn := by
  rw [decodeFamily0, if_neg hcls, if_neg hret]

theorem decodeFamily8_unknown {n : Nibble} (w : Word) (x y : Nibble)
    (h : n.toNat ∈ [8, 9, 0xA, 0xB, 0xC, 0xD, 0xF]) : decodeFamily8 w x y n = .error (.unknownFamily8 w) := by
  unfold decodeFamily8
  split
  case h_10 => rfl
  all_goals exact absurd h (by decide)

theorem decodeFamilyE_unknown {nn : Byte} (w : Word) (x : Nibble) (h : nn.toNat ∉ [0x9E, 0xA1]) :
    decodeFamilyE w x nn = .error (.unknownFamilyE w) := by
  unfold decodeFamilyE
  split
  case h_3 => rfl
  all_goals exact absurd (by decide) h

theorem decodeFamilyF_unknown {nn : Byte} (w : Word) (x : Nibble)
    (h : nn.toNat ∉ [0x07, 0x0A, 0x15, 0x18, 0x1E, 0x29, 0x33, 0x55, 0x65]) :
    decodeFamilyF w x nn = .error (.unknownFamilyF w) := by
  unfold decodeFamilyF
  split
  case h_10 => rfl
  all_goals exact absurd (by decide) h

end Sys2Proof

namespace Sys2Proof.Machine

theorem takeFault_faultedFrom (c : Cause) (info : Nat) (s : State) :
    FaultedFrom s (takeFault c info s) c (BitVec.ofNat 16 info) := rfl

theorem fetch_of_fetches {s : State} {w : Word} (h : Fetches s w) : fetch s = .done w s := by
  have hpc : s.pc.toNat + 1 < 4096 := Nat.succ_lt_succ h.pc
  rw [fetch, memReadWord_valid s hpc, h.word]

/-- A tick that fetches a word the decoder rejects is fault entry, and the timer phase is skipped (R92, R94). -/
theorem tick_of_decode_error {s : State} {w : Word} {e : DecodeError} (h : Fetches s w) (hd : decode w = .error e) :
    tick s = .next (takeFault .illegalOpcode w.toNat s) := by
  simp only [tick, h.mode, tickRunning, fetch_of_fetches h, hd]

/-- What the statements say of an unrecognized word. -/
theorem rejected_of_decode_error {w : Word} {e : DecodeError} (hd : decode w = .error e) :
    (∃ e, decode w = .error e) ∧
      ∀ s : State, Fetches s w → ∃ t, tick s = .next t ∧ FaultedFrom s t .illegalOpcode w := by
  refine ⟨⟨e, hd⟩, fun s h => ⟨_, tick_of_decode_error h hd, ?_⟩⟩
  simpa using takeFault_faultedFrom .illegalOpcode w.toNat s

/-- Settles O3: each family is its own second dispatch (`decode_family0`, `decode_family8`, `decode_familyE`,
`decode_familyF`), read off at the listed selectors; at every other one the dispatch rejects the word. -/
theorem secondDispatchFamilies : Obligations.SecondDispatchFamilies := by
  refine ⟨decode_family0 0x0E0#12, decode_family0 0x0EE#12, fun nnn hcls hret => ?_, fun x y n => ?_, fun x nn => ?_⟩
  · rw [decode_family0, decodeFamily0_sys hcls hret]
  · refine ⟨?_, ?_, ?_, ?_, ?_, ?_, ?_, ?_, ?_,
      fun hn => rejected_of_decode_error ((decode_family8 x y n).trans (decodeFamily8_unknown _ x y hn))⟩
    all_goals rintro rfl; exact decode_family8 x y _
  · refine ⟨?skp, ?sknp,
      fun hnn => rejected_of_decode_error ((decode_familyE x nn).trans (decodeFamilyE_unknown _ x hnn)),
      ?_, ?_, ?_, ?_, ?_, ?_, ?_, ?_, ?_,
      fun hnn => rejected_of_decode_error ((decode_familyF x nn).trans (decodeFamilyF_unknown _ x hnn))⟩
    case skp | sknp => rintro rfl; exact decode_familyE x _
    all_goals rintro rfl; exact decode_familyF x _

end Sys2Proof.Machine
end

section
/-! PROOFS. The timer phase and the fetch of 40_execution_cycle.md (R93, R97, R98): what the phase does to each timer and to
the beep, and the fetch at and below the last address. -/

namespace Sys2Proof.Machine

/-- A timer's new value in Nat: its strobe takes one off, and a timer at 0 stays there (R97). -/
theorem toNat_countDown (v : Byte) (due : Bool) :
    (if v ≠ 0x00#8 ∧ due = true then v - 1#8 else v).toNat = if due = true then v.toNat - 1 else v.toNat := by
  by_cases hz : v = 0x00#8
  · simp [hz]
  · have hsub : (v - 1#8).toNat = v.toNat - 1 := by bv_omega
    cases due <;> simp [hz, hsub]

theorem delayTimerPhase_rest (s : State) : delayTimerPhase s = { s with DT := (delayTimerPhase s).DT } := by
  unfold delayTimerPhase; split <;> rfl

theorem soundTimerPhase_rest (s : State) :
    soundTimerPhase s = { s with ST := (soundTimerPhase s).ST, out := (soundTimerPhase s).out } := by
  unfold soundTimerPhase; split <;> rfl

theorem toNat_delayTimerPhase_DT (s : State) :
    (delayTimerPhase s).DT.toNat = if s.tickInputs.dueDt = true then s.DT.toNat - 1 else s.DT.toNat := by
  rw [← toNat_countDown, delayTimerPhase, apply_ite State.DT]

theorem toNat_soundTimerPhase_ST (s : State) :
    (soundTimerPhase s).ST.toNat = if s.tickInputs.dueSt = true then s.ST.toNat - 1 else s.ST.toNat := by
  rw [← toNat_countDown, soundTimerPhase, apply_ite State.ST]
  rfl

/-- Of the outputs only `beep` can change: it is raised exactly when the sound timer fell from above 0 (R97, R217). -/
theorem soundTimerPhase_out (s : State) :
    (soundTimerPhase s).out = { s.out with beep := s.out.beep || (s.tickInputs.dueSt && decide (s.ST.toNat > 0)) } := by
  unfold soundTimerPhase
  by_cases hz : s.ST = 0x00#8
  · simp [hz]
  · have hpos : s.ST.toNat > 0 := by bv_omega
    by_cases hdue : s.tickInputs.dueSt = true <;> simp [hz, hdue, hpos, emitBeep]

/-- The timer phase touches the two timers and the outputs, nothing else (R97). -/
theorem timerPhase_rest (s : State) :
    timerPhase s = { s with DT := (timerPhase s).DT, ST := (timerPhase s).ST, out := (timerPhase s).out } := by
  conv_lhs => rw [timerPhase, soundTimerPhase_rest]
  simp [timerPhase]

theorem toNat_timerPhase_DT (s : State) :
    (timerPhase s).DT.toNat = if s.tickInputs.dueDt = true then s.DT.toNat - 1 else s.DT.toNat := by
  rw [timerPhase, soundTimerPhase_DT, toNat_delayTimerPhase_DT]

theorem toNat_timerPhase_ST (s : State) :
    (timerPhase s).ST.toNat = if s.tickInputs.dueSt = true then s.ST.toNat - 1 else s.ST.toNat := by
  rw [timerPhase, toNat_soundTimerPhase_ST, delayTimerPhase_tickInputs, delayTimerPhase_ST]

theorem timerPhase_out (s : State) :
    (timerPhase s).out = { s.out with beep := s.out.beep || (s.tickInputs.dueSt && decide (s.ST.toNat > 0)) } := by
  rw [timerPhase, soundTimerPhase_out, delayTimerPhase_out, delayTimerPhase_tickInputs, delayTimerPhase_ST]

theorem tick_of_awaitingKey {s : State} (h : s.MODE = .awaitingKey) : tick s = .next (timerPhase s) := by
  rw [tick, h]

/-- Settles O8: the tick is the timer phase alone (`tick_of_awaitingKey`), and the lemmas above say all it does. -/
theorem awaitingTickRunsTimersOnly : Obligations.AwaitingTickRunsTimersOnly := fun s h =>
  ⟨timerPhase s, tick_of_awaitingKey h, toNat_timerPhase_DT s, toNat_timerPhase_ST s, timerPhase_out s, timerPhase_rest s⟩

/-- The second byte of the instruction at 0xFFF would stand at 0x1000, which is invalid (R93). -/
theorem fetch_at_top {s : State} (h : s.pc = 0xFFF#12) : fetch s = .raised .memBounds 0x1000 s := by
  rw [fetch, h]
  exact memReadWord_top s

theorem fetch_below_top {s : State} (h : s.pc ≠ 0xFFF#12) : fetch s = .done (s.wordAt s.pc.toNat) s :=
  memReadWord_valid s (by bv_omega)

/-- A tick whose fetch raises is fault entry from the state fetched in: the timer phase is skipped (R92, R93). -/
theorem tick_of_fetch_raised {s : State} {c : Cause} {info : Nat} (hmode : s.MODE = .running)
    (hf : fetch s = .raised c info s) : tick s = .next (takeFault c info s) := by
  simp only [tick, hmode, tickRunning, hf]

/-- Settles O10: at 0xFFF the fetch raises and the tick is fault entry; below it both bytes are valid. -/
theorem fetchIsBigEndianAndBounded : Obligations.FetchIsBigEndianAndBounded := by
  intro s
  constructor
  · intro hmode hpc
    exact ⟨_, tick_of_fetch_raised hmode (fetch_at_top hpc), takeFault_faultedFrom .memBounds 0x1000 s⟩
  · intro hpc
    exact ⟨s.wordAt s.pc.toNat, fetch_below_top hpc, toNat_bigEndian _ _⟩

end Sys2Proof.Machine
end

section
/-! PROOFS. SYS and RET of 41_flow.md (R110, R111): the fault SYS always takes, and the pop of a legal stack that RET
continues at. -/

namespace Sys2Proof.Machine

theorem exec_sys (nnn : Addr) (s : State) :
    exec (.sys nnn) s = .next (takeFault .machineCall (0x0#4 ++ nnn).toNat s) := rfl

theorem exec_ret (s : State) : exec .ret s = conclude (pop s) (fun t u => u.setPc t.toNat) := rfl

/-- Settles O12: the word is family 0's and neither CLS's nor RET's, and `exec_sys` is the fault entry with that word. -/
theorem sysAlwaysFaults : Obligations.SysAlwaysFaults := by
  intro s nnn hcls hret
  refine ⟨?decodes, _, exec_sys nnn s, ?faults⟩
  case decodes => rw [decode_family0, decodeFamily0_sys hcls hret]
  case faults => simpa using takeFault_faultedFrom .machineCall (0x0#4 ++ nnn).toNat s

theorem pop_of_gt {s : State} (h : s.stackLegal) (hgt : s.SP > s.params.stackBase.val) :
    pop s = .done (s.wordAt (s.SP - 2)) { s with SP := s.SP - 2 } := by
  obtain ⟨-, hp⟩ | ⟨hempty, -⟩ := pop_legal h
  · exact hp
  · omega

theorem pop_of_empty {s : State} (h : s.stackLegal) (hempty : s.SP = s.params.stackBase.val) :
    pop s = .raised .stackUnderflow 0 s := by
  obtain ⟨hge, -⟩ | ⟨-, hp⟩ := pop_legal h
  · omega
  · exact hp

/-- A stack that holds an entry holds a whole one: its lower byte stands right below `SP` (R48, R54). -/
theorem toNat_wordAt_top {s : State} (h : s.stackLegal) (hgt : s.SP > s.params.stackBase.val) :
    (s.wordAt (s.SP - 2)).toNat = 256 * (s.byteAt (s.SP - 2)).toNat + (s.byteAt (s.SP - 1)).toNat := by
  have hlow : s.SP - 2 + 1 = s.SP - 1 := by obtain ⟨k, -, hs⟩ := h; omega
  rw [State.wordAt, toNat_bigEndian, hlow]

theorem exec_ret_of_gt {s : State} (h : s.stackLegal) (hgt : s.SP > s.params.stackBase.val) :
    exec .ret s = .next (({ s with SP := s.SP - 2 } : State).setPc (s.wordAt (s.SP - 2)).toNat) := by
  rw [exec_ret, pop_of_gt h hgt, conclude_done]

theorem exec_ret_of_empty {s : State} (h : s.stackLegal) (hempty : s.SP = s.params.stackBase.val) :
    exec .ret s = .next (takeFault .stackUnderflow 0 s) := by
  rw [exec_ret, pop_of_empty h hempty, conclude_raised]

/-- Settles O13: RET ends in the two ways `Pop` can (`exec_ret_of_gt`, `exec_ret_of_empty`); `pc` keeps 12 bits of the word
on top of the stack. -/
theorem returnPopsTheStack : Obligations.ReturnPopsTheStack := by
  refine ⟨decode_family0 0x0EE#12, fun s hlegal => ⟨fun hgt => ?popped, fun hempty => ?empty⟩⟩
  case popped =>
    refine ⟨_, exec_ret_of_gt hlegal hgt, ?_, rfl, fun _ => rfl, rfl⟩
    rw [setPc_pc, BitVec.toNat_ofNat, toNat_wordAt_top hlegal hgt]
  case empty => exact ⟨_, exec_ret_of_empty hlegal hempty, takeFault_faultedFrom .stackUnderflow 0 s⟩

end Sys2Proof.Machine
end

section
/-! PROOFS. The register skips of 42_skip.md (R120 to R124): what a skip does to `pc`, that it does nothing else, and which
comparison each of the four makes. -/

namespace Sys2Proof

theorem decode_seImm (x : Nibble) (nn : Byte) : decode (0x3#4 ++ x ++ nn) = .ok (.seImm x nn) := by
  rw [decode_ximm]
  exact congrArg (fun b => Except.ok (Instr.seImm x b)) (immediate_split nn)

theorem decode_sneImm (x : Nibble) (nn : Byte) : decode (0x4#4 ++ x ++ nn) = .ok (.sneImm x nn) := by
  rw [decode_ximm]
  exact congrArg (fun b => Except.ok (Instr.sneImm x b)) (immediate_split nn)

theorem decode_seReg (x y : Nibble) : decode (0x5#4 ++ x ++ y ++ 0x0#4) = .ok (.seReg x y) :=
  decode_nibbles 0x5#4 x y 0x0#4

theorem decode_sneReg (x y : Nibble) : decode (0x9#4 ++ x ++ y ++ 0x0#4) = .ok (.sneReg x y) :=
  decode_nibbles 0x9#4 x y 0x0#4

end Sys2Proof

namespace Sys2Proof.Machine

theorem exec_seImm (x : Nibble) (nn : Byte) (s : State) :
    exec (.seImm x nn) s = .next (skipIf (s.getV x == nn) s) := rfl

theorem exec_sneImm (x : Nibble) (nn : Byte) (s : State) :
    exec (.sneImm x nn) s = .next (skipIf (s.getV x != nn) s) := rfl

theorem exec_seReg (x y : Nibble) (s : State) :
    exec (.seReg x y) s = .next (skipIf (s.getV x == s.getV y) s) := rfl

theorem exec_sneReg (x y : Nibble) (s : State) :
    exec (.sneReg x y) s = .next (skipIf (s.getV x != s.getV y) s) := rfl

/-- The advance as 12-bit addition: it wraps past 0xFFF (R16). -/
theorem advance_pc_eq_add (s : State) (d : Nat) : (s.advance d).pc = s.pc + BitVec.ofNat 12 d := by
  rw [advance_pc, BitVec.ofNat_add, BitVec.ofNat_toNat, BitVec.setWidth_eq]

/-- The advance writes no register, no memory and no field but `pc` (R96). -/
theorem advance_onlyRegs (s : State) (d : Nat) : OnlyRegs s (s.advance d) [] where
  regs r _ := advance_getV s d r
  memory a := advance_byteAt s d a
  rest := rfl

theorem skipIf_onlyRegs (b : Bool) (s : State) : OnlyRegs s (skipIf b s) [] :=
  advance_onlyRegs s _

/-- The law of every skip (R124). -/
theorem skipIf_pc (b : Bool) (s : State) :
    (skipIf b s).pc = if b = true then s.pc + 4#12 else s.pc + 2#12 := by
  cases b <;> exact advance_pc_eq_add s _

/-- A skip on equality, the bytes compared as the numbers they stand for (R120, R122). -/
theorem skipIf_beq_pc (u v : Byte) (s : State) :
    (skipIf (u == v) s).pc = if u.toNat = v.toNat then s.pc + 4#12 else s.pc + 2#12 := by
  simp only [skipIf_pc, beq_iff_eq, BitVec.toNat_inj]

/-- A skip on difference, the bytes compared as the numbers they stand for (R121, R123). -/
theorem skipIf_bne_pc (u v : Byte) (s : State) :
    (skipIf (u != v) s).pc = if u.toNat = v.toNat then s.pc + 2#12 else s.pc + 4#12 := by
  simp only [skipIf_pc, bne_iff_ne, ne_eq, ite_not, BitVec.toNat_inj]

/-- Settles O19: each of the four is one `skipIf`, which moves only `pc` (`skipIf_onlyRegs`); SE skips on equality
(`skipIf_beq_pc`), SNE on difference (`skipIf_bne_pc`). -/
theorem registerSkips : Obligations.RegisterSkips := by
  intro s x y nn
  exact ⟨decode_seImm x nn, decode_sneImm x nn, decode_seReg x y, decode_sneReg x y,
    ⟨_, exec_seImm x nn s, skipIf_onlyRegs _ s, skipIf_beq_pc _ _ s⟩,
    ⟨_, exec_sneImm x nn s, skipIf_onlyRegs _ s, skipIf_bne_pc _ _ s⟩,
    ⟨_, exec_seReg x y s, skipIf_onlyRegs _ s, skipIf_beq_pc _ _ s⟩,
    ⟨_, exec_sneReg x y s, skipIf_onlyRegs _ s, skipIf_bne_pc _ _ s⟩⟩

end Sys2Proof.Machine
end

section
/-! PROOFS. The arithmetic family of 43_alu.md (R130 to R140): the results and flags as numbers, the three ways an
instruction of the family ends (R143), and which of them each instruction takes. -/

namespace Sys2Proof

theorem decode_ldImm (x : Nibble) (nn : Byte) : decode (0x6#4 ++ x ++ nn) = .ok (.ldImm x nn) := by
  rw [decode_ximm]
  exact congrArg (fun b => Except.ok (Instr.ldImm x b)) (immediate_split nn)

theorem decode_addImm (x : Nibble) (nn : Byte) : decode (0x7#4 ++ x ++ nn) = .ok (.addImm x nn) := by
  rw [decode_ximm]
  exact congrArg (fun b => Except.ok (Instr.addImm x b)) (immediate_split nn)

end Sys2Proof

namespace Sys2Proof.Machine

/-! ### The results and the flags as numbers -/

@[simp] theorem toNat_addBytes (a b : Byte) : (addBytes a b).toNat = (a.toNat + b.toNat) % 256 :=
  BitVec.toNat_ofNat _ _

@[simp] theorem toNat_subBytes (a b : Byte) :
    ((subBytes a b).toNat : Int) = ((a.toNat : Int) - (b.toNat : Int)) % 256 := by
  rw [subBytes, BitVec.toNat_ofInt]
  exact Int.toNat_of_nonneg (Int.emod_nonneg _ (by decide))

@[simp] theorem toNat_shiftRightByte (v : Byte) : (shiftRightByte v).toNat = v.toNat / 2 := by
  have := v.isLt
  rw [shiftRightByte, BitVec.toNat_ofNat]
  omega

@[simp] theorem toNat_shiftLeftByte (v : Byte) : (shiftLeftByte v).toNat = v.toNat * 2 % 256 :=
  BitVec.toNat_ofNat _ _

theorem toNat_flagByte (b : Bool) : (flagByte b).toNat = b.toNat := by
  cases b <;> rfl

@[simp] theorem toNat_carryFlag (a b : Byte) :
    (carryFlag a b).toNat = if a.toNat + b.toNat > 255 then 1 else 0 := by
  by_cases h : a.toNat + b.toNat > 255 <;> simp [carryFlag, toNat_flagByte, h]

@[simp] theorem toNat_noBorrowFlag (a b : Byte) :
    (noBorrowFlag a b).toNat = if a.toNat < b.toNat then 0 else 1 := by
  by_cases h : a.toNat < b.toNat <;> simp [noBorrowFlag, toNat_flagByte, h]

@[simp] theorem toNat_shiftedOutRight (v : Byte) : (shiftedOutRight v).toNat = v.toNat % 2 := by
  rw [shiftedOutRight, toNat_flagByte, BitVec.getLsbD, Nat.toNat_testBit, pow_zero, Nat.div_one]

@[simp] theorem toNat_shiftedOutLeft (v : Byte) : (shiftedOutLeft v).toNat = v.toNat / 128 := by
  have := v.isLt
  rw [shiftedOutLeft, toNat_flagByte, BitVec.getLsbD, Nat.toNat_testBit]
  omega

/-! ### The frame `OnlyRegs` through register writes and the advance -/

theorem OnlyRegs.refl (s : State) (but : List Nibble) : OnlyRegs s s but where
  regs _ _ := rfl
  memory _ := rfl
  rest := rfl

/-- One more write to a listed register stays inside the frame. -/
theorem OnlyRegs.setV {s t : State} {but : List Nibble} (h : OnlyRegs s t but) {x : Nibble} (hx : x ∈ but) (v : Byte) :
    OnlyRegs s (t.setV x v) but where
  regs r hr := (getV_setV_ne t (ne_of_mem_of_not_mem hx hr).symm v).trans (h.regs r hr)
  memory := h.memory
  rest := congrArg (State.setV · x v) h.rest

theorem OnlyRegs.advance {s t : State} {but : List Nibble} (h : OnlyRegs s t but) (d : Nat) :
    OnlyRegs s (t.advance d) but where
  regs := h.regs
  memory := h.memory
  rest := congrArg (fun u => { u with pc := (t.advance d).pc }) h.rest

/-! ### How an instruction of the family ends: the result alone, or with the flag in one of the two orders of R143 -/

/-- `V[x] <- v`, no flag, delta 2 (R130 to R135). -/
def State.resultOnly (s : State) (x : Nibble) (v : Byte) : State := (s.setV x v).advance 2

/-- `V[x] <- v`, then VF, delta 2: with `x` = 0xF the flag remains (R136, R137, R143). -/
def State.resultThenFlag (s : State) (x : Nibble) (v flag : Byte) : State := ((s.setV x v).setVF flag).advance 2

/-- VF, then `V[x] <- v`, delta 2: with `x` = 0xF the result remains (R138 to R140, R143). -/
def State.flagThenResult (s : State) (x : Nibble) (v flag : Byte) : State := ((s.setVF flag).setV x v).advance 2

section
variable (s : State) (x y : Nibble) (v flag nn : Byte)

theorem resultOnly_pc : (s.resultOnly x v).pc = s.pc + 2#12 := advance_pc_eq_add _ 2

theorem resultThenFlag_pc : (s.resultThenFlag x v flag).pc = s.pc + 2#12 := advance_pc_eq_add _ 2

theorem flagThenResult_pc : (s.flagThenResult x v flag).pc = s.pc + 2#12 := advance_pc_eq_add _ 2

theorem resultOnly_onlyRegs : OnlyRegs s (s.resultOnly x v) [x] :=
  ((OnlyRegs.refl s [x]).setV (by simp) v).advance 2

theorem resultThenFlag_onlyRegs : OnlyRegs s (s.resultThenFlag x v flag) [x, 0xF#4] :=
  (((OnlyRegs.refl s [x, 0xF#4]).setV (by simp) v).setV (by simp [Config.flagReg]) flag).advance 2

theorem flagThenResult_onlyRegs : OnlyRegs s (s.flagThenResult x v flag) [x, 0xF#4] :=
  (((OnlyRegs.refl s [x, 0xF#4]).setV (by simp [Config.flagReg]) flag).setV (by simp) v).advance 2

@[simp] theorem resultOnly_getV_dest : (s.resultOnly x v).getV x = v := getV_setV_same s x v

@[simp] theorem resultThenFlag_getV_flag : (s.resultThenFlag x v flag).getV 0xF#4 = flag :=
  getV_setVF_same (s.setV x v) flag

@[simp] theorem flagThenResult_getV_dest : (s.flagThenResult x v flag).getV x = v :=
  getV_setV_same (s.setVF flag) x v

variable {x} in
@[simp] theorem resultThenFlag_getV_dest (hx : x ≠ 0xF#4) : (s.resultThenFlag x v flag).getV x = v := by
  rw [State.resultThenFlag, advance_getV, getV_setVF, if_neg hx, getV_setV_same]

variable {x} in
@[simp] theorem flagThenResult_getV_flag (hx : x ≠ 0xF#4) : (s.flagThenResult x v flag).getV 0xF#4 = flag := by
  rw [State.flagThenResult, advance_getV, getV_setV_ne _ hx.symm, getV_setVF_same]

/-! ### Which end each instruction takes, its operands latched from the state before (R95) -/

theorem exec_ldImm : exec (.ldImm x nn) s = .next (s.resultOnly x nn) := rfl

theorem exec_addImm : exec (.addImm x nn) s = .next (s.resultOnly x (addBytes (s.getV x) nn)) := rfl

theorem exec_ldReg : exec (.ldReg x y) s = .next (s.resultOnly x (s.getV y)) := rfl

theorem exec_orReg : exec (.orReg x y) s = .next (s.resultOnly x (s.getV x ||| s.getV y)) := rfl

theorem exec_andReg : exec (.andReg x y) s = .next (s.resultOnly x (s.getV x &&& s.getV y)) := rfl

theorem exec_xorReg : exec (.xorReg x y) s = .next (s.resultOnly x (s.getV x ^^^ s.getV y)) := rfl

theorem exec_addReg : exec (.addReg x y) s =
    .next (s.resultThenFlag x (addBytes (s.getV x) (s.getV y)) (carryFlag (s.getV x) (s.getV y))) := rfl

theorem exec_sub : exec (.sub x y) s =
    .next (s.resultThenFlag x (subBytes (s.getV x) (s.getV y)) (noBorrowFlag (s.getV x) (s.getV y))) := rfl

theorem exec_subn : exec (.subn x y) s =
    .next (s.flagThenResult x (subBytes (s.getV y) (s.getV x)) (noBorrowFlag (s.getV y) (s.getV x))) := rfl

theorem exec_shr : exec (.shr x y) s =
    .next (s.flagThenResult x (shiftRightByte (s.getV y)) (shiftedOutRight (s.getV y))) := rfl

theorem exec_shl : exec (.shl x y) s =
    .next (s.flagThenResult x (shiftLeftByte (s.getV y)) (shiftedOutLeft (s.getV y))) := rfl

end

/-- Settles O21: both end in `resultOnly`, whose frame lists `X` alone, so a carry of ADD_IMM reaches no flag. -/
theorem immediateForms : Obligations.ImmediateForms := by
  intro s x nn
  refine ⟨decode_ldImm x nn, decode_addImm x nn,
    ⟨_, exec_ldImm s x nn, resultOnly_getV_dest .., resultOnly_pc .., resultOnly_onlyRegs ..⟩,
    ⟨_, exec_addImm s x nn, ?_, resultOnly_pc .., resultOnly_onlyRegs ..⟩⟩
  rw [resultOnly_getV_dest, toNat_addBytes]

/-- Settles O22: all four end in `resultOnly`; the bits of the results are the library's. -/
theorem copyAndLogicForms : Obligations.CopyAndLogicForms := by
  intro s x y
  refine ⟨decode_family8 x y _, decode_family8 x y _, decode_family8 x y _, decode_family8 x y _,
    ⟨_, exec_ldReg s x y, resultOnly_getV_dest .., resultOnly_pc .., resultOnly_onlyRegs ..⟩,
    ⟨_, exec_orReg s x y, resultOnly_pc .., resultOnly_onlyRegs .., fun b => ?or⟩,
    ⟨_, exec_andReg s x y, resultOnly_pc .., resultOnly_onlyRegs .., fun b => ?and⟩,
    ⟨_, exec_xorReg s x y, resultOnly_pc .., resultOnly_onlyRegs .., fun b => ?xor⟩⟩
  case or => rw [resultOnly_getV_dest, BitVec.getLsbD_or]
  case and => rw [resultOnly_getV_dest, BitVec.getLsbD_and]
  case xor => rw [resultOnly_getV_dest, BitVec.getLsbD_xor]

/-- Settles O23: the carry is written second, so VF holds it for every `X`, and the sum is lost where `X` is VF. -/
theorem addWithCarry : Obligations.AddWithCarry := by
  intro s x y
  refine ⟨decode_family8 x y _, _, exec_addReg s x y, resultThenFlag_pc .., resultThenFlag_onlyRegs ..,
    fun hx => ?sum, ?carry⟩
  case sum => rw [resultThenFlag_getV_dest _ _ _ hx, toNat_addBytes]
  case carry => rw [resultThenFlag_getV_flag, toNat_carryFlag]

/-- Settles O24: SUB writes the flag second, so the difference needs `X` other than VF; SUBN writes it first, so the flag
does. -/
theorem subtractForms : Obligations.SubtractForms := by
  intro s x y
  refine ⟨decode_family8 x y _, decode_family8 x y _,
    ⟨_, exec_sub s x y, resultThenFlag_pc .., resultThenFlag_onlyRegs .., fun hx => ?subDiff, ?subFlag⟩,
    ⟨_, exec_subn s x y, flagThenResult_pc .., flagThenResult_onlyRegs .., ?subnDiff, fun hx => ?subnFlag⟩⟩
  case subDiff => rw [resultThenFlag_getV_dest _ _ _ hx, toNat_subBytes]
  case subFlag => rw [resultThenFlag_getV_flag, toNat_noBorrowFlag]
  case subnDiff => rw [flagThenResult_getV_dest, toNat_subBytes]
  case subnFlag => rw [flagThenResult_getV_flag _ _ _ hx, toNat_noBorrowFlag]

/-- Settles O25: both shift `V[Y]` and write the flag first, so the result stands for every `X`, VF included. -/
theorem shiftForms : Obligations.ShiftForms := by
  intro s x y
  refine ⟨decode_family8 x y _, decode_family8 x y _,
    ⟨_, exec_shr s x y, flagThenResult_pc .., flagThenResult_onlyRegs .., ?shrResult, fun hx => ?shrFlag⟩,
    ⟨_, exec_shl s x y, flagThenResult_pc .., flagThenResult_onlyRegs .., ?shlResult, fun hx => ?shlFlag⟩⟩
  case shrResult => rw [flagThenResult_getV_dest, toNat_shiftRightByte]
  case shrFlag => rw [flagThenResult_getV_flag _ _ _ hx, toNat_shiftedOutRight]
  case shlResult => rw [flagThenResult_getV_dest, toNat_shiftLeftByte]
  case shlFlag => rw [flagThenResult_getV_flag _ _ _ hx, toNat_shiftedOutLeft]

end Sys2Proof.Machine
end

section
/-! PROOFS. The block stores of 44_index_memory.md (R153, R154): how an instruction that stores a list of bytes from `I`
on ends, inside the address space and past it, and LD_B as the store of the three decimal digits. -/

namespace Sys2Proof.Machine

/-! ### The bytes `setBytes` writes and the bytes it keeps -/

theorem byteAt_setBytes_stored {vs : List Byte} {i : Nat} (hi : i < vs.length) (a : Nat) (s : State) :
    (setBytes vs a s).byteAt (a + i) = vs[i] := by
  rw [byteAt_setBytes, dif_pos (by omega)]
  simp only [Nat.add_sub_cancel_left]

theorem setBytes_memoryKept (vs : List Byte) (a : Nat) (s : State) : MemoryKept s (setBytes vs a s) a vs.length := by
  intro b hb
  rw [byteAt_setBytes, dif_neg (by omega)]

theorem setBytes_pc (vs : List Byte) (a : Nat) (s : State) : (setBytes vs a s).pc = s.pc := by
  rw [setBytes_rest]

/-- `setBytes` and the advance write memory inside the range and `pc`, nothing else. -/
theorem setBytes_advance_onlyStores (vs : List Byte) (a d : Nat) (s : State) :
    OnlyStores s ((setBytes vs a s).advance d) a vs.length where
  memory := setBytes_memoryKept vs a s
  rest := congrArg (fun u => { u with pc := ((setBytes vs a s).advance d).pc }) (setBytes_rest vs a s)

/-- Fault entry after `setBytes` differs from fault entry before it in memory alone (R100, R207). -/
theorem setBytes_takeFault_faultedFrom (vs : List Byte) (a : Nat) (s : State) (c : Cause) (info : Nat) :
    FaultedFrom { s with MEM := (setBytes vs a s).MEM } (takeFault c info (setBytes vs a s)) c
      (BitVec.ofNat 16 info) := by
  rw [← setBytes_rest]
  exact takeFault_faultedFrom c info (setBytes vs a s)

/-! ### How a block store ends -/

/-- `t` is the end of an instruction that stores the bytes `vs` from `a` on, starting in `s`: the bytes below 0x1000 are
stored; then `pc + 2`, or MEM_BOUNDS with 0x1000 where a byte is left over (R45, R52, R100). -/
structure BlockStored (s t : State) (a : Nat) (vs : List Byte) : Prop where
  stored : ∀ (i : Nat) (hi : i < vs.length), a + i ≤ 0xFFF → t.byteAt (a + i) = vs[i]
  fits   : a + vs.length ≤ 0x1000 → t.pc = s.pc + 2#12 ∧ OnlyStores s t a vs.length
  leaves : 0x1000 < a + vs.length →
    MemoryKept s t a (0x1000 - a) ∧ FaultedFrom { s with MEM := t.MEM } t .memBounds 0x1000#16

theorem blockStored_of_fits {vs : List Byte} {a : Nat} (s : State) (h : a + vs.length ≤ 0x1000) :
    BlockStored s ((setBytes vs a s).advance 2) a vs where
  stored _ hi _ := byteAt_setBytes_stored hi a s
  fits _ := ⟨by rw [advance_pc_eq_add, setBytes_pc], setBytes_advance_onlyStores vs a 2 s⟩
  leaves h' := absurd h h'.not_ge

/-- Of a list that does not fit, the first `0x1000 - a` bytes are stored: exactly those below 0x1000. -/
theorem blockStored_of_leaves {vs : List Byte} {a : Nat} (s : State) (h : 0x1000 < a + vs.length) :
    BlockStored s (takeFault .memBounds 0x1000 (setBytes (vs.take (0x1000 - a)) a s)) a vs where
  stored i hi hle := by
    have hi' : i < (vs.take (0x1000 - a)).length := by rw [List.length_take]; omega
    rw [takeFault_byteAt, byteAt_setBytes_stored hi', List.getElem_take]
  fits h' := absurd h h'.not_gt
  leaves _ := by
    have hlen : (vs.take (0x1000 - a)).length = 0x1000 - a := List.length_take_of_le (by omega)
    have hkept := setBytes_memoryKept (vs.take (0x1000 - a)) a s
    rw [hlen] at hkept
    exact ⟨hkept, setBytes_takeFault_faultedFrom _ a s .memBounds 0x1000⟩

/-- The law of LD_B and ST_REGS: their shared form ends as a block store does. -/
theorem conclude_storeBytes (vs : List Byte) {a : Nat} (s : State) (ha : a ≤ 0xFFF) :
    ∃ t, conclude (storeBytes vs a s) (fun _ u => u.advance 2) = .next t ∧ BlockStored s t a vs := by
  by_cases h : a + vs.length ≤ 0x1000
  · exact ⟨_, by rw [storeBytes_fits s h, conclude_done], blockStored_of_fits s h⟩
  · have hout : 0x1000 < a + vs.length := Nat.lt_of_not_ge h
    exact ⟨_, by rw [storeBytes_raises s (by omega) hout, conclude_raised], blockStored_of_leaves s hout⟩

/-! ### LD_B -/

theorem exec_ldB (x : Nibble) (s : State) :
    exec (.ldB x) s = conclude (storeBytes (bcdDigits (s.getV x)) s.I.toNat s) (fun _ u => u.advance 2) := rfl

@[simp] theorem bcdDigits_length (v : Byte) : (bcdDigits v).length = 3 := by
  simp [bcdDigits]

/-- Each digit fits in its byte, so none is cut off (R153). -/
theorem toNat_bcdDigits (v : Byte) :
    (bcdDigits v)[0].toNat = v.toNat / 100 ∧ (bcdDigits v)[1].toNat = v.toNat / 10 % 10 ∧
      (bcdDigits v)[2].toNat = v.toNat % 10 := by
  have hv := v.isLt
  exact ⟨Nat.mod_eq_of_lt (by omega), Nat.mod_eq_of_lt (by omega), Nat.mod_eq_of_lt (by omega)⟩

/-- Settles O29: LD_B is the block store of three bytes (`conclude_storeBytes`), and those bytes are the digits
(`toNat_bcdDigits`). -/
theorem bcdStore : Obligations.BcdStore := by
  intro s x hI
  obtain ⟨t, hexec, hstored, hfits, hleaves⟩ := conclude_storeBytes (bcdDigits (s.getV x)) s hI
  obtain ⟨hhundreds, htens, hones⟩ := toNat_bcdDigits (s.getV x)
  rw [bcdDigits_length] at hfits hleaves
  refine ⟨decode_familyF x _, t, (exec_ldB x s).trans hexec, ?hundreds, fun h1 => ?tens, fun h2 => ?ones,
    fun h2 => hfits (by omega), fun h2 => hleaves (by omega)⟩
  case hundreds => rw [← hhundreds, ← hstored 0 (by simp) hI, Nat.add_zero]
  case tens => rw [hstored 1 (by simp) h1, htens]
  case ones => rw [hstored 2 (by simp) h2, hones]

end Sys2Proof.Machine
end

section
/-! PROOFS. CLS of 45_graphics.md (R160, R163). -/

namespace Sys2Proof.Machine

theorem exec_cls (s : State) : exec .cls s = .next ((clearDisplay s).advance 2) := rfl

/-- `ClearDisplay` writes the framebuffer and the outputs, nothing else (R163). -/
theorem clearDisplay_rest (s : State) :
    clearDisplay s = { s with FB := (clearDisplay s).FB, out := (clearDisplay s).out } := rfl

/-- Settles O34: CLS is `ClearDisplay`, then the advance. The first leaves no pixel on (`pixel_cleared`) and touches only
framebuffer and outputs (`clearDisplay_rest`); the second moves only `pc`. -/
theorem clearScreen : Obligations.ClearScreen := by
  refine ⟨decode_family0 0x0E0#12, fun s => ⟨(clearDisplay s).advance 2, exec_cls s, ?pc, ?pixels, ?out, ?memory, ?rest⟩⟩
  case pc => rw [advance_pc_eq_add, clearDisplay_pc]
  case pixels =>
    intro x y _ _
    rw [advance_FB, clearDisplay_FB, pixel_cleared]
  case out => rw [advance_out, clearDisplay_out]
  case memory =>
    intro a
    rw [advance_byteAt, clearDisplay_byteAt]
  case rest => exact congrArg (fun u => { u with pc := ((clearDisplay s).advance 2).pc }) (clearDisplay_rest s)

end Sys2Proof.Machine
end

section
/-! PROOFS. The timer instructions of 46_input_timers.md (R173 to R175): LD_VX_DT as a register result, LD_DT_VX and LD_ST_VX
as the write of one timer before the advance. -/

namespace Sys2Proof.Machine

/-- The advance as a write of `pc` alone, in 12-bit addition (R16, R96). -/
theorem advance_eq (s : State) (d : Nat) : s.advance d = { s with pc := s.pc + BitVec.ofNat 12 d } :=
  congrArg (fun p => { s with pc := p }) (advance_pc_eq_add s d)

theorem exec_ldVxDt (x : Nibble) (s : State) : exec (.ldVxDt x) s = .next (s.resultOnly x s.DT) := rfl

theorem exec_ldDtVx (x : Nibble) (s : State) :
    exec (.ldDtVx x) s = .next (({ s with DT := s.getV x } : State).advance 2) := rfl

theorem exec_ldStVx (x : Nibble) (s : State) :
    exec (.ldStVx x) s = .next (({ s with ST := s.getV x } : State).advance 2) := rfl

/-- Settles O38: LD_VX_DT ends as a register load with the value of `DT`; the other two write one timer, and the advance
after it writes `pc` alone (`advance_eq`). -/
theorem timerAccess : Obligations.TimerAccess := by
  intro s x
  refine ⟨decode_familyF x _, decode_familyF x _, decode_familyF x _, ?readDT, ?writeDT, ?writeST⟩
  case readDT =>
    exact ⟨_, exec_ldVxDt x s, resultOnly_getV_dest s x s.DT, resultOnly_pc s x s.DT, resultOnly_onlyRegs s x s.DT⟩
  case writeDT => exact ⟨_, exec_ldDtVx x s, advance_eq _ 2⟩
  case writeST => exact ⟨_, exec_ldStVx x s, advance_eq _ 2⟩

end Sys2Proof.Machine
end

section
/-! PROOFS. The encoder and the decoder of 30_encoding.md (R70 to R80) against each other, and the reserved words of
families 5 and 9. -/

namespace Sys2Proof

/-! ### Decoding the families with no second dispatch -/

theorem decode_jp (nnn : Addr) : decode (0x1#4 ++ nnn) = .ok (.jp nnn) := by
  rw [decode_addr]
  exact congrArg (fun a => Except.ok (Instr.jp a)) (address_split nnn)

theorem decode_call (nnn : Addr) : decode (0x2#4 ++ nnn) = .ok (.call nnn) := by
  rw [decode_addr]
  exact congrArg (fun a => Except.ok (Instr.call a)) (address_split nnn)

theorem decode_ldI (nnn : Addr) : decode (0xA#4 ++ nnn) = .ok (.ldI nnn) := by
  rw [decode_addr]
  exact congrArg (fun a => Except.ok (Instr.ldI a)) (address_split nnn)

theorem decode_jpV0 (nnn : Addr) : decode (0xB#4 ++ nnn) = .ok (.jpV0 nnn) := by
  rw [decode_addr]
  exact congrArg (fun a => Except.ok (Instr.jpV0 a)) (address_split nnn)

theorem decode_rnd (x : Nibble) (nn : Byte) : decode (0xC#4 ++ x ++ nn) = .ok (.rnd x nn) := by
  rw [decode_ximm]
  exact congrArg (fun b => Except.ok (Instr.rnd x b)) (immediate_split nn)

theorem decode_drw (x y n : Nibble) : decode (0xD#4 ++ x ++ y ++ n) = .ok (.drw x y n) :=
  decode_nibbles 0xD#4 x y n

/-- Families 5 and 9 look at the low nibble (R79). -/
theorem decode_family5_reserved {n : Nibble} (x y : Nibble) (h : n ≠ 0x0#4) :
    decode (0x5#4 ++ x ++ y ++ n) = .error (.reservedFamily5 (0x5#4 ++ x ++ y ++ n)) :=
  (decode_nibbles 0x5#4 x y n).trans (if_neg h)

theorem decode_family9_reserved {n : Nibble} (x y : Nibble) (h : n ≠ 0x0#4) :
    decode (0x9#4 ++ x ++ y ++ n) = .error (.reservedFamily9 (0x9#4 ++ x ++ y ++ n)) :=
  (decode_nibbles 0x9#4 x y n).trans (if_neg h)

/-! ### From the instruction to the word and back -/

theorem sysAddressOk_iff (nnn : Addr) : sysAddressOk nnn = true ↔ nnn ≠ 0x0E0#12 ∧ nnn ≠ 0x0EE#12 := by
  simp [sysAddressOk]

theorem decode_encode {i : Instr} (h : i.wf = true) : decode (encode i) = .ok i := by
  cases i
  case sys nnn =>
    obtain ⟨hcls, hret⟩ := (sysAddressOk_iff nnn).mp h
    exact (decode_family0 nnn).trans (congrArg Except.ok (decodeFamily0_sys hcls hret))
  case cls => exact decode_family0 0x0E0#12
  case ret => exact decode_family0 0x0EE#12
  case jp => exact decode_jp _
  case call => exact decode_call _
  case seImm => exact decode_seImm _ _
  case sneImm => exact decode_sneImm _ _
  case seReg => exact decode_seReg _ _
  case ldImm => exact decode_ldImm _ _
  case addImm => exact decode_addImm _ _
  case sneReg => exact decode_sneReg _ _
  case ldI => exact decode_ldI _
  case jpV0 => exact decode_jpV0 _
  case rnd => exact decode_rnd _ _
  case drw => exact decode_drw _ _ _
  case ldReg | orReg | andReg | xorReg | addReg | sub | shr | subn | shl => exact decode_family8 _ _ _
  case skp | sknp => exact decode_familyE _ _
  case ldVxDt | ldVxK | ldDtVx | ldStVx | addI | ldF | ldB | stRegs | ldRegs => exact decode_familyF _ _

/-- The first two bytes of a list are the first instruction, the rest is left over (R70, R243). -/
theorem decodeBytes_encodeBytes {i : Instr} (h : i.wf = true) (rest : List Byte) :
    decodeBytes (encodeBytes i ++ rest) = .ok (i, rest) := by
  simp [encodeBytes, decodeBytes, Machine.bigEndian_high_low, decode_encode h]

/-- Settles O1, by `decode_encode` constructor by constructor; a byte list begins with the two bytes of that word. -/
theorem decodeInvertsEncode : Obligations.DecodeInvertsEncode :=
  fun _ h => ⟨decode_encode h, decodeBytes_encodeBytes h⟩

/-! ### From the word to the instruction and back -/

theorem formatAddr_address (op x y n : Nibble) : formatAddr op (address x y n) = op ++ x ++ y ++ n := by
  apply BitVec.eq_of_toNat_eq
  simp only [formatAddr, address, toNat_append']
  omega

theorem formatXImm_immediate (op x y n : Nibble) : formatXImm op x (immediate y n) = op ++ x ++ y ++ n := by
  apply BitVec.eq_of_toNat_eq
  simp only [formatXImm, immediate, toNat_append']
  omega

theorem encode_of_decodeFamily0 (nnn : Addr) :
    (decodeFamily0 nnn).wf = true ∧ encode (decodeFamily0 nnn) = formatAddr 0x0#4 nnn := by
  unfold decodeFamily0
  split_ifs with hcls hret
  · subst hcls; exact ⟨rfl, rfl⟩
  · subst hret; exact ⟨rfl, rfl⟩
  · exact ⟨(sysAddressOk_iff nnn).mpr ⟨hcls, hret⟩, rfl⟩

theorem encode_of_decodeFamily8 {w : Word} {x y n : Nibble} {i : Instr} (h : decodeFamily8 w x y n = .ok i) :
    i.wf = true ∧ encode i = formatXYN 0x8#4 x y n := by
  unfold decodeFamily8 at h
  split at h <;> cases h <;> exact ⟨rfl, rfl⟩

theorem encode_of_decodeFamilyE {w : Word} {x : Nibble} {nn : Byte} {i : Instr} (h : decodeFamilyE w x nn = .ok i) :
    i.wf = true ∧ encode i = formatXImm 0xE#4 x nn := by
  unfold decodeFamilyE at h
  split at h <;> cases h <;> exact ⟨rfl, rfl⟩

theorem encode_of_decodeFamilyF {w : Word} {x : Nibble} {nn : Byte} {i : Instr} (h : decodeFamilyF w x nn = .ok i) :
    i.wf = true ∧ encode i = formatXImm 0xF#4 x nn := by
  unfold decodeFamilyF at h
  split at h <;> cases h <;> exact ⟨rfl, rfl⟩

/-- Each of the 16 families reads its operands off the nibbles its format puts them in (R72, R74). -/
theorem encode_of_decodeNibbles {w : Word} {op x y n : Nibble} {i : Instr} (h : decodeNibbles w op x y n = .ok i) :
    i.wf = true ∧ encode i = op ++ x ++ y ++ n := by
  unfold decodeNibbles at h
  split at h
  case h_1 =>
    cases h
    obtain ⟨hwf, henc⟩ := encode_of_decodeFamily0 (address x y n)
    exact ⟨hwf, henc.trans (formatAddr_address _ x y n)⟩
  case h_2 | h_3 | h_11 | h_12 => cases h; exact ⟨rfl, formatAddr_address _ x y n⟩
  case h_4 | h_5 | h_7 | h_8 | h_13 => cases h; exact ⟨rfl, formatXImm_immediate _ x y n⟩
  case h_6 | h_10 =>
    split_ifs at h with hn
    cases h; subst hn
    exact ⟨rfl, rfl⟩
  case h_9 => exact encode_of_decodeFamily8 h
  case h_14 => cases h; exact ⟨rfl, rfl⟩
  case h_15 =>
    obtain ⟨hwf, henc⟩ := encode_of_decodeFamilyE h
    exact ⟨hwf, henc.trans (formatXImm_immediate _ x y n)⟩
  case h_16 =>
    have hop : op = 0xF#4 := by
      clear h
      simp only [imp_false] at *
      bv_omega
    subst hop
    obtain ⟨hwf, henc⟩ := encode_of_decodeFamilyF h
    exact ⟨hwf, henc.trans (formatXImm_immediate _ x y n)⟩

theorem encode_of_decode {w : Word} {i : Instr} (h : decode w = .ok i) : i.wf = true ∧ encode i = w := by
  obtain ⟨hwf, henc⟩ := encode_of_decodeNibbles h
  exact ⟨hwf, henc.trans (nibbles_eq w)⟩

/-- Settles O2: a word is its four nibbles, and each family's instruction encodes to the nibbles it was read from. -/
theorem encodeInvertsDecode : Obligations.EncodeInvertsDecode := fun _ _ h => encode_of_decode h

/-! ### Reserved words and sample words -/

/-- Settles O4: the low nibble decides (`decode_family5_reserved`, `decode_family9_reserved`); a rejected word's tick is
fault entry. -/
theorem reservedWordsOfFamilies5And9 : Obligations.ReservedWordsOfFamilies5And9 := by
  intro x y n
  constructor
  · rintro rfl
    exact ⟨decode_seReg x y, decode_sneReg x y⟩
  · rintro hn w (rfl | rfl)
    · exact Machine.rejected_of_decode_error (decode_family5_reserved x y hn)
    · exact Machine.rejected_of_decode_error (decode_family9_reserved x y hn)

/-- Settles O5: each word is its family's format filled in. -/
theorem sampleWordsDecode : Obligations.SampleWordsDecode :=
  ⟨decode_family0 0x123#12, decode_call 0x300#12, decode_seImm 0x3#4 0x2A#8, decode_family8 0x1#4 0x2#4 0x4#4,
    decode_ldI 0x2F0#12, decode_drw 0x3#4 0x4#4 0x5#4, decode_familyE 0x5#4 0xA1#8, decode_familyF 0x3#4 0x65#8⟩

end Sys2Proof
end

section
/-! PROOFS. What a step can do, said once: the inversion of `exec` (`Executed`), of the tick (`Ticked`), of a host event
(`Hosted`) and of the step (`Stepped`), each with the proof that it is what the model answers. The whole-machine rules
are case splits on these and unfold no instruction again. -/

namespace Sys2Proof.Machine

/-! ### The instructions as their operations -/

theorem exec_jp (nnn : Addr) (s : State) : exec (.jp nnn) s = .next (s.setPc nnn.toNat) := rfl

theorem exec_jpV0 (nnn : Addr) (s : State) :
    exec (.jpV0 nnn) s = .next (s.setPc (nnn.toNat + (s.getV 0x0#4).toNat)) := rfl

theorem exec_call (nnn : Addr) (s : State) :
    exec (.call nnn) s = conclude (push (BitVec.ofNat 16 (s.pc.toNat + 2)) s) (fun _ u => u.setPc nnn.toNat) := rfl

theorem exec_rnd (x : Nibble) (nn : Byte) (s : State) :
    exec (.rnd x nn) s = .next (s.resultOnly x (s.tickInputs.rnd &&& nn)) := rfl

theorem exec_ldI (nnn : Addr) (s : State) : exec (.ldI nnn) s = .next ((s.setI nnn.toNat).advance 2) := rfl

theorem exec_addI (x : Nibble) (s : State) :
    exec (.addI x) s = .next (((s.setI (addIResult (s.I.toNat + (s.getV x).toNat))).setVF
      (addIFlag (s.I.toNat + (s.getV x).toNat))).advance 2) := rfl

theorem exec_ldF (x : Nibble) (s : State) :
    exec (.ldF x) s = .next ((s.setI (glyphAddress (s.getV x))).advance 2) := rfl

theorem exec_stRegs (x : Nibble) (s : State) :
    exec (.stRegs x) s = conclude (storeBytes (s.registersUpTo x) s.I.toNat s) (fun _ u => u.advance 2) := rfl

theorem exec_ldRegs (x : Nibble) (s : State) :
    exec (.ldRegs x) s = conclude (loadRegisters (x.toNat + 1) 0 s.I.toNat s) (fun _ u => u.advance 2) := rfl

theorem exec_drw (x y n : Nibble) (s : State) :
    exec (.drw x y n) s = conclude (drawSprite (s.getV x).toNat (s.getV y).toNat n.toNat s.I.toNat s)
      (fun c u => (u.setVF (flagByte c)).advance 2) := rfl

theorem exec_skp (x : Nibble) (s : State) :
    exec (.skp x) s = conclude (readKey (s.getV x) s) (fun p u => skipIf p u) := rfl

theorem exec_sknp (x : Nibble) (s : State) :
    exec (.sknp x) s = conclude (readKey (s.getV x) s) (fun p u => skipIf (!p) u) := rfl

theorem exec_ldVxK (x : Nibble) (s : State) :
    exec (.ldVxK x) s = .next { s with WAITREG := x, MODE := .awaitingKey } := rfl

/-! ### What an instruction may write -/

/-- May `i` leave `f` in VF where VF changed? The seven flag writers leave 0 or 1, unless VF is the destination of a
form that writes the result last; the others change VF only as their destination (R12, R143). -/
def FlagWrite (i : Instr) (f : Byte) : Prop :=
  match i with
  | .addReg _ _ | .sub _ _ | .addI _ | .drw _ _ _ => f.toNat ≤ 1
  | .shr x _ | .subn x _ | .shl x _ => x = 0xF#4 ∨ f.toNat ≤ 1
  | .ldImm x _ | .addImm x _ | .rnd x _ | .ldReg x _ | .orReg x _ | .andReg x _ | .xorReg x _ | .ldVxDt x
  | .ldRegs x => x = 0xF#4
  | _ => False

/-- From `s` to `t`, VF changes only as `i` may write it. -/
def FlagLaw (s : State) (i : Instr) (t : State) : Prop :=
  t.getV 0xF#4 ≠ s.getV 0xF#4 → FlagWrite i (t.getV 0xF#4)

/-- The instructions that write `I` (R13). -/
def SetsAddress (i : Instr) : Prop := (∃ nnn, i = .ldI nnn) ∨ (∃ x, i = .addI x) ∨ (∃ x, i = .ldF x)

/-- The instructions that write the framebuffer (R22). -/
def Draws (i : Instr) : Prop := i = .cls ∨ ∃ x y n, i = .drw x y n

/-- The addresses an instruction may store to (R41). -/
def StoresTo (s : State) (i : Instr) (a : Nat) : Prop :=
  (∃ nnn, i = .call nnn ∧ (a = s.SP ∨ a = s.SP + 1)) ∨
    (∃ x, i = .ldB x ∧ s.I.toNat ≤ a ∧ a ≤ s.I.toNat + 2) ∨
    (∃ x, i = .stRegs x ∧ s.I.toNat ≤ a ∧ a ≤ s.I.toNat + x.toNat)

/-- Memory `m` is what `i` may leave: canonical where it was, and different only in valid addresses `i` may store to. -/
structure MemoryLaw (s : State) (i : Instr) (m : Memory) : Prop where
  wf    : Memory.wf s.params.font s.MEM = true → Memory.wf s.params.font m = true
  bytes : ∀ a, ({ s with MEM := m } : State).byteAt a ≠ s.byteAt a → a ≤ 0xFFF ∧ StoresTo s i a

/-- The state `exec i` may answer from `s`: one constructor for each way an instruction can end. -/
inductive Executed (s : State) (i : Instr) : State → Prop where
  | registers (v : Vector Byte 16) (p : Addr) (hv : FlagLaw s i { s with V := v }) :
      Executed s i { s with V := v, pc := p }
  | address (hi : SetsAddress i) (v : Vector Byte 16) (a : Word) (p : Addr) (hv : FlagLaw s i { s with V := v })
      (ha : s.I.toNat ≤ 0x0FFF → a.toNat ≤ 0x0FFF) : Executed s i { s with V := v, I := a, pc := p }
  | screen (hi : Draws i) (v : Vector Byte 16) (fb : Framebuffer) (p : Addr) (hv : FlagLaw s i { s with V := v }) :
      Executed s i { s with V := v, FB := fb, pc := p, out := { s.out with refresh := true } }
  | store (m : Memory) (p : Addr) (hm : MemoryLaw s i m) : Executed s i { s with MEM := m, pc := p }
  | call {nnn : Addr} (hi : i = .call nnn) (m : Memory) (p : Addr) (hm : MemoryLaw s i m)
      (hsp : s.SP < s.params.stackBase.val + 48) : Executed s i { s with MEM := m, SP := s.SP + 2, pc := p }
  | ret (hi : i = .ret) (p : Addr) (hsp : s.params.stackBase.val < s.SP) :
      Executed s i { s with SP := s.SP - 2, pc := p }
  | delayTimer {x : Nibble} (hi : i = .ldDtVx x) (p : Addr) : Executed s i { s with DT := s.getV x, pc := p }
  | soundTimer {x : Nibble} (hi : i = .ldStVx x) (p : Addr) : Executed s i { s with ST := s.getV x, pc := p }
  | wait {x : Nibble} (hi : i = .ldVxK x) : Executed s i { s with WAITREG := x, MODE := .awaitingKey }
  | fault (c : Cause) (n : Nat) (v : Vector Byte 16) (fb : Framebuffer) (m : Memory) (sp : Nat)
      (hv : FlagLaw s i { s with V := v }) (hfb : fb = s.FB ∨ Draws i) (hm : MemoryLaw s i m)
      (hsp : s.stackLegal → sp = s.SP)
      (hn : s.I.toNat ≤ 0x0FFF → s.stackLegal → i.wf = true → causeInfoLegal c (BitVec.ofNat 16 n)) :
      Executed s i (takeFault c n { s with V := v, FB := fb, MEM := m, SP := sp })

/-! ### The flag -/

theorem FlagLaw.of_kept {s t : State} (i : Instr) (h : t.getV 0xF#4 = s.getV 0xF#4) : FlagLaw s i t :=
  fun hne => absurd h hne

theorem resultOnly_flagLaw (s : State) {x : Nibble} {v : Byte} {i : Instr} (h : x = 0xF#4 → FlagWrite i v) :
    FlagLaw s i (s.resultOnly x v) := by
  by_cases hx : x = 0xF#4
  · subst hx
    exact fun _ => by rw [resultOnly_getV_dest]; exact h rfl
  · exact .of_kept i (getV_setV_ne s (Ne.symm hx) v)

/-- Where VF is written last, what is written decides (R143). -/
theorem setVF_flagLaw (s u : State) {f : Byte} {i : Instr} (h : FlagWrite i f) : FlagLaw s i (u.setVF f) := by
  intro _
  rw [getV_setVF_same]
  exact h

theorem resultThenFlag_flagLaw (s : State) {x : Nibble} {v f : Byte} {i : Instr} (h : FlagWrite i f) :
    FlagLaw s i (s.resultThenFlag x v f) :=
  setVF_flagLaw s (s.setV x v) h

theorem flagThenResult_flagLaw (s : State) {x : Nibble} {v f : Byte} {i : Instr} (hdest : x = 0xF#4 → FlagWrite i v)
    (hflag : FlagWrite i f) : FlagLaw s i (s.flagThenResult x v f) := by
  intro _
  by_cases hx : x = 0xF#4
  · subst hx
    rw [flagThenResult_getV_dest]
    exact hdest rfl
  · rw [flagThenResult_getV_flag s v f hx]
    exact hflag

theorem flagByte_le_one (b : Bool) : (flagByte b).toNat ≤ 1 := by
  rw [toNat_flagByte]
  exact b.toNat_le

theorem Executed.resultOnly {s : State} {x : Nibble} {v : Byte} {i : Instr} (h : x = 0xF#4 → FlagWrite i v) :
    Executed s i (s.resultOnly x v) :=
  .registers _ _ (resultOnly_flagLaw s h)

theorem Executed.resultThenFlag {s : State} {x : Nibble} {v f : Byte} {i : Instr} (h : FlagWrite i f) :
    Executed s i (s.resultThenFlag x v f) :=
  .registers _ _ (resultThenFlag_flagLaw s h)

theorem Executed.flagThenResult {s : State} {x : Nibble} {v f : Byte} {i : Instr} (hdest : x = 0xF#4 → FlagWrite i v)
    (hflag : FlagWrite i f) : Executed s i (s.flagThenResult x v f) :=
  .registers _ _ (flagThenResult_flagLaw s hdest hflag)

/-- A jump or a skip. -/
theorem Executed.setPc (s : State) (i : Instr) (a : Nat) : Executed s i (s.setPc a) :=
  .registers s.V _ (.of_kept i rfl)

/-! ### Memory -/

theorem MemoryLaw.refl (s : State) (i : Instr) : MemoryLaw s i s.MEM where
  wf := id
  bytes _ h := absurd rfl h

/-- What a block store leaves is what the instruction may store, if its range is. -/
theorem MemoryLaw.of_kept {s : State} {i : Instr} {m : Memory} {lo n : Nat}
    (hwf : Memory.wf s.params.font s.MEM = true → Memory.wf s.params.font m = true)
    (hkept : ∀ b, (b < lo ∨ lo + n ≤ b ∨ 4096 ≤ b) → ({ s with MEM := m } : State).byteAt b = s.byteAt b)
    (hrange : ∀ a, lo ≤ a → a < lo + n → StoresTo s i a) : MemoryLaw s i m where
  wf := hwf
  bytes a hne := by
    have hin : ¬(a < lo ∨ lo + n ≤ a ∨ 4096 ≤ a) := fun h => hne (hkept a h)
    exact ⟨by omega, hrange a (by omega) (by omega)⟩

/-! ### Faults -/

/-- Fault entry with nothing done before it. -/
theorem Executed.faultOnly {s : State} {i : Instr} {c : Cause} {n : Nat}
    (hn : s.I.toNat ≤ 0x0FFF → s.stackLegal → i.wf = true → causeInfoLegal c (BitVec.ofNat 16 n)) :
    Executed s i (takeFault c n s) :=
  .fault c n s.V s.FB s.MEM s.SP (.of_kept i rfl) (.inl rfl) (.refl s i) (fun _ => rfl) hn

theorem memBounds_legal {n : Nat} (h : n = 0x1000) : causeInfoLegal .memBounds (BitVec.ofNat 16 n) := by
  subst h
  rfl

theorem sys_legal {nnn : Addr} (h : (Instr.sys nnn).wf = true) :
    causeInfoLegal .machineCall (BitVec.ofNat 16 (0x0#4 ++ nnn).toNat) := by
  refine ⟨nnn, ?_⟩
  rw [BitVec.ofNat_toNat, BitVec.setWidth_eq]
  exact decode_encode (i := .sys nnn) h

theorem stackOverflow_legal (pc : Addr) :
    causeInfoLegal .stackOverflow (BitVec.ofNat 16 (BitVec.ofNat 16 (pc.toNat + 2)).toNat) := by
  have := pc.isLt
  simp only [causeInfoLegal, BitVec.toNat_ofNat]
  omega

theorem keyRange_legal {v : Byte} (h : v.toNat > 0x0F) : causeInfoLegal .keyRange (BitVec.ofNat 16 v.toNat) := by
  have := v.isLt
  simp only [causeInfoLegal, BitVec.toNat_ofNat]
  omega

/-! ### How each instruction that can fault ends -/

theorem conclude_of_done {α : Type} {r : Access α} {a : α} {u : State} (h : r = .done a u) (last : α → State → State) :
    conclude r last = .next (last a u) := by
  rw [h, conclude_done]

theorem conclude_of_raised {α : Type} {r : Access α} {c : Cause} {n : Nat} {u : State} (h : r = .raised c n u)
    (last : α → State → State) : conclude r last = .next (takeFault c n u) := by
  rw [h, conclude_raised]

theorem executed_storeBytes {s : State} {i : Instr} {vs : List Byte}
    (hrange : ∀ a, s.I.toNat ≤ a → a < s.I.toNat + vs.length → StoresTo s i a) :
    ∃ t, conclude (storeBytes vs s.I.toNat s) (fun _ u => u.advance 2) = .next t ∧ Executed s i t := by
  obtain ⟨m, hwf, hkept, hdone | ⟨n, -, hn, hraised⟩⟩ := storeBytes_cases vs s.I.toNat s
  · exact ⟨_, conclude_of_done hdone _, .store m _ (.of_kept hwf hkept hrange)⟩
  · refine ⟨_, conclude_of_raised hraised _, ?_⟩
    exact .fault _ n s.V s.FB m s.SP (.of_kept i rfl) (.inl rfl) (.of_kept hwf hkept hrange) (fun _ => rfl)
      (fun hI _ _ => memBounds_legal (hn (by omega)))

/-- A load changes no register past its last one. -/
theorem loadRegisters_getV_above {count k a : Nat} {s : State} {r : Nibble} (hk : k + count ≤ r.toNat) :
    (∀ t, loadRegisters count k a s = .done () t → t.getV r = s.getV r) ∧
      (∀ c n t, loadRegisters count k a s = .raised c n t → t.getV r = s.getV r) := by
  induction count generalizing k a s with
  | zero => exact ⟨fun t h => (by cases h; rfl), fun c n t h => (by cases h)⟩
  | succ count ih =>
    by_cases ha : a < 4096
    · have hne : r ≠ BitVec.ofNat 4 k := by
        rintro rfl
        rw [BitVec.toNat_ofNat] at hk
        have := Nat.mod_le k (2 ^ 4)
        omega
      have hrest := ih (k := k + 1) (a := a + 1) (s := s.setV (BitVec.ofNat 4 k) (s.byteAt a)) (by omega)
      rw [getV_setV_ne s hne] at hrest
      simpa only [loadRegisters, memRead_valid s ha] using hrest
    · simp only [loadRegisters, memRead_invalid s (Nat.le_of_not_lt ha)]
      exact ⟨fun t h => (by cases h), fun c n t h => (by cases h; rfl)⟩

theorem ldRegs_flagLaw {s t : State} {x : Nibble}
    (h : x ≠ 0xF#4 → t.getV 0xF#4 = s.getV 0xF#4) : FlagLaw s (.ldRegs x) t := by
  intro hne
  by_contra hx
  exact hne (h hx)

theorem executed_ldRegs (x : Nibble) (s : State) :
    ∃ t, exec (.ldRegs x) s = .next t ∧ Executed s (.ldRegs x) t := by
  have habove : x ≠ 0xF#4 → 0 + (x.toNat + 1) ≤ (0xF#4).toNat := by
    intro hx
    bv_omega
  obtain ⟨v, hdone | ⟨n, -, hn, hraised⟩⟩ := loadRegisters_cases (x.toNat + 1) 0 s.I.toNat s
  · refine ⟨_, conclude_of_done hdone _, .registers v _ ?_⟩
    exact ldRegs_flagLaw fun hx => (loadRegisters_getV_above (habove hx)).1 _ hdone
  · refine ⟨_, conclude_of_raised hraised _, ?_⟩
    exact .fault _ n v s.FB s.MEM s.SP
      (ldRegs_flagLaw fun hx => (loadRegisters_getV_above (habove hx)).2 _ _ _ hraised) (.inl rfl) (.refl s _)
      (fun _ => rfl) (fun hI _ _ => memBounds_legal (hn (by omega)))

theorem drawSprite_of_done {x y h a : Nat} {c : Bool} {s u : State} (hd : drawRows h x y a false s = .done c u) :
    drawSprite x y h a s = .done c (emitRefresh u) := by
  rw [drawSprite, hd]

theorem drawSprite_of_raised {x y h a n : Nat} {c : Cause} {s u : State}
    (hr : drawRows h x y a false s = .raised c n u) : drawSprite x y h a s = .raised c n u := by
  rw [drawSprite, hr]

theorem executed_drw (x y n : Nibble) (s : State) :
    ∃ t, exec (.drw x y n) s = .next t ∧ Executed s (.drw x y n) t := by
  have hi : Draws (.drw x y n) := .inr ⟨x, y, n, rfl⟩
  obtain ⟨fb, ⟨d, hdone⟩ | ⟨a, -, ha, hraised⟩⟩ :=
    drawRows_cases n.toNat (s.getV x).toNat (s.getV y).toNat s.I.toNat false s
  · have hsprite := drawSprite_of_done hdone
    refine ⟨_, conclude_of_done hsprite _, .screen hi _ fb _ ?_⟩
    exact setVF_flagLaw s s (flagByte_le_one d)
  · refine ⟨_, conclude_of_raised (drawSprite_of_raised hraised) _, ?_⟩
    exact .fault _ a s.V fb s.MEM s.SP (.of_kept _ rfl) (.inr hi) (.refl s _) (fun _ => rfl)
      (fun hI _ _ => memBounds_legal (ha (by omega)))

/-- Both key skips read the latch and then move `pc` by what they read. -/
theorem executed_keySkip (x : Nibble) (s : State) (i : Instr) (cond : Bool → Bool) :
    ∃ t, conclude (readKey (s.getV x) s) (fun p u => skipIf (cond p) u) = .next t ∧ Executed s i t := by
  by_cases h : (s.getV x).toNat > 0x0F
  · exact ⟨_, conclude_of_raised (readKey_invalid s h) _, .faultOnly fun _ _ _ => keyRange_legal h⟩
  · have hk : (s.getV x).toNat = (BitVec.ofNat 4 (s.getV x).toNat).toNat := (toNat_ofNat4 (by omega)).symm
    exact ⟨_, conclude_of_done (readKey_valid s hk) _, .setPc s i _⟩

/-- `Push` from any state, its stack pointer legal or not (R53). -/
theorem push_cases (v : Word) (s : State) :
    ∃ m : Memory, (Memory.wf s.params.font s.MEM = true → Memory.wf s.params.font m = true) ∧
      (∀ b, (b < s.SP ∨ s.SP + 2 ≤ b ∨ 4096 ≤ b) → ({ s with MEM := m } : State).byteAt b = s.byteAt b) ∧
      ((s.SP < s.params.stackBase.val + 48 ∧ push v s = .done () { s with MEM := m, SP := s.SP + 2 }) ∨
        ∃ c n, push v s = .raised c n { s with MEM := m } ∧
          (s.stackLegal → c = .stackOverflow ∧ n = v.toNat)) := by
  by_cases hfull : s.stackCeiling ≤ s.SP
  · refine ⟨s.MEM, id, fun _ _ => rfl, .inr ⟨.stackOverflow, v.toNat, ?_, fun _ => ⟨rfl, rfl⟩⟩⟩
    rw [push, if_pos hfull]
  · have hlt : s.SP < s.params.stackBase.val + 48 := Nat.lt_of_not_le hfull
    obtain ⟨m, hwf, hkept, hstore⟩ := storeBytes_cases [highByte v, lowByte v] s.SP s
    refine ⟨m, hwf, hkept, ?_⟩
    obtain hdone | ⟨n, hn, -, hraised⟩ := hstore
    · exact .inl ⟨hlt, by rw [push, if_neg hfull, memWriteWord, hdone]⟩
    · have hpush : push v s = .raised .memBounds n { s with MEM := m } := by
        rw [push, if_neg hfull, memWriteWord, hraised]
      exact .inr ⟨.memBounds, n, hpush, fun hlegal => by cases hpush.symm.trans (push_of_lt v hlegal hlt)⟩

theorem executed_call (nnn : Addr) (s : State) :
    ∃ t, exec (.call nnn) s = .next t ∧ Executed s (.call nnn) t := by
  obtain ⟨m, hwf, hkept, hpush⟩ := push_cases (BitVec.ofNat 16 (s.pc.toNat + 2)) s
  have hm : MemoryLaw s (.call nnn) m := .of_kept hwf hkept fun a hlo hhi => .inl ⟨nnn, rfl, by omega⟩
  obtain ⟨hlt, hdone⟩ | ⟨c, n, hraised, hlegal⟩ := hpush
  · exact ⟨_, conclude_of_done hdone _, .call rfl m _ hm hlt⟩
  · refine ⟨_, conclude_of_raised hraised _, ?_⟩
    refine .fault c n s.V s.FB m s.SP (.of_kept _ rfl) (.inl rfl) hm (fun _ => rfl) fun _ hs _ => ?_
    obtain ⟨rfl, rfl⟩ := hlegal hs
    exact stackOverflow_legal s.pc

theorem memReadWord_invalid (s : State) {a : Nat} (h : 4096 ≤ a) : memReadWord s a = .raised .memBounds a s := by
  rw [memReadWord, memRead_invalid s h]

/-- `MemRead(a, 2)` from any address: it changes nothing. -/
theorem memReadWord_cases (s : State) (a : Nat) :
    (∃ v, memReadWord s a = .done v s) ∨ ∃ c n, memReadWord s a = .raised c n s := by
  by_cases h : a + 1 < 4096
  · exact .inl ⟨_, memReadWord_valid s h⟩
  · by_cases htop : a = 4095
    · subst htop
      exact .inr ⟨_, _, memReadWord_top s⟩
    · exact .inr ⟨_, _, memReadWord_invalid s (by omega)⟩

theorem pop_of_le {s : State} (h : s.SP ≤ s.params.stackBase.val) : pop s = .raised .stackUnderflow 0 s := if_pos h

theorem pop_of_not_le {s : State} (h : ¬ s.SP ≤ s.params.stackBase.val) :
    pop s = memReadWord { s with SP := s.SP - 2 } (s.SP - 2) := if_neg h

theorem executed_ret (s : State) : ∃ t, exec .ret s = .next t ∧ Executed s .ret t := by
  by_cases hempty : s.SP ≤ s.params.stackBase.val
  · exact ⟨_, conclude_of_raised (pop_of_le hempty) _, .faultOnly fun _ _ _ => rfl⟩
  · have hgt : s.params.stackBase.val < s.SP := Nat.lt_of_not_le hempty
    have hpop := pop_of_not_le hempty
    obtain ⟨v, hv⟩ | ⟨c, n, hraised⟩ := memReadWord_cases { s with SP := s.SP - 2 } (s.SP - 2)
    · exact ⟨_, conclude_of_done (hpop.trans hv) _, .ret rfl _ hgt⟩
    · have hillegal : ¬ s.stackLegal := by
        intro hlegal
        cases (pop_of_gt hlegal hgt).symm.trans (hpop.trans hraised)
      refine ⟨_, conclude_of_raised (hpop.trans hraised) _, ?_⟩
      exact .fault c n s.V s.FB s.MEM (s.SP - 2) (.of_kept _ rfl) (.inl rfl) (.refl s _)
        (fun h => absurd h hillegal) (fun _ h _ => absurd h hillegal)

theorem glyphAddress_eq (v : Byte) : glyphAddress v = v.toNat * 5 := Nat.zero_add _

theorem addIResult_le {t : Nat} (h : t ≤ 0xFFF + 255) : addIResult t ≤ 0xFFF := by
  unfold addIResult addIWrap
  split <;> omega

@[simp] theorem registersUpTo_length (s : State) (x : Nibble) : (s.registersUpTo x).length = x.toNat + 1 := by
  simp [State.registersUpTo]

/-- `exec` always answers, and with a state `Executed` allows. -/
theorem exec_executed (i : Instr) (s : State) : ∃ t, exec i s = .next t ∧ Executed s i t := by
  cases i
  case sys nnn => exact ⟨_, exec_sys nnn s, .faultOnly fun _ _ h => sys_legal h⟩
  case cls => exact ⟨_, exec_cls s, .screen (.inl rfl) s.V _ _ (.of_kept _ rfl)⟩
  case ret => exact executed_ret s
  case call nnn => exact executed_call nnn s
  case jp nnn => exact ⟨_, exec_jp nnn s, .setPc s _ _⟩
  case jpV0 nnn => exact ⟨_, exec_jpV0 nnn s, .setPc s _ _⟩
  case seImm x nn => exact ⟨_, exec_seImm x nn s, .setPc s _ _⟩
  case sneImm x nn => exact ⟨_, exec_sneImm x nn s, .setPc s _ _⟩
  case seReg x y => exact ⟨_, exec_seReg x y s, .setPc s _ _⟩
  case sneReg x y => exact ⟨_, exec_sneReg x y s, .setPc s _ _⟩
  case skp x => exact executed_keySkip x s _ id
  case sknp x => exact executed_keySkip x s _ (!·)
  case ldImm x nn => exact ⟨_, exec_ldImm s x nn, .resultOnly id⟩
  case addImm x nn => exact ⟨_, exec_addImm s x nn, .resultOnly id⟩
  case ldReg x y => exact ⟨_, exec_ldReg s x y, .resultOnly id⟩
  case orReg x y => exact ⟨_, exec_orReg s x y, .resultOnly id⟩
  case andReg x y => exact ⟨_, exec_andReg s x y, .resultOnly id⟩
  case xorReg x y => exact ⟨_, exec_xorReg s x y, .resultOnly id⟩
  case rnd x nn => exact ⟨_, exec_rnd x nn s, .resultOnly id⟩
  case ldVxDt x => exact ⟨_, exec_ldVxDt x s, .resultOnly id⟩
  case addReg x y => exact ⟨_, exec_addReg s x y, .resultThenFlag (flagByte_le_one _)⟩
  case sub x y => exact ⟨_, exec_sub s x y, .resultThenFlag (flagByte_le_one _)⟩
  case shr x y => exact ⟨_, exec_shr s x y, .flagThenResult .inl (.inr (flagByte_le_one _))⟩
  case subn x y => exact ⟨_, exec_subn s x y, .flagThenResult .inl (.inr (flagByte_le_one _))⟩
  case shl x y => exact ⟨_, exec_shl s x y, .flagThenResult .inl (.inr (flagByte_le_one _))⟩
  case ldI nnn =>
    refine ⟨_, exec_ldI nnn s, .address (.inl ⟨nnn, rfl⟩) s.V _ _ (.of_kept _ rfl) fun _ => ?_⟩
    have := nnn.isLt
    rw [setI_I, BitVec.toNat_ofNat]
    omega
  case addI x =>
    refine ⟨_, exec_addI x s, .address (.inr (.inl ⟨x, rfl⟩)) _ _ _ ?_ fun hI => ?_⟩
    · exact setVF_flagLaw s s (flagByte_le_one _)
    · have := (s.getV x).isLt
      have := addIResult_le (t := s.I.toNat + (s.getV x).toNat) (by omega)
      rw [setVF_I, setI_I, BitVec.toNat_ofNat]
      omega
  case ldF x =>
    refine ⟨_, exec_ldF x s, .address (.inr (.inr ⟨x, rfl⟩)) s.V _ _ (.of_kept _ rfl) fun _ => ?_⟩
    have := (s.getV x).isLt
    rw [setI_I, BitVec.toNat_ofNat, glyphAddress_eq]
    exact (Nat.mod_le _ _).trans (by omega)
  case drw x y n => exact executed_drw x y n s
  case ldVxK x => exact ⟨_, exec_ldVxK x s, .wait rfl⟩
  case ldDtVx x => exact ⟨_, exec_ldDtVx x s, .delayTimer rfl _⟩
  case ldStVx x => exact ⟨_, exec_ldStVx x s, .soundTimer rfl _⟩
  case ldB x =>
    refine executed_storeBytes fun a hlo hhi => .inr (.inl ⟨x, rfl, hlo, ?_⟩)
    rw [bcdDigits_length] at hhi
    omega
  case stRegs x =>
    refine executed_storeBytes fun a hlo hhi => .inr (.inr ⟨x, rfl, hlo, ?_⟩)
    rw [registersUpTo_length] at hhi
    omega
  case ldRegs x => exact executed_ldRegs x s

theorem executed_of_exec {i : Instr} {s t : State} (h : exec i s = .next t) : Executed s i t := by
  obtain ⟨u, hu, he⟩ := exec_executed i s
  cases hu.symm.trans h
  exact he

end Sys2Proof.Machine
end

section
/-! PROOFS. What a tick, a host event and a step can do (R90, R92, R97 to R100, R218 to R226, R241, R242), on top of
what `exec` can do. -/

namespace Sys2Proof.Machine

/-! ### The last phase of a tick -/

theorem endOfTick_of_faulted {s : State} (h : s.MODE = .faulted) : endOfTick s = s := if_pos h

theorem endOfTick_of_not_faulted {s : State} (h : s.MODE ≠ .faulted) : endOfTick s = timerPhase s := if_neg h

/-- The last phase moves the timers and the outputs only (R97). -/
theorem endOfTick_rest (s : State) :
    endOfTick s = { s with DT := (endOfTick s).DT, ST := (endOfTick s).ST, out := (endOfTick s).out } := by
  by_cases h : s.MODE = .faulted
  · rw [endOfTick_of_faulted h]
  · rw [endOfTick_of_not_faulted h]
    exact timerPhase_rest s

section
variable (s : State)

@[simp] theorem endOfTick_V : (endOfTick s).V = s.V := by rw [endOfTick_rest]
@[simp] theorem endOfTick_I : (endOfTick s).I = s.I := by rw [endOfTick_rest]
@[simp] theorem endOfTick_pc : (endOfTick s).pc = s.pc := by rw [endOfTick_rest]
@[simp] theorem endOfTick_SP : (endOfTick s).SP = s.SP := by rw [endOfTick_rest]
@[simp] theorem endOfTick_MEM : (endOfTick s).MEM = s.MEM := by rw [endOfTick_rest]
@[simp] theorem endOfTick_FB : (endOfTick s).FB = s.FB := by rw [endOfTick_rest]
@[simp] theorem endOfTick_K : (endOfTick s).K = s.K := by rw [endOfTick_rest]
@[simp] theorem endOfTick_MODE : (endOfTick s).MODE = s.MODE := by rw [endOfTick_rest]
@[simp] theorem endOfTick_WAITREG : (endOfTick s).WAITREG = s.WAITREG := by rw [endOfTick_rest]
@[simp] theorem endOfTick_FCAUSE : (endOfTick s).FCAUSE = s.FCAUSE := by rw [endOfTick_rest]
@[simp] theorem endOfTick_FINFO : (endOfTick s).FINFO = s.FINFO := by rw [endOfTick_rest]
@[simp] theorem endOfTick_params : (endOfTick s).params = s.params := by rw [endOfTick_rest]

end

/-- One timer, over a timer phase or none: it falls by 0 or 1 (R97, R216). -/
def CountedDown (before after : Byte) : Prop := after.toNat ≤ before.toNat ∧ before.toNat ≤ after.toNat + 1

theorem CountedDown.refl (v : Byte) : CountedDown v v := ⟨le_refl _, Nat.le_succ _⟩

theorem timerPhase_DT_countedDown (s : State) : CountedDown s.DT (timerPhase s).DT := by
  rw [CountedDown, toNat_timerPhase_DT]
  split <;> omega

theorem timerPhase_ST_countedDown (s : State) : CountedDown s.ST (timerPhase s).ST := by
  rw [CountedDown, toNat_timerPhase_ST]
  split <;> omega

theorem endOfTick_DT_countedDown (s : State) : CountedDown s.DT (endOfTick s).DT := by
  by_cases h : s.MODE = .faulted
  · rw [endOfTick_of_faulted h]
    exact .refl _
  · rw [endOfTick_of_not_faulted h]
    exact timerPhase_DT_countedDown s

theorem endOfTick_ST_countedDown (s : State) : CountedDown s.ST (endOfTick s).ST := by
  by_cases h : s.MODE = .faulted
  · rw [endOfTick_of_faulted h]
    exact .refl _
  · rw [endOfTick_of_not_faulted h]
    exact timerPhase_ST_countedDown s

/-! ### The tick -/

/-- The state a tick may answer from `s`: one constructor for each way a tick can end. -/
inductive Ticked (s : State) : State → Prop where
  | fetchFault (hmode : s.MODE = .running) : Ticked s (takeFault .memBounds 0x1000 s)
  | rejected {e : DecodeError} (hf : Fetches s (s.wordAt s.pc.toNat)) (hd : decode (s.wordAt s.pc.toNat) = .error e) :
      Ticked s (takeFault .illegalOpcode (s.wordAt s.pc.toNat).toNat s)
  | executed {i : Instr} {u : State} (hf : Fetches s (s.wordAt s.pc.toNat))
      (hd : decode (s.wordAt s.pc.toNat) = .ok i) (he : Executed s i u) : Ticked s (endOfTick u)
  | waiting (hmode : s.MODE = .awaitingKey) : Ticked s (timerPhase s)
  | stopped (hmode : s.MODE = .faulted) : Ticked s s

theorem fetches_of_pc_ne {s : State} (hmode : s.MODE = .running) (hpc : s.pc ≠ 0xFFF#12) :
    Fetches s (s.wordAt s.pc.toNat) where
  mode := hmode
  pc := by bv_omega
  word := rfl

/-- A tick in Running whose word decodes to `i` is `exec i`, then the last phase (R92). -/
theorem tick_of_decode {s : State} {w : Word} {i : Instr} (hf : Fetches s w) (hd : decode w = .ok i) :
    tick s = onNext endOfTick (exec i s) := by
  simp only [tick, hf.mode, tickRunning, fetch_of_fetches hf, hd]

theorem tick_of_exec {s u : State} {w : Word} {i : Instr} (hf : Fetches s w) (hd : decode w = .ok i)
    (he : exec i s = .next u) : tick s = .next (endOfTick u) := by
  rw [tick_of_decode hf hd, he, onNext]

theorem tick_of_faulted {s : State} (h : s.MODE = .faulted) : tick s = .next s := by
  rw [tick, h]

theorem tick_ticked (s : State) : ∃ t, tick s = .next t ∧ Ticked s t := by
  cases hmode : s.MODE with
  | faulted => exact ⟨s, tick_of_faulted hmode, .stopped hmode⟩
  | awaitingKey => exact ⟨_, tick_of_awaitingKey hmode, .waiting hmode⟩
  | running =>
    by_cases hpc : s.pc = 0xFFF#12
    · exact ⟨_, tick_of_fetch_raised hmode (fetch_at_top hpc), .fetchFault hmode⟩
    · have hf := fetches_of_pc_ne hmode hpc
      cases hd : decode (s.wordAt s.pc.toNat) with
      | error e => exact ⟨_, tick_of_decode_error hf hd, .rejected hf hd⟩
      | ok i =>
        obtain ⟨u, hu, he⟩ := exec_executed i s
        exact ⟨_, tick_of_exec hf hd hu, .executed hf hd he⟩

theorem ticked_of_tick {s t : State} (h : tick s = .next t) : Ticked s t := by
  obtain ⟨u, hu, ht⟩ := tick_ticked s
  cases hu.symm.trans h
  exact ht

/-! ### The host events -/

theorem hostEvent_setKeyState (code : Byte) (pressed : Bool) (s : State) :
    hostEvent (.setKeyState code pressed) s = setKeyState code pressed s := rfl

theorem hostEvent_reset (s : State) : hostEvent .reset s = resetState s := rfl

theorem hostEvent_loadROM (bytes : List Byte) (s : State) : hostEvent (.loadROM bytes) s = loadROM bytes s := rfl

theorem setKeyState_of_gt {code : Byte} (pressed : Bool) (s : State) (h : code.toNat > 0x0F) :
    setKeyState code pressed s = s := if_pos h

/-- A key write that wakes nothing: a release, or a press in a mode other than AwaitingKey (R218). -/
theorem setKeyState_of_not_waking {code : Byte} {pressed : Bool} {k : Nibble} {s : State} (hk : code.toNat = k.toNat)
    (h : pressed = false ∨ s.MODE ≠ .awaitingKey) : setKeyState code pressed s = s.setKey k pressed := by
  have hcode : ¬ code.toNat > 0x0F := by have := k.isLt; omega
  have hasleep : ¬ (pressed = true ∧ s.MODE = .awaitingKey) := by
    rintro ⟨rfl, hmode⟩
    exact h.elim Bool.noConfusion (absurd hmode)
  simp only [setKeyState, hcode, ofNat4_eq hk, if_false, setKey_MODE, hasleep]

/-- A press while waiting gives the code to `V[WAITREG]`, passes the instruction that waits and resumes (R172, R218). -/
theorem setKeyState_of_waking {code : Byte} {k : Nibble} {s : State} (hk : code.toNat = k.toNat)
    (h : s.MODE = .awaitingKey) :
    setKeyState code true s = { ((s.setKey k true).setV s.WAITREG code).advance 2 with MODE := .running } := by
  have hcode : ¬ code.toNat > 0x0F := by have := k.isLt; omega
  simp only [setKeyState, hcode, ofNat4_eq hk, if_false, setKey_MODE, h, and_self, if_true, setKey_WAITREG]

/-- An image of at most 3584 bytes fits between 0x200 and 0xFFF (R242). -/
theorem loadROM_of_fits {bytes : List Byte} (s : State) (h : bytes.length ≤ 3584) :
    loadROM bytes s = setBytes bytes 0x200 (resetState s) := by
  have hstore := storeBytes_fits (vs := bytes) (a := Config.progBase) (resetState s)
    (by simp only [Config.progBase]; omega)
  simp only [loadROM, hstore]
  rfl

/-- A longer image is cut off at 0x1000 and faults (R242). -/
theorem loadROM_of_leaves {bytes : List Byte} (s : State) (h : bytes.length > 3584) :
    loadROM bytes s = takeFault .memBounds 0x1000 (setBytes (bytes.take 3584) 0x200 (resetState s)) := by
  have hstore := storeBytes_raises (vs := bytes) (a := Config.progBase) (resetState s)
    (by simp only [Config.progBase]; omega) (by simp only [Config.progBase]; omega)
  simp only [loadROM, hstore]
  rfl

/-- The state a host event may answer from `s`. The events that touch neither MODE nor the key latch, the framebuffer,
the stack pointer and the timers are one case, `write`. -/
inductive Hosted (s : State) : HostEvent → State → Prop where
  | key (code : Byte) (pressed : Bool) (k : Vector Bool 16) : Hosted s (.setKeyState code pressed) { s with K := k }
  | wake {code : Byte} (v : Vector Byte 16) (k : Vector Bool 16) (p : Addr) (hmode : s.MODE = .awaitingKey)
      (hcode : code.toNat ≤ 0x0F) :
      Hosted s (.setKeyState code true) { s with V := v, K := k, pc := p, MODE := .running }
  | reset : Hosted s .reset (resetState s)
  | load {bytes : List Byte} (m : Memory) (hlen : bytes.length ≤ 3584)
      (hm : Memory.wf s.params.font s.MEM = true → Memory.wf s.params.font m = true) :
      Hosted s (.loadROM bytes) { resetState s with MEM := m }
  | loadFault {bytes : List Byte} (m : Memory) (hlen : bytes.length > 3584)
      (hm : Memory.wf s.params.font s.MEM = true → Memory.wf s.params.font m = true) :
      Hosted s (.loadROM bytes) (takeFault .memBounds 0x1000 { resetState s with MEM := m })
  | write (e : HostEvent) (v : Vector Byte 16) (a : Word) (p : Addr) (m : Memory) (o : Outputs)
      (hm : Memory.wf s.params.font s.MEM = true → Memory.wf s.params.font m = true)
      (ha : s.I.toNat ≤ 0x0FFF → a.toNat ≤ 0x0FFF) :
      Hosted s e { s with V := v, I := a, pc := p, MEM := m, out := o }

theorem hosted_setKeyState (code : Byte) (pressed : Bool) (s : State) :
    Hosted s (.setKeyState code pressed) (setKeyState code pressed s) := by
  by_cases hcode : code.toNat > 0x0F
  · rw [setKeyState_of_gt pressed s hcode]
    exact .key code pressed s.K
  · have hk : code.toNat = (BitVec.ofNat 4 code.toNat).toNat := (toNat_ofNat4 (by omega)).symm
    by_cases hwake : pressed = false ∨ s.MODE ≠ .awaitingKey
    · rw [setKeyState_of_not_waking hk hwake]
      exact .key code pressed _
    · simp only [not_or, Bool.not_eq_false, not_not] at hwake
      obtain ⟨rfl, hmode⟩ := hwake
      rw [setKeyState_of_waking hk hmode]
      exact .wake _ _ _ hmode (by omega)

theorem hosted_loadROM (bytes : List Byte) (s : State) : Hosted s (.loadROM bytes) (loadROM bytes s) := by
  by_cases hlen : bytes.length ≤ 3584
  · rw [loadROM_of_fits s hlen, setBytes_rest]
    exact .load _ hlen (setBytes_wf (s := resetState s) (by omega))
  · rw [loadROM_of_leaves s (by omega), setBytes_rest]
    exact .loadFault _ (by omega) (setBytes_wf (s := resetState s) (by simp; omega))

theorem hosted_debugSetI (v : Word) (s : State) : Hosted s (.debugSetI v) (debugSetI v s) := by
  by_cases h : v.toNat > 0xFFF
  · rw [debugSetI, if_pos h]
    exact .write _ s.V s.I s.pc s.MEM _ id id
  · rw [debugSetI, if_neg h]
    refine .write _ s.V _ s.pc s.MEM s.out id fun _ => ?_
    rw [BitVec.toNat_ofNat]
    omega

/-- Every host event answers a state `Hosted` allows. -/
theorem hostEvent_hosted (e : HostEvent) (s : State) : Hosted s e (hostEvent e s) := by
  cases e with
  | setKeyState code pressed => exact hosted_setKeyState code pressed s
  | reset => exact .reset
  | loadROM bytes => exact hosted_loadROM bytes s
  | writeByte a v => exact .write _ s.V s.I s.pc _ s.out (wf_put s.params.font a.isLt) id
  | debugSetPC v =>
    rw [hostEvent, debugSetPC]
    split
    · exact .write _ s.V s.I s.pc s.MEM _ id id
    · exact .write _ s.V s.I _ s.MEM s.out id id
  | debugSetReg i v =>
    rw [hostEvent, debugSetReg]
    split
    · exact .write _ s.V s.I s.pc s.MEM _ id id
    · exact .write _ _ s.I s.pc s.MEM s.out id id
  | debugSetI v => exact hosted_debugSetI v s

/-! ### The step -/

/-- The state a step begins to work on: outputs cleared, and a host event off the list (R29, R90; logs 1, 2). -/
def State.atEvent (s : State) (rest : List Input) : State := { clearOutputs s with inputs := rest }

/-- The state a step may answer from `s`. -/
inductive Stepped (s : State) : State → Prop where
  | event {e : HostEvent} {rest : List Input} {t : State} (hin : s.inputs = .event e :: rest)
      (he : Hosted (s.atEvent rest) e t) : Stepped s t
  | ticked {u : State} (hnext : TickIsNext s) (ht : Ticked (clearOutputs s) u) : Stepped s (spendInputs u)

theorem step_of_event {s : State} {e : HostEvent} {rest : List Input} (h : s.inputs = .event e :: rest) :
    step s = .next (hostEvent e (s.atEvent rest)) := by
  simp only [step, nextStep, h]
  rfl

theorem step_of_tickIsNext {s : State} (h : TickIsNext s) : step s = onNext spendInputs (tick (clearOutputs s)) := by
  rw [step, nextStep]
  split
  case h_1 e rest heq => exact absurd heq (h e rest)
  case h_2 => rfl

theorem step_of_tick {s u : State} (h : TickIsNext s) (ht : tick (clearOutputs s) = .next u) :
    step s = .next (spendInputs u) := by
  rw [step_of_tickIsNext h, ht, onNext]

/-- The next step is a host event or a tick (R90). -/
theorem event_or_tickIsNext (s : State) : (∃ e rest, s.inputs = .event e :: rest) ∨ TickIsNext s := by
  by_cases h : ∃ e rest, s.inputs = .event e :: rest
  · exact .inl h
  · exact .inr fun e rest heq => h ⟨e, rest, heq⟩

theorem step_stepped (s : State) : ∃ t, step s = .next t ∧ Stepped s t := by
  obtain ⟨e, rest, hin⟩ | hnext := event_or_tickIsNext s
  · exact ⟨_, step_of_event hin, .event hin (hostEvent_hosted e _)⟩
  · obtain ⟨u, hu, ht⟩ := tick_ticked (clearOutputs s)
    exact ⟨_, step_of_tick hnext hu, .ticked hnext ht⟩

theorem stepped_of_step {s t : State} (h : step s = .next t) : Stepped s t := by
  obtain ⟨u, hu, ht⟩ := step_stepped s
  cases hu.symm.trans h
  exact ht

end Sys2Proof.Machine
end

section
/-! PROOFS. The invariants of 10_state.md (R13, R14, R17, R26, R200): every step keeps them, each proved over the cases
of `Stepped`. -/

namespace Sys2Proof.Machine

/-! ### The stack pointer stays legal -/

theorem Executed.stackLegal {s t : State} {i : Instr} (he : Executed s i t) (h : s.stackLegal) : t.stackLegal := by
  obtain ⟨k, hk, hs⟩ := h
  cases he with
  | registers | address | screen | store | delayTimer | soundTimer | wait => exact ⟨k, hk, hs⟩
  | call _ _ _ _ hsp => exact ⟨k + 1, by omega, by simp only; omega⟩
  | ret _ _ hsp => exact ⟨k - 1, by omega, by simp only; omega⟩
  | fault _ _ _ _ _ _ _ _ _ hsp => exact ⟨k, hk, (hsp ⟨k, hk, hs⟩).trans hs⟩

/-! ### The invariant -/

/-- The part of the invariant that fault entry and the change of MODE do not touch. -/
structure DataInv (s : State) : Prop where
  memory  : Memory.wf s.params.font s.MEM = true
  address : s.I.toNat ≤ 0x0FFF
  stack   : s.stackLegal

/-- The part of the invariant about the fault record. -/
structure RecordInv (s : State) : Prop where
  record : s.MODE = .faulted ↔ s.FCAUSE ≠ none
  info   : s.FCAUSE = none → s.FINFO = 0x0000#16

theorem State.Inv.data {s : State} (h : s.Inv) : DataInv s := ⟨h.memory, h.address, h.stack⟩

theorem State.Inv.recordInv {s : State} (h : s.Inv) : RecordInv s := ⟨h.record, h.info⟩

theorem DataInv.inv {s : State} (h : DataInv s) (hr : RecordInv s) : s.Inv :=
  ⟨h.memory, h.address, h.stack, hr.record, hr.info⟩

/-- Fault entry fills the record (R207). -/
theorem takeFault_recordInv (c : Cause) (n : Nat) (s : State) : RecordInv (takeFault c n s) where
  record := by simp
  info h := by simp at h

/-- Outside Faulted the record is empty, so a change between the other two modes keeps it (R26). -/
theorem RecordInv.of_not_faulted {s t : State} (h : RecordInv s) (hs : s.MODE ≠ .faulted) (ht : t.MODE ≠ .faulted)
    (hc : t.FCAUSE = s.FCAUSE) (hi : t.FINFO = s.FINFO) : RecordInv t := by
  have hnone : s.FCAUSE = none := by
    by_contra hne
    exact hs (h.record.mpr hne)
  exact ⟨by simp [ht, hc, hnone], fun _ => hi.trans (h.info hnone)⟩

theorem Executed.dataInv {s t : State} {i : Instr} (he : Executed s i t) (h : DataInv s) : DataInv t := by
  refine ⟨?memory, ?address, he.stackLegal h.stack⟩
  case memory =>
    cases he with
    | registers | address | screen | ret | delayTimer | soundTimer | wait => exact h.memory
    | store _ _ hm | call _ _ _ hm | fault _ _ _ _ _ _ _ _ hm => exact hm.wf h.memory
  case address =>
    cases he with
    | registers | screen | store | call | ret | delayTimer | soundTimer | wait | fault => exact h.address
    | address _ _ _ _ _ ha => exact ha h.address

theorem Executed.recordInv {s t : State} {i : Instr} (he : Executed s i t) (hmode : s.MODE = .running)
    (h : RecordInv s) : RecordInv t := by
  have hs : s.MODE ≠ .faulted := by simp [hmode]
  cases he with
  | registers | address | screen | store | call | ret | delayTimer | soundTimer =>
    exact h.of_not_faulted hs hs rfl rfl
  | wait => exact h.of_not_faulted hs Mode.noConfusion rfl rfl
  | fault => exact takeFault_recordInv _ _ _

/-- The invariant does not speak of the timers and the outputs, which are all that the timer phase changes. -/
theorem State.Inv.congr {s t : State} (h : s.Inv) (hm : t.MEM = s.MEM) (hi : t.I = s.I) (hsp : t.SP = s.SP)
    (hp : t.params = s.params) (hmode : t.MODE = s.MODE) (hc : t.FCAUSE = s.FCAUSE) (hf : t.FINFO = s.FINFO) :
    t.Inv where
  memory := by rw [hm, hp]; exact h.memory
  address := by rw [hi]; exact h.address
  stack := by rw [State.stackLegal, hsp, hp]; exact h.stack
  record := by rw [hmode, hc]; exact h.record
  info := by rw [hc, hf]; exact h.info

theorem Ticked.inv {s t : State} (ht : Ticked s t) (h : s.Inv) : t.Inv := by
  cases ht with
  | fetchFault | rejected =>
    exact DataInv.inv ⟨h.memory, h.address, h.stack⟩ (takeFault_recordInv _ _ _)
  | executed hf _ he =>
    have hinv := (he.dataInv h.data).inv (he.recordInv hf.mode h.recordInv)
    apply hinv.congr <;> simp
  | waiting => apply h.congr <;> simp
  | stopped => exact h

theorem Hosted.inv {s t : State} {e : HostEvent} (he : Hosted s e t) (h : s.Inv) : t.Inv := by
  have hbase : (resetState s).stackLegal := ⟨0, by simp, by simp⟩
  cases he with
  | key => exact h.congr rfl rfl rfl rfl rfl rfl rfl
  | wake _ _ _ hmode =>
    refine DataInv.inv ⟨h.memory, h.address, h.stack⟩ (h.recordInv.of_not_faulted ?_ Mode.noConfusion rfl rfl)
    simp [hmode]
  | reset => exact ⟨h.memory, by simp, hbase, by simp, by simp⟩
  | load _ _ hm => exact ⟨hm h.memory, by simp, hbase, by simp, by simp⟩
  | loadFault _ _ hm => exact DataInv.inv ⟨hm h.memory, by simp, hbase⟩ (takeFault_recordInv _ _ _)
  | write _ _ _ _ _ _ hm ha => exact ⟨hm h.memory, ha h.address, h.stack, h.record, h.info⟩

theorem Stepped.inv {s t : State} (ht : Stepped s t) (h : s.Inv) : t.Inv := by
  cases ht with
  | event _ he => exact he.inv (h.congr rfl rfl rfl rfl rfl rfl rfl)
  | ticked _ ht =>
    have hu := ht.inv (h.congr rfl rfl rfl rfl rfl rfl rfl)
    apply hu.congr <;> simp

/-- Settles O46, case by case of what a step can do (`Stepped`): a host event (`Hosted.inv`), or a tick (`Ticked.inv`)
whose instruction keeps the data (`Executed.dataInv`) and the record (`Executed.recordInv`). -/
theorem everyStepKeepsInvariant : Obligations.EveryStepKeepsInvariant :=
  fun _ _ h hstep => (stepped_of_step hstep).inv h

/-- The power-on state: nothing listed in memory, `SP` at the base, no record. -/
theorem powerOn_inv (p : Config.Params) : (State.powerOn p).Inv where
  memory := wf_nil p.font
  address := by simp [State.powerOn]
  stack := ⟨0, Nat.zero_le _, rfl⟩
  record := by simp [State.powerOn]
  info _ := rfl

/-- Settles O45; the reset state is the power-on state of the default parameters. -/
theorem invariantHoldsAtPowerOn : Obligations.InvariantHoldsAtPowerOn :=
  ⟨fun p => ⟨powerOn_inv p, fun _ h => by cases h⟩, powerOn_inv defaultParams⟩

/-! ### The fault record stays legal -/

theorem recordLegal_takeFault {c : Cause} {n : Nat} (s : State) (h : causeInfoLegal c (BitVec.ofNat 16 n)) :
    (takeFault c n s).recordLegal := by
  rintro c' ⟨⟩
  exact h

theorem recordLegal_of_none {s : State} (h : s.FCAUSE = none) : s.recordLegal := by
  intro c hc
  cases h.symm.trans hc

theorem State.recordLegal.congr {s t : State} (h : s.recordLegal) (hc : t.FCAUSE = s.FCAUSE)
    (hi : t.FINFO = s.FINFO) : t.recordLegal := by
  rw [State.recordLegal, hc, hi]
  exact h

theorem Executed.recordLegal {s t : State} {i : Instr} (he : Executed s i t) (hi : i.wf = true) (hd : DataInv s)
    (h : s.recordLegal) : t.recordLegal := by
  cases he with
  | registers | address | screen | store | call | ret | delayTimer | soundTimer | wait => exact h
  | fault _ _ _ _ _ _ _ _ _ _ hn => exact recordLegal_takeFault _ (hn hd.address hd.stack hi)

theorem Ticked.recordLegal {s t : State} (ht : Ticked s t) (hd : DataInv s) (h : s.recordLegal) : t.recordLegal := by
  cases ht with
  | fetchFault => exact recordLegal_takeFault s (memBounds_legal rfl)
  | @rejected e _ hdec =>
    refine recordLegal_takeFault s ⟨e, ?_⟩
    rw [BitVec.ofNat_toNat, BitVec.setWidth_eq]
    exact hdec
  | executed _ hdec he =>
    obtain ⟨hwf, -⟩ := encode_of_decode hdec
    exact (he.recordLegal hwf hd h).congr (endOfTick_FCAUSE _) (endOfTick_FINFO _)
  | waiting => exact h.congr (timerPhase_FCAUSE _) (timerPhase_FINFO _)
  | stopped => exact h

theorem Hosted.recordLegal {s t : State} {e : HostEvent} (he : Hosted s e t) (h : s.recordLegal) : t.recordLegal := by
  cases he with
  | key | wake | write => exact h
  | reset | load => exact recordLegal_of_none rfl
  | loadFault => exact recordLegal_takeFault _ (memBounds_legal rfl)

/-- Settles O47: each instruction faults with a value its cause can have (`Executed.fault`); that SYS's word is a SYS
word holds because the instruction was decoded (`encode_of_decode`). -/
theorem everyStepKeepsFaultRecordLegal : Obligations.EveryStepKeepsFaultRecordLegal := by
  intro s t hinv h hstep
  cases stepped_of_step hstep with
  | event _ he => exact he.recordLegal h
  | ticked _ ht =>
    have hd : DataInv (clearOutputs s) := ⟨hinv.memory, hinv.address, hinv.stack⟩
    exact (ht.recordLegal hd h).congr (spendInputs_FCAUSE _) (spendInputs_FINFO _)

end Sys2Proof.Machine
end

section
/-! PROOFS. The whole-machine rules: who changes MODE, the stack pointer, VF, `I`, memory, the framebuffer, the key
latch and the timers. Each is read off the cases of `Executed`, `Ticked`, `Hosted` and `Stepped`. -/

namespace Sys2Proof.Machine

/-! ### The parameters -/

theorem Executed.params_eq {s t : State} {i : Instr} (he : Executed s i t) : t.params = s.params := by
  cases he <;> rfl

theorem Ticked.params_eq {s t : State} (ht : Ticked s t) : t.params = s.params := by
  cases ht with
  | fetchFault | rejected | stopped => rfl
  | executed _ _ he => exact (endOfTick_params _).trans he.params_eq
  | waiting => exact timerPhase_params s

theorem Hosted.params_eq {s t : State} {e : HostEvent} (he : Hosted s e t) : t.params = s.params := by
  cases he <;> rfl

theorem Stepped.params_eq {s t : State} (ht : Stepped s t) : t.params = s.params := by
  cases ht with
  | event _ he => exact he.params_eq
  | ticked _ ht => exact (spendInputs_params _).trans ht.params_eq

/-- Settles O48: both kinds of step answer (`step_stepped`), and neither writes the parameters. -/
theorem everyStepAnswers : Obligations.EveryStepAnswers := by
  intro s
  obtain ⟨t, hstep, ht⟩ := step_stepped s
  exact ⟨t, hstep, ht.params_eq⟩

/-! ### Fault entry -/

/-- A tick that ends in Faulted skipped the timer phase: every field listed is as it was (R100, R207). -/
theorem Executed.faulted_frame {s t : State} {i : Instr} (he : Executed s i t) (hmode : s.MODE = .running)
    (hlegal : s.stackLegal) (hf : t.MODE = .faulted) :
    (∃ c, t.FCAUSE = some c ∧ t.out.fault = some (c, t.FINFO)) ∧
      t.pc = s.pc ∧ t.SP = s.SP ∧ t.DT = s.DT ∧ t.ST = s.ST ∧ t.out.beep = s.out.beep ∧
      t.I = s.I ∧ t.K = s.K ∧ t.WAITREG = s.WAITREG := by
  cases he with
  | registers | address | screen | store | call | ret | delayTimer | soundTimer => cases hmode.symm.trans hf
  | wait => cases hf
  | fault c _ _ _ _ _ _ _ _ hsp => exact ⟨⟨c, rfl, rfl⟩, rfl, hsp hlegal, rfl, rfl, rfl, rfl, rfl, rfl⟩

/-- Settles O11: the tick faulted in its fetch, its decode, or its instruction (`Executed.faulted_frame`); the last
phase of a tick leaves a Faulted state alone. -/
theorem faultEntryKeepsPcAndTimers : Obligations.FaultEntryKeepsPcAndTimers := by
  intro s t hmode hlegal htick hf
  cases ticked_of_tick htick with
  | fetchFault | rejected => exact ⟨⟨_, rfl, rfl⟩, rfl, rfl, rfl, rfl, rfl, rfl, rfl, rfl⟩
  | executed _ _ he =>
    rw [endOfTick_MODE] at hf
    rw [endOfTick_of_faulted hf]
    exact he.faulted_frame hmode hlegal hf
  | waiting hwait => cases hmode.symm.trans hwait
  | stopped hstop => cases hmode.symm.trans hstop

/-! ### MODE -/

theorem Executed.mode {s t : State} {i : Instr} (he : Executed s i t) :
    t.MODE = s.MODE ∨ (∃ x, i = .ldVxK x ∧ t.MODE = .awaitingKey ∧ t.WAITREG = x) ∨
      (t.MODE = .faulted ∧ t.out.fault ≠ none) := by
  cases he with
  | registers | address | screen | store | call | ret | delayTimer | soundTimer => exact .inl rfl
  | @wait x hi => exact .inr (.inl ⟨x, hi, rfl, rfl⟩)
  | fault => exact .inr (.inr ⟨rfl, Option.some_ne_none _⟩)

theorem Ticked.mode {s t : State} (ht : Ticked s t) :
    t.MODE = s.MODE ∨
      (s.MODE = .running ∧ t.MODE = .awaitingKey ∧ ∃ x, decode (s.wordAt s.pc.toNat) = .ok (.ldVxK x) ∧ t.WAITREG = x) ∨
      (s.MODE = .running ∧ t.MODE = .faulted ∧ t.out.fault ≠ none) := by
  cases ht with
  | fetchFault hmode => exact .inr (.inr ⟨hmode, rfl, Option.some_ne_none _⟩)
  | rejected hf => exact .inr (.inr ⟨hf.mode, rfl, Option.some_ne_none _⟩)
  | executed hf hd he =>
    obtain hkept | ⟨x, rfl, hwait, hreg⟩ | ⟨hfault, hout⟩ := he.mode
    · exact .inl ((endOfTick_MODE _).trans hkept)
    · exact .inr (.inl ⟨hf.mode, (endOfTick_MODE _).trans hwait, x, hd, (endOfTick_WAITREG _).trans hreg⟩)
    · rw [endOfTick_of_faulted hfault]
      exact .inr (.inr ⟨hf.mode, hfault, hout⟩)
  | waiting => exact .inl (timerPhase_MODE s)
  | stopped => exact .inl rfl

theorem Hosted.mode {s t : State} {e : HostEvent} (he : Hosted s e t) :
    t.MODE = s.MODE ∨
      (s.MODE = .awaitingKey ∧ t.MODE = .running ∧ ∃ code, e = .setKeyState code true ∧ code.toNat ≤ 0x0F) ∨
      (e = .reset ∧ t.MODE = .running) ∨
      (∃ bytes, e = .loadROM bytes ∧ t.MODE = if bytes.length ≤ 3584 then .running else .faulted) := by
  cases he with
  | key | write => exact .inl rfl
  | @wake code _ _ _ hmode hcode => exact .inr (.inl ⟨hmode, rfl, code, rfl, hcode⟩)
  | reset => exact .inr (.inr (.inl ⟨rfl, rfl⟩))
  | @load bytes _ hlen => exact .inr (.inr (.inr ⟨bytes, rfl, (if_pos hlen).symm⟩))
  | @loadFault bytes _ hlen => exact .inr (.inr (.inr ⟨bytes, rfl, (if_neg (Nat.not_le_of_gt hlen)).symm⟩))

/-- Settles O49: a tick changes MODE in two ways (`Ticked.mode`), a host event in three (`Hosted.mode`). -/
theorem modeTransitions : Obligations.ModeTransitions := by
  intro s t hstep hne
  cases stepped_of_step hstep with
  | event hin he =>
    obtain hkept | ⟨hs, ht, code, rfl, hcode⟩ | ⟨rfl, ht⟩ | ⟨bytes, rfl, ht⟩ := he.mode
    · exact absurd hkept hne
    · exact .inr (.inl ⟨hs, ht, code, _, hin, hcode⟩)
    · exact .inr (.inr (.inr (.inl ⟨_, hin, ht⟩)))
    · exact .inr (.inr (.inr (.inr ⟨bytes, _, hin, ht⟩)))
  | ticked hnext ht =>
    rw [spendInputs_MODE] at hne ⊢
    rw [spendInputs_WAITREG, spendInputs_out]
    obtain hkept | ⟨hs, hwait, hk⟩ | ⟨hs, hfault, hout⟩ := ht.mode
    · exact absurd hkept hne
    · exact .inl ⟨hs, hwait, hnext, hk⟩
    · exact .inr (.inr (.inl ⟨hs, hfault, hout⟩))

/-! ### The stack pointer -/

theorem Executed.SP_cases {s t : State} {i : Instr} (he : Executed s i t) (hlegal : s.stackLegal) :
    t.SP = s.SP ∨ (∃ nnn, i = .call nnn ∧ t.SP = s.SP + 2) ∨ (i = .ret ∧ t.SP + 2 = s.SP) := by
  cases he with
  | registers | address | screen | store | delayTimer | soundTimer | wait => exact .inl rfl
  | @call nnn hi => exact .inr (.inl ⟨nnn, hi, rfl⟩)
  | ret hi _ hsp =>
    obtain ⟨k, -, hs⟩ := hlegal
    exact .inr (.inr ⟨hi, Nat.sub_add_cancel (by omega)⟩)
  | fault _ _ _ _ _ _ _ _ _ hsp => exact .inl (hsp hlegal)

theorem Ticked.SP_cases {s t : State} (ht : Ticked s t) (hlegal : s.stackLegal) :
    t.SP = s.SP ∨ (Fetches s (s.wordAt s.pc.toNat) ∧
      ((∃ nnn, decode (s.wordAt s.pc.toNat) = .ok (.call nnn) ∧ t.SP = s.SP + 2) ∨
        (decode (s.wordAt s.pc.toNat) = .ok .ret ∧ t.SP + 2 = s.SP))) := by
  cases ht with
  | fetchFault | rejected | stopped => exact .inl rfl
  | executed hf hd he =>
    rw [endOfTick_SP]
    obtain hkept | ⟨nnn, rfl, hsp⟩ | ⟨rfl, hsp⟩ := he.SP_cases hlegal
    · exact .inl hkept
    · exact .inr ⟨hf, .inl ⟨nnn, hd, hsp⟩⟩
    · exact .inr ⟨hf, .inr ⟨hd, hsp⟩⟩
  | waiting => exact .inl (timerPhase_SP s)

/-- Of the host events only Reset and LoadROM touch the stack pointer, the framebuffer and the timers. -/
theorem Hosted.kept_or_reset {s t : State} {e : HostEvent} (he : Hosted s e t) :
    (t.SP = s.SP ∧ t.FB = s.FB ∧ t.DT = s.DT ∧ t.ST = s.ST) ∨ e = .reset ∨ ∃ bytes, e = .loadROM bytes := by
  cases he with
  | key | wake | write => exact .inl ⟨rfl, rfl, rfl, rfl⟩
  | reset => exact .inr (.inl rfl)
  | @load bytes | @loadFault bytes => exact .inr (.inr ⟨bytes, rfl⟩)

/-- What a fetch finds does not depend on the outputs. -/
theorem fetches_of_clearOutputs {s : State} {w : Word} (h : Fetches (clearOutputs s) w) : Fetches s w :=
  ⟨h.mode, h.pc, h.word⟩

/-- Settles O50: CALL and RET move the stack pointer by one entry (`Ticked.SP_cases`), Reset and LoadROM reset it. -/
theorem stackPointerWriters : Obligations.StackPointerWriters := by
  intro s t hlegal hstep hne
  cases stepped_of_step hstep with
  | event hin he =>
    obtain ⟨hkept, -⟩ | rfl | ⟨bytes, rfl⟩ := he.kept_or_reset
    · exact absurd hkept hne
    · exact .inr (.inl ⟨_, hin⟩)
    · exact .inr (.inr ⟨bytes, _, hin⟩)
  | ticked hnext ht =>
    rw [spendInputs_SP] at hne ⊢
    obtain hkept | ⟨hf, hsp⟩ := ht.SP_cases hlegal
    · exact absurd hkept hne
    · exact .inl ⟨fetches_of_clearOutputs hf, hnext, hsp⟩

/-! ### VF, `I`, memory -/

theorem Executed.flagLaw {s t : State} {i : Instr} (he : Executed s i t) : FlagLaw s i t := by
  cases he with
  | registers _ _ hv | address _ _ _ _ hv | screen _ _ _ _ hv | fault _ _ _ _ _ _ hv => exact hv
  | store | call | ret | delayTimer | soundTimer | wait => exact .of_kept i rfl

/-- Settles O51: `FlagWrite` is the statement's list, instruction by instruction, and `exec` obeys it
(`Executed.flagLaw`). -/
theorem flagWriters : Obligations.FlagWriters := by
  intro s t i hexec hne
  have hw := (executed_of_exec hexec).flagLaw hne
  cases i
  case addReg x y => exact .inl ⟨x, y, .inl rfl, hw⟩
  case sub x y => exact .inl ⟨x, y, .inr rfl, hw⟩
  case shr x y => exact .inr (.inl ⟨x, y, .inl rfl, hw⟩)
  case subn x y => exact .inr (.inl ⟨x, y, .inr (.inl rfl), hw⟩)
  case shl x y => exact .inr (.inl ⟨x, y, .inr (.inr rfl), hw⟩)
  case addI x => exact .inr (.inr (.inl ⟨x, rfl, hw⟩))
  case drw x y n => exact .inr (.inr (.inr (.inl ⟨x, y, n, rfl, hw⟩)))
  case ldImm x nn | addImm x nn | rnd x nn =>
    obtain rfl : x = 0xF#4 := hw
    exact .inr (.inr (.inr (.inr (.inl ⟨nn, by simp⟩))))
  case ldReg x y | orReg x y | andReg x y | xorReg x y =>
    obtain rfl : x = 0xF#4 := hw
    exact .inr (.inr (.inr (.inr (.inr (.inl ⟨y, by simp⟩)))))
  case ldVxDt x | ldRegs x =>
    obtain rfl : x = 0xF#4 := hw
    simp
  all_goals exact hw.elim

theorem Executed.I_cases {s t : State} {i : Instr} (he : Executed s i t) : t.I = s.I ∨ SetsAddress i := by
  cases he with
  | registers | screen | store | call | ret | delayTimer | soundTimer | wait | fault => exact .inl rfl
  | address hi => exact .inr hi

/-- Settles O52, from the one case of `Executed` that writes `I`. -/
theorem addressRegisterWriters : Obligations.AddressRegisterWriters :=
  fun _ _ _ hexec hne => (executed_of_exec hexec).I_cases.resolve_left hne

/-- Settles O53: every case of `Executed` either keeps memory or obeys `MemoryLaw`, whose addresses are the statement's.
-/
theorem memoryWriters : Obligations.MemoryWriters := by
  intro s t i a hexec hne
  cases executed_of_exec hexec with
  | registers | address | screen | ret | delayTimer | soundTimer | wait => exact absurd rfl hne
  | store _ _ hm | call _ _ _ hm | fault _ _ _ _ _ _ _ _ hm => exact hm.bytes a hne

/-! ### The framebuffer and the key latch -/

theorem Executed.FB_cases {s t : State} {i : Instr} (he : Executed s i t) : t.FB = s.FB ∨ Draws i := by
  cases he with
  | registers | address | store | call | ret | delayTimer | soundTimer | wait => exact .inl rfl
  | screen hi => exact .inr hi
  | fault _ _ _ _ _ _ _ hfb => exact hfb

theorem Ticked.FB_cases {s t : State} (ht : Ticked s t) :
    t.FB = s.FB ∨ (s.MODE = .running ∧ ∃ i, decode (s.wordAt s.pc.toNat) = .ok i ∧ Draws i) := by
  cases ht with
  | fetchFault | rejected | stopped => exact .inl rfl
  | @executed i _ hf hd he =>
    rw [endOfTick_FB]
    exact he.FB_cases.imp_right fun hi => ⟨hf.mode, i, hd, hi⟩
  | waiting => exact .inl (timerPhase_FB s)

theorem Executed.K_eq {s t : State} {i : Instr} (he : Executed s i t) : t.K = s.K := by
  cases he <;> rfl

theorem Ticked.K_eq {s t : State} (ht : Ticked s t) : t.K = s.K := by
  cases ht with
  | fetchFault | rejected | stopped => rfl
  | executed _ _ he => exact (endOfTick_K _).trans he.K_eq
  | waiting => exact timerPhase_K s

theorem Hosted.K_cases {s t : State} {e : HostEvent} (he : Hosted s e t) :
    t.K = s.K ∨ ∃ code pressed, e = .setKeyState code pressed := by
  cases he with
  | key code pressed => exact .inr ⟨code, pressed, rfl⟩
  | @wake code => exact .inr ⟨code, true, rfl⟩
  | reset | load | loadFault | write => exact .inl rfl

/-- Settles O54: in a tick only CLS and DRW draw (`Ticked.FB_cases`) and no instruction writes the latch
(`Ticked.K_eq`). -/
theorem screenAndKeyWriters : Obligations.ScreenAndKeyWriters := by
  intro s t hstep
  cases stepped_of_step hstep with
  | event hin he =>
    constructor
    · intro hne
      obtain ⟨-, hkept, -⟩ | rfl | ⟨bytes, rfl⟩ := he.kept_or_reset
      · exact absurd hkept hne
      · exact .inr (.inl ⟨_, hin⟩)
      · exact .inr (.inr ⟨bytes, _, hin⟩)
    · intro hne
      obtain ⟨code, pressed, rfl⟩ := he.K_cases.resolve_left hne
      exact ⟨code, pressed, _, hin⟩
  | ticked hnext ht =>
    rw [spendInputs_FB, spendInputs_K]
    constructor
    · intro hne
      obtain ⟨hmode, i, hd, hi⟩ := ht.FB_cases.resolve_left hne
      obtain rfl | ⟨x, y, n, rfl⟩ := hi
      · exact .inl ⟨hmode, hnext, .inl hd⟩
      · exact .inl ⟨hmode, hnext, .inr ⟨x, y, n, hd⟩⟩
    · exact fun hne => absurd ht.K_eq hne

/-! ### The timers -/

theorem Executed.DT_cases {s t : State} {i : Instr} (he : Executed s i t) :
    t.DT = s.DT ∨ ∃ x, i = .ldDtVx x ∧ t.DT = s.getV x := by
  cases he with
  | registers | address | screen | store | call | ret | soundTimer | wait | fault => exact .inl rfl
  | @delayTimer x hi => exact .inr ⟨x, hi, rfl⟩

theorem Executed.ST_cases {s t : State} {i : Instr} (he : Executed s i t) :
    t.ST = s.ST ∨ ∃ x, i = .ldStVx x ∧ t.ST = s.getV x := by
  cases he with
  | registers | address | screen | store | call | ret | delayTimer | wait | fault => exact .inl rfl
  | @soundTimer x hi => exact .inr ⟨x, hi, rfl⟩

theorem Ticked.DT_cases {s t : State} (ht : Ticked s t) :
    CountedDown s.DT t.DT ∨
      (s.MODE = .running ∧ ∃ x, decode (s.wordAt s.pc.toNat) = .ok (.ldDtVx x) ∧ CountedDown (s.getV x) t.DT) := by
  cases ht with
  | fetchFault | rejected | stopped => exact .inl (.refl _)
  | @executed i u hf hd he =>
    have hcount := endOfTick_DT_countedDown u
    obtain hkept | ⟨x, rfl, hload⟩ := he.DT_cases
    · exact .inl (hkept ▸ hcount)
    · exact .inr ⟨hf.mode, x, hd, hload ▸ hcount⟩
  | waiting => exact .inl (timerPhase_DT_countedDown s)

theorem Ticked.ST_cases {s t : State} (ht : Ticked s t) :
    CountedDown s.ST t.ST ∨
      (s.MODE = .running ∧ ∃ x, decode (s.wordAt s.pc.toNat) = .ok (.ldStVx x) ∧ CountedDown (s.getV x) t.ST) := by
  cases ht with
  | fetchFault | rejected | stopped => exact .inl (.refl _)
  | @executed i u hf hd he =>
    have hcount := endOfTick_ST_countedDown u
    obtain hkept | ⟨x, rfl, hload⟩ := he.ST_cases
    · exact .inl (hkept ▸ hcount)
    · exact .inr ⟨hf.mode, x, hd, hload ▸ hcount⟩
  | waiting => exact .inl (timerPhase_ST_countedDown s)

/-- Settles O55: a tick counts each timer down from what it was, or from what the timer's own write put there
(`Ticked.DT_cases`, `Ticked.ST_cases`); a host event that is no reset touches neither. -/
theorem timersOnlyCountDown : Obligations.TimersOnlyCountDown := by
  intro s t hstep
  cases stepped_of_step hstep with
  | event hin he =>
    obtain ⟨-, -, hdt, hst⟩ | rfl | ⟨bytes, rfl⟩ := he.kept_or_reset
    · rw [hdt, hst]
      exact .inr (.inr ⟨.inl (CountedDown.refl _), .inl (CountedDown.refl _)⟩)
    · exact .inl ⟨_, hin⟩
    · exact .inr (.inl ⟨bytes, _, hin⟩)
  | ticked _ ht =>
    rw [spendInputs_DT, spendInputs_ST]
    exact .inr (.inr ⟨ht.DT_cases, ht.ST_cases⟩)

end Sys2Proof.Machine
end

section
/-! PROOFS. What reaches a tick: the key latch only through SKP and SKNP (R23, R213), the random byte only through RND
(R27, R91). Both from one fact: `exec` and the tick commute with the replacement of the latch and the host's list. -/

namespace Sys2Proof.Machine

/-- The state with another key latch and another list of the host. -/
def State.withHost (keys : Vector Bool 16) (ins : List Input) (s : State) : State := { s with K := keys, inputs := ins }

/-- What an access comes to, its state changed. -/
def Access.mapState {α : Type} (f : State → State) : Access α → Access α
  | .done a s => .done a (f s)
  | .raised c n s => .raised c n (f s)

section
variable (keys : Vector Bool 16) (ins : List Input) (s : State)

/-- The end of an instruction commutes with the replacement, if its last effects do; fault entry always does. -/
theorem conclude_mapState_withHost {α : Type} (r : Access α) {last : α → State → State}
    (hlast : ∀ a u, last a (u.withHost keys ins) = (last a u).withHost keys ins) :
    conclude (r.mapState (State.withHost keys ins)) last = onNext (State.withHost keys ins) (conclude r last) := by
  cases r with
  | done a u => exact congrArg Host.Outcome.next (hlast a u)
  | raised => rfl

theorem memRead_withHost (a : Nat) :
    memRead (s.withHost keys ins) a = (memRead s a).mapState (State.withHost keys ins) := by
  unfold memRead
  split <;> rfl

theorem memWrite_withHost (a : Nat) (v : Byte) :
    memWrite (s.withHost keys ins) a v = (memWrite s a v).mapState (State.withHost keys ins) := by
  unfold memWrite
  split <;> rfl

theorem memReadWord_withHost (a : Nat) :
    memReadWord (s.withHost keys ins) a = (memReadWord s a).mapState (State.withHost keys ins) := by
  unfold memReadWord
  rw [memRead_withHost]
  cases memRead s a with
  | raised => rfl
  | done high u =>
    simp only [Access.mapState, memRead_withHost]
    cases memRead u (a + 1) <;> rfl

theorem storeBytes_withHost (vs : List Byte) (a : Nat) :
    storeBytes vs a (s.withHost keys ins) = (storeBytes vs a s).mapState (State.withHost keys ins) := by
  induction vs generalizing a s with
  | nil => rfl
  | cons v vs ih =>
    simp only [storeBytes, memWrite_withHost]
    cases memWrite s a v with
    | raised => rfl
    | done _ u => exact ih u (a + 1)

theorem loadRegisters_withHost (count k a : Nat) :
    loadRegisters count k a (s.withHost keys ins) =
      (loadRegisters count k a s).mapState (State.withHost keys ins) := by
  induction count generalizing k a s with
  | zero => rfl
  | succ count ih =>
    simp only [loadRegisters, memRead_withHost]
    cases memRead s a with
    | raised => rfl
    | done v u => exact ih (u.setV _ v) (k + 1) (a + 1)

theorem drawRows_withHost (h x y a : Nat) (c : Bool) :
    drawRows h x y a c (s.withHost keys ins) = (drawRows h x y a c s).mapState (State.withHost keys ins) := by
  induction h generalizing y a c s with
  | zero => rfl
  | succ h ih =>
    simp only [drawRows, memRead_withHost]
    cases memRead s a with
    | raised => rfl
    | done b u => exact ih { u with FB := (drawRow b x y (u.FB, c)).1 } (y + 1) (a + 1) _

theorem drawSprite_withHost (x y h a : Nat) :
    drawSprite x y h a (s.withHost keys ins) = (drawSprite x y h a s).mapState (State.withHost keys ins) := by
  unfold drawSprite
  rw [drawRows_withHost]
  cases drawRows h x y a false s <;> rfl

@[simp] theorem withHost_SP : (s.withHost keys ins).SP = s.SP := rfl

@[simp] theorem withHost_DT : (s.withHost keys ins).DT = s.DT := rfl

@[simp] theorem withHost_ST : (s.withHost keys ins).ST = s.ST := rfl

@[simp] theorem withHost_stackCeiling : (s.withHost keys ins).stackCeiling = s.stackCeiling := rfl

theorem push_withHost (v : Word) :
    push v (s.withHost keys ins) = (push v s).mapState (State.withHost keys ins) := by
  simp only [push, memWriteWord, withHost_SP, withHost_stackCeiling, storeBytes_withHost]
  split
  · rfl
  · cases storeBytes [highByte v, lowByte v] s.SP s <;> rfl

theorem pop_withHost : pop (s.withHost keys ins) = (pop s).mapState (State.withHost keys ins) := by
  by_cases h : s.SP ≤ s.params.stackBase.val
  · rw [pop_of_le h, pop_of_le (s := s.withHost keys ins) h]
    rfl
  · rw [pop_of_not_le h, pop_of_not_le (s := s.withHost keys ins) h]
    exact memReadWord_withHost keys ins { s with SP := s.SP - 2 } (s.SP - 2)

theorem readKey_withHost (v : Byte) (h : keys = s.K) :
    readKey v (s.withHost keys ins) = (readKey v s).mapState (State.withHost keys ins) := by
  subst h
  unfold readKey
  split <;> rfl

/-! ### The instructions -/

/-- Only SKP and SKNP see the latch and only RND sees the random byte, so every other instruction commutes with the
replacement of both, and these three do where what they see is the same. -/
theorem exec_withHost (i : Instr) (hkeys : (∀ x, i ≠ .skp x ∧ i ≠ .sknp x) ∨ keys = s.K)
    (hrnd : (∀ x nn, i ≠ .rnd x nn) ∨ (s.withHost keys ins).tickInputs.rnd = s.tickInputs.rnd) :
    exec i (s.withHost keys ins) = onNext (State.withHost keys ins) (exec i s) := by
  cases i
  case ret =>
    rw [exec_ret, exec_ret, pop_withHost]
    exact conclude_mapState_withHost _ _ _ fun _ _ => rfl
  case call nnn =>
    rw [exec_call, exec_call, ← conclude_mapState_withHost, ← push_withHost]
    · rfl
    · exact fun _ _ => rfl
  case rnd x nn =>
    have hsame := hrnd.resolve_left fun h => h x nn rfl
    rw [exec_rnd, exec_rnd, hsame]
    rfl
  case skp x =>
    have hsame := hkeys.resolve_left fun h => (h x).1 rfl
    rw [exec_skp, exec_skp, readKey_withHost _ _ _ _ hsame]
    exact conclude_mapState_withHost _ _ _ fun _ _ => rfl
  case sknp x =>
    have hsame := hkeys.resolve_left fun h => (h x).2 rfl
    rw [exec_sknp, exec_sknp, readKey_withHost _ _ _ _ hsame]
    exact conclude_mapState_withHost _ _ _ fun _ _ => rfl
  case drw x y n =>
    rw [exec_drw, exec_drw, drawSprite_withHost]
    exact conclude_mapState_withHost _ _ _ fun _ _ => rfl
  case ldB x =>
    rw [exec_ldB, exec_ldB, storeBytes_withHost]
    exact conclude_mapState_withHost _ _ _ fun _ _ => rfl
  case stRegs x =>
    rw [exec_stRegs, exec_stRegs, storeBytes_withHost]
    exact conclude_mapState_withHost _ _ _ fun _ _ => rfl
  case ldRegs x =>
    rw [exec_ldRegs, exec_ldRegs, loadRegisters_withHost]
    exact conclude_mapState_withHost _ _ _ fun _ _ => rfl
  all_goals rfl

/-! ### The tick -/

variable (hdt : (s.withHost keys ins).tickInputs.dueDt = s.tickInputs.dueDt)
  (hst : (s.withHost keys ins).tickInputs.dueSt = s.tickInputs.dueSt)

include hdt in
theorem delayTimerPhase_withHost :
    delayTimerPhase (s.withHost keys ins) = (delayTimerPhase s).withHost keys ins := by
  simp only [delayTimerPhase, hdt, withHost_DT]
  split <;> rfl

include hst in
theorem soundTimerPhase_withHost :
    soundTimerPhase (s.withHost keys ins) = (soundTimerPhase s).withHost keys ins := by
  simp only [soundTimerPhase, hst, withHost_ST]
  split <;> rfl

include hdt hst in
theorem timerPhase_withHost : timerPhase (s.withHost keys ins) = (timerPhase s).withHost keys ins := by
  rw [timerPhase, timerPhase, delayTimerPhase_withHost keys ins s hdt, soundTimerPhase_withHost]
  rw [← delayTimerPhase_withHost keys ins s hdt, delayTimerPhase_tickInputs, delayTimerPhase_tickInputs, hst]

include hdt hst in
theorem endOfTick_withHost : endOfTick (s.withHost keys ins) = (endOfTick s).withHost keys ins := by
  by_cases h : s.MODE = .faulted
  · rw [endOfTick_of_faulted h, endOfTick_of_faulted (s := s.withHost keys ins) h]
  · rw [endOfTick_of_not_faulted h, endOfTick_of_not_faulted (s := s.withHost keys ins) h,
      timerPhase_withHost keys ins s hdt hst]

end

theorem Executed.inputs_eq {s t : State} {i : Instr} (he : Executed s i t) : t.inputs = s.inputs := by
  cases he <;> rfl

theorem Executed.draws_eq {s t : State} {i : Instr} (he : Executed s i t) : t.draws = s.draws := by
  cases he <;> rfl

theorem tickInputs_congr {s t : State} (hi : t.inputs = s.inputs) (hd : t.draws = s.draws) :
    t.tickInputs = s.tickInputs := by
  rw [State.tickInputs, State.tickInputs, hi, hd]

theorem Ticked.inputs_eq {s t : State} (ht : Ticked s t) : t.inputs = s.inputs := by
  cases ht with
  | fetchFault | rejected | stopped => rfl
  | executed _ _ he => exact (congrArg State.inputs (endOfTick_rest _)).trans he.inputs_eq
  | waiting => exact timerPhase_inputs s

section
variable {keys : Vector Bool 16} {ins : List Input} {s t : State}

/-- A tick commutes with the replacement: its strobes are the same, and its instruction, if it runs one, sees nothing
that differs. -/
theorem tick_withHost (htick : tick s = .next t)
    (hkeys : (∀ x, decode (s.wordAt s.pc.toNat) ≠ .ok (.skp x) ∧ decode (s.wordAt s.pc.toNat) ≠ .ok (.sknp x)) ∨
      keys = s.K)
    (hrnd : (∀ x nn, decode (s.wordAt s.pc.toNat) ≠ .ok (.rnd x nn)) ∨
      (s.withHost keys ins).tickInputs.rnd = s.tickInputs.rnd)
    (hdt : (s.withHost keys ins).tickInputs.dueDt = s.tickInputs.dueDt)
    (hst : (s.withHost keys ins).tickInputs.dueSt = s.tickInputs.dueSt) :
    tick (s.withHost keys ins) = .next (t.withHost keys ins) := by
  have hmodeH : ∀ m, s.MODE = m → (s.withHost keys ins).MODE = m := fun _ h => h
  cases hmode : s.MODE with
  | faulted =>
    cases (tick_of_faulted hmode).symm.trans htick
    exact tick_of_faulted hmode
  | awaitingKey =>
    cases (tick_of_awaitingKey hmode).symm.trans htick
    rw [tick_of_awaitingKey (hmodeH _ hmode), timerPhase_withHost _ _ _ hdt hst]
  | running =>
    by_cases hpc : s.pc = 0xFFF#12
    · cases (tick_of_fetch_raised hmode (fetch_at_top hpc)).symm.trans htick
      exact tick_of_fetch_raised (hmodeH _ hmode) (fetch_at_top hpc)
    · have hf := fetches_of_pc_ne hmode hpc
      have hfH : Fetches (s.withHost keys ins) (s.wordAt s.pc.toNat) := ⟨hf.mode, hf.pc, rfl⟩
      cases hd : decode (s.wordAt s.pc.toNat) with
      | error e =>
        cases (tick_of_decode_error hf hd).symm.trans htick
        exact tick_of_decode_error hfH hd
      | ok i =>
        obtain ⟨u, hu, he⟩ := exec_executed i s
        cases (tick_of_exec hf hd hu).symm.trans htick
        have hexec : exec i (s.withHost keys ins) = .next (u.withHost keys ins) := by
          rw [exec_withHost keys ins s i ?keys ?rnd, hu, onNext]
          case keys => exact hkeys.imp_left fun h x => ⟨fun e => (h x).1 (e ▸ hd), fun e => (h x).2 (e ▸ hd)⟩
          case rnd => exact hrnd.imp_left fun h x nn e => h x nn (e ▸ hd)
        have hin : u.tickInputs = s.tickInputs := tickInputs_congr he.inputs_eq he.draws_eq
        have hinH : (u.withHost keys ins).tickInputs = (s.withHost keys ins).tickInputs :=
          tickInputs_congr rfl he.draws_eq
        rw [tick_of_exec hfH hd hexec, endOfTick_withHost keys ins u (by rw [hinH, hdt, hin]) (by rw [hinH, hst, hin])]

end

/-- Settles O56: with the list kept, the tick commutes with the replacement of the latch unless it runs SKP or SKNP. -/
theorem keysReachOnlyKeySkips : Obligations.KeysReachOnlyKeySkips := by
  intro s t keys htick hskp hsknp
  have hcommutes := tick_withHost (keys := keys) (ins := s.inputs) htick (.inl fun x => ⟨hskp x, hsknp x⟩) (.inr rfl)
    rfl rfl
  have hkept : t.withHost keys s.inputs = { t with K := keys } := by
    rw [← (ticked_of_tick htick).inputs_eq]
    rfl
  exact hcommutes.trans (congrArg Host.Outcome.next hkept)

/-- A tick spends the entry its list began with (R91; log 1). -/
theorem spendInputs_of_tick {s : State} {i : Config.TickInputs} {rest : List Input} (h : s.inputs = .tick i :: rest) :
    spendInputs s = { s with inputs := rest } := by
  simp only [spendInputs, h]

theorem tickIsNext_of_inputs {s : State} {i : Config.TickInputs} {rest : List Input} (h : s.inputs = .tick i :: rest) :
    TickIsNext s := by
  intro e rest' h'
  cases h.symm.trans h'

theorem tickInputs_of_tick {s : State} {i : Config.TickInputs} {rest : List Input} (h : s.inputs = .tick i :: rest) :
    s.tickInputs = i := by
  rw [State.tickInputs, h]

/-- Settles O57: the tick commutes with the replacement of the list's first entry by one with the same strobes unless it
runs RND; both ticks then spend that entry. -/
theorem randomReachesOnlyRnd : Obligations.RandomReachesOnlyRnd := by
  intro s t r r' dt st rest hin hrnd hstep
  obtain ⟨u, hu, ht⟩ := tick_ticked (clearOutputs s)
  cases (step_of_tick (tickIsNext_of_inputs hin) hu).symm.trans hstep
  have hother : ((clearOutputs s).withHost s.K (.tick ⟨r', dt, st⟩ :: rest)).tickInputs = ⟨r', dt, st⟩ :=
    tickInputs_of_tick rfl
  have hgiven : (clearOutputs s).tickInputs = ⟨r, dt, st⟩ := tickInputs_of_tick hin
  have htick := tick_withHost (keys := s.K) (ins := .tick ⟨r', dt, st⟩ :: rest) hu (.inr rfl) (.inl hrnd)
    (by rw [hother, hgiven]) (by rw [hother, hgiven])
  have hrest : u.inputs = .tick ⟨r, dt, st⟩ :: rest := ht.inputs_eq.trans hin
  have hkeys : s.K = u.K := ht.K_eq.symm
  have hspent : spendInputs (u.withHost s.K (.tick ⟨r', dt, st⟩ :: rest)) = spendInputs u := by
    rw [spendInputs_of_tick hrest, spendInputs_of_tick rfl, hkeys]
    rfl
  rw [← hspent]
  exact step_of_tick (s := { s with inputs := .tick ⟨r', dt, st⟩ :: rest }) (tickIsNext_of_inputs rfl) htick

end Sys2Proof.Machine
end

section
/-! PROOFS. The cycle of 40_execution_cycle.md (R90, R92, R97, R99, R103): the step as the decoded instruction and the
timer phase, the timer phase in full, and the ticks that change nothing of the program's. -/

namespace Sys2Proof.Machine

theorem fetches_clearOutputs {s : State} {w : Word} (h : Fetches s w) : Fetches (clearOutputs s) w :=
  ⟨h.mode, h.pc, h.word⟩

/-- Settles O6: the event is `step_of_event`; the tick is `tick_of_exec`, whose last phase is the timer phase or
nothing. -/
theorem stepRunsDecodedInstruction : Obligations.StepRunsDecodedInstruction := by
  refine fun s => ⟨fun e rest hin => step_of_event hin, fun w i t hnext hf hd hexec => ?_⟩
  have hstep := step_of_tick hnext (tick_of_exec (fetches_clearOutputs hf) hd hexec)
  constructor
  · intro hfault
    rw [hstep, endOfTick_of_faulted hfault]
  · intro hmode
    rw [hstep, endOfTick_of_not_faulted hmode]

/-- A timer at 0 does not fall: natural subtraction says so without a test (R97). -/
theorem countDown_eq (due : Bool) (v : Nat) :
    (if due = true then v - 1 else v) = if due = true ∧ v > 0 then v - 1 else v := by
  by_cases h : v > 0
  · simp [h]
  · simp [Nat.eq_zero_of_not_pos h]

/-- Settles O7, from the equations of the timer phase; `countDown_eq` bridges to the test against 0. -/
theorem timerPhaseLaw : Obligations.TimerPhaseLaw := fun s =>
  ⟨(toNat_timerPhase_DT s).trans (countDown_eq _ _), (toNat_timerPhase_ST s).trans (countDown_eq _ _),
    timerPhase_out s, timerPhase_rest s⟩

/-- Spending a tick's inputs touches the host's list and the counter, nothing else (log 1). -/
theorem spendInputs_rest (s : State) :
    spendInputs s = { s with inputs := (spendInputs s).inputs, draws := (spendInputs s).draws } := by
  unfold spendInputs
  split <;> rfl

/-- Settles O9: the tick answers its own state, and the step around it only clears the outputs and spends the inputs. -/
theorem faultedTickDoesNothing : Obligations.FaultedTickDoesNothing := by
  intro s hmode hnext
  have hstep := step_of_tick hnext (tick_of_faulted (s := clearOutputs s) hmode)
  exact ⟨tick_of_faulted hmode, _, _, hstep.trans (congrArg Host.Outcome.next (spendInputs_rest (clearOutputs s)))⟩

/-! ### A jump to itself -/

theorem setPc_self (s : State) : s.setPc s.pc.toNat = s := by
  simp [State.setPc]

/-- After the instruction, a step changes timers and outputs, the host's list and the counter. -/
theorem spendInputs_endOfTick_rest (s : State) :
    spendInputs (endOfTick s) =
      { s with DT := (spendInputs (endOfTick s)).DT, ST := (spendInputs (endOfTick s)).ST,
               out := (spendInputs (endOfTick s)).out, inputs := (spendInputs (endOfTick s)).inputs,
               draws := (spendInputs (endOfTick s)).draws } := by
  conv_lhs => rw [spendInputs_rest]
  simp

/-- A spin depends on neither timers nor outputs nor the host's list. -/
theorem SpinsAt.congr {a : Addr} {s t : State} (h : SpinsAt a s)
    (ht : t = { s with DT := t.DT, ST := t.ST, out := t.out, inputs := t.inputs, draws := t.draws }) : SpinsAt a t := by
  rw [ht]
  exact h

/-- Settles O18: the jump writes to `pc` the value it has (`setPc_self`), so the step changes only what comes after the
instruction (`spendInputs_endOfTick_rest`). -/
theorem jumpToSelfSpins : Obligations.JumpToSelfSpins := by
  intro a s ha hspin hnext
  obtain ⟨hmode, rfl, hd⟩ := hspin
  have hf := fetches_clearOutputs (fetches_of_pc_ne hmode ha)
  have hexec : exec (.jp s.pc) (clearOutputs s) = .next (clearOutputs s) :=
    (exec_jp _ _).trans (congrArg Host.Outcome.next (setPc_self (clearOutputs s)))
  have hrest := spendInputs_endOfTick_rest (clearOutputs s)
  exact ⟨_, step_of_tick hnext (tick_of_exec hf hd hexec), SpinsAt.congr ⟨hmode, rfl, hd⟩ hrest, hrest⟩

end Sys2Proof.Machine
end

section
/-! PROOFS. Jumps, calls and key skips (R112 to R114, R170, R171, R176). -/

namespace Sys2Proof.Machine

theorem setPc_onlyRegs (s : State) (a : Nat) : OnlyRegs s (s.setPc a) [] where
  regs r _ := setPc_getV s a r
  memory m := setPc_byteAt s a m
  rest := rfl

theorem setPc_addr_pc (s : State) (nnn : Addr) : (s.setPc nnn.toNat).pc = nnn := by
  rw [setPc_pc, BitVec.ofNat_toNat, BitVec.setWidth_eq]

/-- Settles O14: both jumps are one write of `pc`, which keeps 12 bits. -/
theorem jumpsSetPcOnly : Obligations.JumpsSetPcOnly := fun s nnn =>
  ⟨decode_jp nnn, decode_jpV0 nnn, ⟨_, exec_jp nnn s, setPc_addr_pc s nnn, setPc_onlyRegs s _⟩,
    ⟨_, exec_jpV0 nnn s, BitVec.toNat_ofNat _ _, setPc_onlyRegs s _⟩⟩

/-- The return address CALL pushes: `pc + 2` in 16 bits, so not reduced (R113, D25). -/
def State.returnAddress (s : State) : Word := BitVec.ofNat 16 (s.pc.toNat + 2)

theorem toNat_returnAddress (s : State) : s.returnAddress.toNat = s.pc.toNat + 2 := by
  have := s.pc.isLt
  rw [State.returnAddress, BitVec.toNat_ofNat]
  omega

theorem exec_call_of_lt {s : State} (nnn : Addr) (h : s.stackLegal) (hlt : s.SP < s.params.stackBase.val + 48) :
    exec (.call nnn) s = .next ((s.pushed s.returnAddress).setPc nnn.toNat) :=
  conclude_of_done (push_of_lt _ h hlt) _

theorem exec_call_of_full {s : State} (nnn : Addr) (h : s.stackLegal) (hfull : s.SP = s.params.stackBase.val + 48) :
    exec (.call nnn) s = .next (takeFault .stackOverflow s.returnAddress.toNat s) :=
  conclude_of_raised (push_of_full _ h hfull) _

theorem byteAt_pushed_high (v : Word) (s : State) : (s.pushed v).byteAt s.SP = highByte v := by
  rw [byteAt_pushed]
  exact byteAt_setBytes_stored (i := 0) (by simp) s.SP s

theorem byteAt_pushed_low (v : Word) (s : State) : (s.pushed v).byteAt (s.SP + 1) = lowByte v := by
  rw [byteAt_pushed]
  exact byteAt_setBytes_stored (i := 1) (by simp) s.SP s

theorem pushed_memoryKept (v : Word) (s : State) : MemoryKept s (s.pushed v) s.SP 2 :=
  setBytes_memoryKept [highByte v, lowByte v] s.SP s

theorem pushed_rest (v : Word) (s : State) :
    s.pushed v = { s with SP := s.SP + 2, MEM := (s.pushed v).MEM } :=
  congrArg (fun u => { u with SP := s.SP + 2 }) (setBytes_rest [highByte v, lowByte v] s.SP s)

/-- Settles O15: CALL ends in the two ways `Push` can (`exec_call_of_lt`, `exec_call_of_full`). -/
theorem callPushesReturnAddress : Obligations.CallPushesReturnAddress := by
  refine fun s nnn hlegal => ⟨decode_call nnn, fun hlt => ?pushed, fun hfull => ?full⟩
  case pushed =>
    refine ⟨_, exec_call_of_lt nnn hlegal hlt, setPc_addr_pc _ nnn, rfl, ?high, ?low, pushed_memoryKept _ s, ?rest⟩
    case high => rw [setPc_byteAt, byteAt_pushed_high, toNat_highByte, toNat_returnAddress]
    case low => rw [setPc_byteAt, byteAt_pushed_low, toNat_lowByte, toNat_returnAddress]
    case rest => exact congrArg (State.setPc · nnn.toNat) (pushed_rest s.returnAddress s)
  case full =>
    refine ⟨_, exec_call_of_full nnn hlegal hfull, ?_⟩
    rw [toNat_returnAddress]
    exact takeFault_faultedFrom .stackOverflow _ s

/-- Settles O17: RET pops the word CALL pushed (`wordAt_pushed`); its low 12 bits are `pc + 2` modulo 4096. -/
theorem callThenReturnContinues : Obligations.CallThenReturnContinues := by
  intro s nnn hlegal hlt
  have hbase : s.params.stackBase.val ≤ s.SP := by obtain ⟨k, -, hs⟩ := hlegal; omega
  have hlegal' : ((s.pushed s.returnAddress).setPc nnn.toNat).stackLegal :=
    pushed_stackLegal s.returnAddress hlegal hlt
  have hgt : ((s.pushed s.returnAddress).setPc nnn.toNat).SP > s.params.stackBase.val := by
    rw [setPc_SP, pushed_SP]
    omega
  refine ⟨_, _, exec_call_of_lt nnn hlegal hlt, exec_ret_of_gt hlegal' hgt, ?pc, rfl⟩
  have hword : ((s.pushed s.returnAddress).setPc nnn.toNat).wordAt s.SP = s.returnAddress := wordAt_pushed _ s
  apply BitVec.eq_of_toNat_eq
  rw [setPc_pc, setPc_SP, pushed_SP, Nat.add_sub_cancel, hword, toNat_returnAddress, BitVec.toNat_ofNat,
    BitVec.toNat_add]
  rfl

/-! ### Key skips -/

theorem exec_skp_of_key {s : State} {x k : Nibble} (h : (s.getV x).toNat = k.toNat) :
    exec (.skp x) s = .next (skipIf (s.key k) s) :=
  conclude_of_done (readKey_valid s h) _

theorem exec_sknp_of_key {s : State} {x k : Nibble} (h : (s.getV x).toNat = k.toNat) :
    exec (.sknp x) s = .next (skipIf (!s.key k) s) :=
  conclude_of_done (readKey_valid s h) _

theorem exec_skp_of_gt {s : State} {x : Nibble} (h : (s.getV x).toNat > 0x0F) :
    exec (.skp x) s = .next (takeFault .keyRange (s.getV x).toNat s) :=
  conclude_of_raised (readKey_invalid s h) _

theorem exec_sknp_of_gt {s : State} {x : Nibble} (h : (s.getV x).toNat > 0x0F) :
    exec (.sknp x) s = .next (takeFault .keyRange (s.getV x).toNat s) :=
  conclude_of_raised (readKey_invalid s h) _

theorem skipIf_not_pc (b : Bool) (s : State) :
    (skipIf (!b) s).pc = if b = true then s.pc + 2#12 else s.pc + 4#12 := by
  cases b <;> exact skipIf_pc _ s

/-- Settles O20: with a key code both are one skip on the latch entry; above 0x0F both are fault entry. -/
theorem keySkips : Obligations.KeySkips := fun s x =>
  ⟨decode_familyE x _, decode_familyE x _,
    fun _ hk => ⟨⟨_, exec_skp_of_key hk, skipIf_onlyRegs _ s, skipIf_pc _ s⟩,
      ⟨_, exec_sknp_of_key hk, skipIf_onlyRegs _ s, skipIf_not_pc _ s⟩⟩,
    fun hgt => ⟨⟨_, exec_skp_of_gt hgt, takeFault_faultedFrom _ _ s⟩,
      ⟨_, exec_sknp_of_gt hgt, takeFault_faultedFrom _ _ s⟩⟩⟩

end Sys2Proof.Machine
end

section
/-! PROOFS. RND, and the forms that write the address register (R141, R150 to R152). -/

namespace Sys2Proof.Machine

theorem and_and_not_self (r nn : Byte) : (r &&& nn) &&& ~~~nn = 0x00#8 := by
  rw [BitVec.and_assoc, BitVec.and_not_self]
  exact BitVec.and_zero

theorem toNat_and_le (r nn : Byte) : (r &&& nn).toNat ≤ nn.toNat := by
  rw [BitVec.toNat_and]
  exact Nat.and_le_right

/-- Settles O26: RND ends as a register load with the tick's random byte under the mask; what the mask shuts out holds
for every byte. -/
theorem randomByteUnderMask : Obligations.RandomByteUnderMask := by
  intro s x nn
  refine ⟨decode_rnd x nn, _, exec_rnd x nn s, resultOnly_pc .., resultOnly_onlyRegs .., ?given, ?some, ?masked, ?bound⟩
  case given =>
    intro r dt st rest hin
    rw [resultOnly_getV_dest, tickInputs_of_tick hin]
  case some => exact ⟨s.tickInputs.rnd, resultOnly_getV_dest ..⟩
  case masked => rw [resultOnly_getV_dest, and_and_not_self]
  case bound => rw [resultOnly_getV_dest]; exact toNat_and_le _ _

/-- Settles O27: each is one write of `I`, whose value fits in 16 bits, and the advance. -/
theorem loadAddressForms : Obligations.LoadAddressForms := by
  intro s x nnn
  refine ⟨decode_ldI nnn, decode_familyF x _,
    ⟨_, exec_ldI nnn s, ?immediate, advance_pc_eq_add _ 2, fun _ => rfl, rfl⟩,
    ⟨_, exec_ldF x s, ?glyph, advance_pc_eq_add _ 2, fun _ => rfl, rfl⟩⟩
  case immediate =>
    have := nnn.isLt
    rw [advance_I, setI_I, BitVec.toNat_ofNat]
    omega
  case glyph =>
    have := (s.getV x).isLt
    rw [advance_I, setI_I, BitVec.toNat_ofNat, glyphAddress_eq]
    omega

/-- ADD_I as its sum: the result fits in 16 bits, so `I` is exactly `addIResult` of it (R151). -/
theorem toNat_setI_addIResult {s : State} {sum : Nat} (h : sum ≤ 0xFFF + 255) :
    (s.setI (addIResult sum)).I.toNat = addIResult sum := by
  have := addIResult_le h
  rw [setI_I, BitVec.toNat_ofNat]
  omega

theorem addIResult_of_gt {sum : Nat} (h : sum > 0xFFF) : addIResult sum = sum - 0xFFF := if_pos h

theorem addIResult_of_le {sum : Nat} (h : sum ≤ 0xFFF) : addIResult sum = sum := if_neg (Nat.not_lt.mpr h)

theorem addIFlag_of_gt {sum : Nat} (h : sum > 0xFFF) : addIFlag sum = 0x01#8 := by
  rw [addIFlag, decide_eq_true h]
  rfl

theorem addIFlag_of_le {sum : Nat} (h : sum ≤ 0xFFF) : addIFlag sum = 0x00#8 := by
  rw [addIFlag, decide_eq_false (Nat.not_lt.mpr h)]
  rfl

/-- Settles O28: `I` gets `addIResult` of the sum and VF `addIFlag` of it, and both look only at whether it is above
0xFFF. -/
theorem addToAddressRegister : Obligations.AddToAddressRegister := by
  intro s x hI
  have hsum : s.I.toNat + (s.getV x).toNat ≤ 0xFFF + 255 := by have := (s.getV x).isLt; omega
  have hval := toNat_setI_addIResult (s := s) hsum
  have hflag : ∀ f, (((s.setI (addIResult (s.I.toNat + (s.getV x).toNat))).setVF f).advance 2).getV 0xF#4 = f :=
    fun f => getV_setVF_same _ f
  refine ⟨decode_familyF x _, _, exec_addI x s, advance_pc_eq_add _ 2, fun hgt => ⟨?_, ?_⟩, fun hle => ⟨?_, ?_⟩,
    hval.trans_le (addIResult_le hsum), fun r hr => ?_, fun _ => rfl, rfl⟩
  · exact hval.trans (addIResult_of_gt hgt)
  · exact (hflag _).trans (addIFlag_of_gt hgt)
  · exact hval.trans (addIResult_of_le hle)
  · exact (hflag _).trans (addIFlag_of_le hle)
  · rw [advance_getV, getV_setVF, if_neg (by simpa using hr), setI_getV]

end Sys2Proof.Machine
end

section
/-! PROOFS. Memory (R45 to R47) and its canonical form. -/

namespace Sys2Proof.Machine

/-- Settles O58: the write puts the byte (`memWrite_valid`), and `byteAt_setByte` says what is read after it. -/
theorem writeThenRead : Obligations.WriteThenRead := by
  intro s a v ha
  have hvalid : a < 4096 := by omega
  refine ⟨s.setByte a v, memWrite_valid s v hvalid, ?readBack, ?kept, rfl⟩
  case readBack => rw [memRead_valid _ hvalid, byteAt_setByte_same]
  case kept =>
    intro b hb
    rw [byteAt_setByte, if_neg (by omega)]

/-- Settles O59: no primitive looks at an address that the check refuses. -/
theorem outOfRangeIsNeverWrapped : Obligations.OutOfRangeIsNeverWrapped := fun s _ v ha =>
  ⟨memRead_invalid s ha, memWrite_invalid s v ha, memReadWord_invalid s ha, memReadWord_top s⟩

/-! ### The canonical form -/

theorem find?_eq_none_of_risesFrom {m : Memory} {a b : Nat} (h : Memory.risesFrom b m = true) (ha : a < b) :
    Memory.find? m a = none := by
  induction m generalizing b with
  | nil => rfl
  | cons c m ih =>
    obtain ⟨k, w⟩ := c
    simp only [Memory.risesFrom, Bool.and_eq_true, decide_eq_true_eq] at h
    obtain ⟨hbk, hm⟩ := h
    rw [Memory.find?, if_neg (by omega), ih hm (by omega)]

theorem mem_of_find? {m : Memory} {a : Nat} {v : Byte} (h : Memory.find? m a = some v) : (a, v) ∈ m := by
  induction m with
  | nil => cases h
  | cons c m ih =>
    obtain ⟨k, w⟩ := c
    rw [Memory.find?] at h
    split_ifs at h with hk
    · subst hk
      cases h
      exact List.mem_cons_self
    · exact List.mem_cons_of_mem _ (ih h)

/-- A canonical list says at each address whether and what it lists by what is read there: a listed byte is never the
unlisted one. -/
theorem find?_eq_some_iff_of_wf {font : Vector (Vector Byte 5) 16} {m : Memory} (h : Memory.wf font m = true) (a : Nat)
    (v : Byte) : Memory.find? m a = some v ↔ Memory.get font m a = v ∧ v ≠ Memory.unlisted font a := by
  simp only [Memory.wf, Bool.and_eq_true, List.all_eq_true, bne_iff_ne] at h
  obtain ⟨-, hall⟩ := h
  unfold Memory.get
  constructor
  · intro hv
    exact ⟨by rw [hv], (hall _ (mem_of_find? hv)).2⟩
  · rintro ⟨hget, hne⟩
    cases hv : Memory.find? m a with
    | none =>
      rw [hv] at hget
      exact absurd hget.symm hne
    | some w =>
      rw [hv] at hget
      exact congrArg some hget

/-- Of two rising lists that find alike, neither begins below the other. -/
theorem head_le_of_find?_eq {m n : Memory} {j k : Nat} {v w : Byte} (hn : Memory.risesFrom j ((j, v) :: n) = true)
    (hfind : Memory.find? ((k, w) :: m) k = Memory.find? ((j, v) :: n) k) : j ≤ k := by
  by_contra hlt
  rw [find?_eq_none_of_risesFrom hn (by omega), Memory.find?, if_pos rfl] at hfind
  cases hfind

theorem risesFrom_head {m : Memory} {b k : Nat} {w : Byte} (h : Memory.risesFrom b ((k, w) :: m) = true) :
    Memory.risesFrom k ((k, w) :: m) = true ∧ Memory.risesFrom (k + 1) m = true := by
  simp_all [Memory.risesFrom]

theorem eq_of_find?_eq {m n : Memory} {b c : Nat} (hm : Memory.risesFrom b m = true) (hn : Memory.risesFrom c n = true)
    (h : ∀ a, Memory.find? m a = Memory.find? n a) : m = n := by
  induction m generalizing b c n with
  | nil =>
    cases n with
    | nil => rfl
    | cons d n => simpa [Memory.find?] using h d.1
  | cons d m ih =>
    obtain ⟨k, w⟩ := d
    cases n with
    | nil => simpa [Memory.find?] using h k
    | cons e n =>
      obtain ⟨j, v⟩ := e
      obtain ⟨hm, hmTail⟩ := risesFrom_head hm
      obtain ⟨hn, hnTail⟩ := risesFrom_head hn
      obtain rfl : k = j := le_antisymm (head_le_of_find?_eq hm (h j).symm) (head_le_of_find?_eq hn (h k))
      obtain rfl : w = v := by simpa [Memory.find?] using h k
      have htails : ∀ a, Memory.find? m a = Memory.find? n a := by
        intro a
        by_cases ha : k = a
        · subst ha
          have hbelow := Nat.lt_succ_self k
          rw [find?_eq_none_of_risesFrom hmTail hbelow, find?_eq_none_of_risesFrom hnTail hbelow]
        · simpa [Memory.find?, ha] using h a
      rw [ih hmTail hnTail htails]

/-- Settles O60: canonical lists that read alike find alike (`find?_eq_some_iff_of_wf`), and rising lists that find
alike are equal (`eq_of_find?_eq`). -/
theorem canonicalMemoryIsUnique : Obligations.CanonicalMemoryIsUnique := by
  intro font m n hm hn h
  have hfind : ∀ a, Memory.find? m a = Memory.find? n a := fun a => Option.ext fun v => by
    rw [find?_eq_some_iff_of_wf hm, find?_eq_some_iff_of_wf hn, h a]
  simp only [Memory.wf, Bool.and_eq_true] at hm hn
  exact eq_of_find?_eq hm.1 hn.1 hfind

end Sys2Proof.Machine
end

section
/-! PROOFS. The block transfers of registers (R154, R155, R60): ST_REGS as a block store, LD_REGS as a block load, and
what is seen of a store afterwards. -/

namespace Sys2Proof.Machine

theorem getElem_registersUpTo {s : State} {x k : Nibble} (h : k.toNat < (s.registersUpTo x).length) :
    (s.registersUpTo x)[k.toNat] = s.getV k := by
  simp [State.registersUpTo]

/-- Settles O30: ST_REGS is the block store of `V[0]` to `V[X]` (`conclude_storeBytes`). -/
theorem storeRegisters : Obligations.StoreRegisters := by
  intro s x hI
  obtain ⟨t, hexec, hstored, hfits, hleaves⟩ := conclude_storeBytes (s.registersUpTo x) s hI
  rw [registersUpTo_length] at hfits hleaves
  refine ⟨decode_familyF x _, t, (exec_stRegs x s).trans hexec, fun k hk hle => ?stored, fun h => hfits (by omega),
    fun h => hleaves (by omega)⟩
  case stored =>
    have hlen : k.toNat < (s.registersUpTo x).length := by rw [registersUpTo_length]; omega
    rw [hstored k.toNat hlen hle, getElem_registersUpTo hlen]

/-- Settles O31: LD_REGS loads the registers whose bytes are below 0x1000 (`loadRegisters_fits`, `loadRegisters_raises`)
and then advances or faults. -/
theorem loadRegisters_law : Obligations.LoadRegisters := by
  intro s x hI
  have hx := x.isLt
  refine ⟨decode_familyF x _, ?_⟩
  by_cases hin : s.I.toNat + x.toNat ≤ 0xFFF
  · obtain ⟨u, hload, hrest, hreg⟩ := loadRegisters_fits (count := x.toNat + 1) (k := 0) s (by omega)
      (show s.I.toNat + (x.toNat + 1) ≤ 4096 by omega)
    refine ⟨u.advance 2, conclude_of_done hload _, fun k hk _ => ?_, fun k hk => ?_, fun a => ?_, fun _ => ⟨?_, ?_⟩,
      fun h => absurd hin (Nat.not_le_of_gt h)⟩
    · exact (hreg k).trans (if_pos (by omega))
    · exact (hreg k).trans (if_neg (by omega))
    · rw [advance_byteAt, hrest]; rfl
    · rw [advance_pc_eq_add, hrest]
    · exact congrArg (fun w => { w with pc := (u.advance 2).pc }) hrest
  · obtain ⟨u, hload, hrest, hreg⟩ := loadRegisters_raises (count := x.toNat + 1) (k := 0) s (by omega)
      (show s.I.toNat ≤ 4096 by omega) (by omega)
    refine ⟨takeFault .memBounds 0x1000 u, conclude_of_raised hload _, fun k hk hle => ?_, fun k hk => ?_, fun a => ?_,
      fun h => absurd h hin, fun _ => ?_⟩
    · exact (hreg k).trans (if_pos (by omega))
    · exact (hreg k).trans (if_neg (by omega))
    · rw [takeFault_byteAt, hrest]; rfl
    · exact congrArg (takeFault .memBounds 0x1000) hrest

/-- Settles O32: the load reads the bytes the store left at `I` on, since `I` and memory are those of `t`. -/
theorem dumpThenLoadRestores : Obligations.DumpThenLoadRestores := by
  intro s t u x hin hexec hI hmem
  obtain ⟨-, t', hexec', hstored, hfits, -⟩ := storeRegisters s x (by omega)
  cases hexec'.symm.trans hexec
  obtain ⟨-, hstores⟩ := hfits hin
  have hsame : u.I = s.I := by rw [hI, hstores.rest]
  obtain ⟨-, r, hload, hloaded, -, -, hdone, -⟩ := loadRegisters_law u x (by rw [hsame]; omega)
  obtain ⟨-, hrest⟩ := hdone (by rw [hsame]; omega)
  refine ⟨r, hload, by rw [hrest], fun k hk => ?_⟩
  rw [hloaded k hk (by rw [hsame]; omega), hsame, hmem, hstored k hk (by omega)]

/-- Settles O33: ST_REGS moves `pc` to the word it stored over, both of whose bytes are registers (O30), and the fetch
reads them. -/
theorem storeIsSeenByTheNextFetch : Obligations.StoreIsSeenByTheNextFetch := by
  intro s x j k hin hk hkx hpc
  obtain ⟨-, t, hexec, hstored, hfits, -⟩ := storeRegisters s x (by omega)
  obtain ⟨hpct, -⟩ := hfits hin
  refine ⟨t, hexec, ?_⟩
  have hne : t.pc ≠ 0xFFF#12 := by
    rw [hpct]
    intro htop
    rw [htop] at hpc
    simp only [BitVec.toNat_ofNat] at hpc
    omega
  have hlow : s.I.toNat + j.toNat + 1 = s.I.toNat + k.toNat := by omega
  rw [fetch_below_top hne, State.wordAt, hpct, hpc, hlow, hstored j (by omega) (by omega), hstored k hkx (by omega)]

end Sys2Proof.Machine
end

section
/-! PROOFS. The sprite of 45_graphics.md (R161, R162): how DRW ends inside the address space and past it, and that
drawing twice changes no pixel. -/

namespace Sys2Proof.Machine

/-- Does the sprite have a 1 where a pixel of the grid is on (R162)? -/
def Collides (s : State) (x y rows a : Nat) : Prop :=
  ∃ px py : Nat, px < 64 ∧ py < 32 ∧ Framebuffer.pixel s.FB px py = true ∧ spriteBit s x y rows a px py = true

/-- `t` is `s` with the sprite's first `rows` rows drawn: the grid's pixels toggled where the sprite has a 1, and
nothing else changed (R162). -/
structure SpriteDrawn (s t : State) (x y rows a : Nat) : Prop where
  pixels : ∀ px py, px < 64 → py < 32 →
    Framebuffer.pixel t.FB px py = (Framebuffer.pixel s.FB px py ^^ spriteBit s x y rows a px py)
  rest   : t = { s with FB := t.FB }

/-- A sprite inside the address space is drawn whole (R162). -/
theorem drawSprite_of_fits (s : State) {x y rows a : Nat} (h : a + rows ≤ 4096) :
    ∃ c u, drawSprite x y rows a s = .done c (emitRefresh u) ∧ SpriteDrawn s u x y rows a ∧
      (c = true ↔ Collides s x y rows a) := by
  obtain ⟨c, u, hrows, hrest, hpixels, hcollision⟩ := drawRows_fits x y a false s h
  exact ⟨c, u, drawSprite_of_done hrows, ⟨hpixels, hrest⟩, by simpa [Collides] using hcollision⟩

/-- Of a sprite that leaves the address space the rows below 0x1000 are drawn (R100, R161). -/
theorem drawSprite_of_leaves (s : State) {x y rows a : Nat} (ha : a ≤ 4096) (h : 4096 < a + rows) :
    ∃ u, drawSprite x y rows a s = .raised .memBounds 4096 u ∧ SpriteDrawn s u x y (4096 - a) a := by
  obtain ⟨c, u, hdone, hraised⟩ := drawRows_raises x y a false s ha h
  obtain ⟨c', u', hdone', hrest, hpixels, -⟩ :=
    drawRows_fits (h := 4096 - a) x y a false s (by omega)
  cases hdone'.symm.trans hdone
  exact ⟨u, drawSprite_of_raised hraised, ⟨hpixels, hrest⟩⟩

theorem flagByte_eq_one_iff (b : Bool) : flagByte b = 0x01#8 ↔ b = true := by
  cases b <;> simp [flagByte]

theorem flagByte_eq_one_or_zero (b : Bool) : flagByte b = 0x01#8 ∨ flagByte b = 0x00#8 := by
  cases b <;> simp [flagByte]

/-- Settles O35: the sprite is drawn (`drawSprite_of_fits`), then come VF, the refresh and the advance; or the rows that
fit are drawn (`drawSprite_of_leaves`), then comes fault entry alone. -/
theorem drawSprite_law : Obligations.DrawSprite := by
  intro s x y n hI
  refine ⟨decode_drw x y n, ?_⟩
  by_cases hin : s.I.toNat + n.toNat ≤ 0x1000
  · obtain ⟨c, u, hdraw, hdrawn, hcollides⟩ := drawSprite_of_fits s (x := (s.getV x).toNat) (y := (s.getV y).toNat) hin
    have hflag : (((emitRefresh u).setVF (flagByte c)).advance 2).getV 0xF#4 = flagByte c := getV_setVF_same _ _
    refine ⟨_, conclude_of_done hdraw _,
      fun _ => ⟨hdrawn.pixels, ?binary, ?collision, ?pc, ?out, ?regs, ?memory, ?rest⟩, fun h => absurd hin (Nat.not_le_of_gt h)⟩
    case binary => rw [hflag]; exact flagByte_eq_one_or_zero c
    case collision => rw [hflag, flagByte_eq_one_iff]; exact hcollides
    case pc => rw [advance_pc_eq_add, setVF_pc, emitRefresh_pc, hdrawn.rest]
    case out => rw [advance_out, setVF_out, emitRefresh_out, hdrawn.rest]
    case regs =>
      intro r hr
      rw [advance_getV, getV_setVF, if_neg (by simpa using hr), emitRefresh_getV, hdrawn.rest]
      rfl
    case memory =>
      intro m
      rw [advance_byteAt, setVF_byteAt, emitRefresh_byteAt, hdrawn.rest]
      rfl
    case rest =>
      rw [hdrawn.rest]
      rfl
  · obtain ⟨u, hdraw, hdrawn⟩ := drawSprite_of_leaves s (x := (s.getV x).toNat) (y := (s.getV y).toNat)
      (show s.I.toNat ≤ 4096 by omega) (Nat.lt_of_not_le hin)
    refine ⟨_, conclude_of_raised hdraw _, fun h => absurd h hin, fun _ => ⟨hdrawn.pixels, ?memoryF, ?faulted⟩⟩
    case memoryF =>
      intro m
      rw [takeFault_byteAt, hdrawn.rest]
      rfl
    case faulted => exact congrArg (takeFault .memBounds 4096) hdrawn.rest

theorem spriteBit_no_rows (s : State) (x y a px py : Nat) : spriteBit s x y 0 a px py = false := by
  have hempty : ¬(x ≤ px ∧ px < x + 8 ∧ y ≤ py ∧ py < y + 0) := by omega
  rw [spriteBit, decide_eq_false hempty, Bool.false_and]

/-- A sprite that is drawn to its end leaves the pixels `SpriteDrawn` says, wherever it stands: one past the address
space is drawn to its end only if it has no row. -/
theorem SpriteDrawn.of_done {s t : State} {x y rows a : Nat} {c : Bool} (h : drawSprite x y rows a s = .done c t) :
    ∃ u, t = emitRefresh u ∧ SpriteDrawn s u x y rows a := by
  by_cases hin : a + rows ≤ 4096
  · obtain ⟨c', u, hdone, hdrawn, -⟩ := drawSprite_of_fits s (x := x) (y := y) hin
    cases hdone.symm.trans h
    exact ⟨u, rfl, hdrawn⟩
  · by_cases ha : a ≤ 4096
    · obtain ⟨u, hraised, -⟩ := drawSprite_of_leaves s (x := x) (y := y) ha (Nat.lt_of_not_le hin)
      cases hraised.symm.trans h
    · cases rows with
      | zero =>
        cases h
        exact ⟨s, rfl, fun px py _ _ => by rw [spriteBit_no_rows, Bool.xor_false], rfl⟩
      | succ rows =>
        have hraised : drawRows (rows + 1) x y a false s = .raised .memBounds a s := by
          simp only [drawRows, memRead_invalid s (show 4096 ≤ a by omega)]
        cases (drawSprite_of_raised hraised).symm.trans h

/-- The sprite itself is memory, which drawing does not touch. -/
theorem spriteBit_emitRefresh_drawn {s u : State} {x y rows a : Nat} (h : SpriteDrawn s u x y rows a) (px py : Nat) :
    spriteBit (emitRefresh u) x y rows a px py = spriteBit s x y rows a px py := by
  rw [h.rest]
  rfl

/-- Settles O36: every pixel is toggled by the same sprite bit twice. -/
theorem drawingTwiceRestores : Obligations.DrawingTwiceRestores := by
  intro s t u x y h a c d hfirst hsecond
  obtain ⟨t, rfl, hdrawn⟩ := SpriteDrawn.of_done hfirst
  obtain ⟨u, rfl, hredrawn⟩ := SpriteDrawn.of_done hsecond
  refine framebuffer_ext fun px py hx hy => ?_
  rw [emitRefresh_FB, hredrawn.pixels px py hx hy, spriteBit_emitRefresh_drawn hdrawn, emitRefresh_FB,
    hdrawn.pixels px py hx hy, Bool.xor_assoc, Bool.xor_self, Bool.xor_false]

end Sys2Proof.Machine
end

section
/-! PROOFS. Keys, host ports, reset and load (R31 to R33, R172, R218 to R226, R240 to R242). -/

namespace Sys2Proof.Machine

/-! ### The key port -/

/-- The state after the press that ends a wait (R172, R218). -/
def State.woken (s : State) (k : Nibble) (code : Byte) : State :=
  { ((s.setKey k true).setV s.WAITREG code).advance 2 with MODE := .running }

section
variable (s : State) (k : Nibble) (code : Byte)

theorem woken_getV_waitreg : (s.woken k code).getV s.WAITREG = code := getV_setV_same (s.setKey k true) s.WAITREG code

theorem woken_regsKept : RegsKept s (s.woken k code) [s.WAITREG] := fun _ hr =>
  getV_setV_ne (s.setKey k true) (by simpa using hr) code

theorem woken_key_same : (s.woken k code).key k = true := key_setKey_same s k true

variable {k} in
theorem woken_key_ne {j : Nibble} (h : j ≠ k) : (s.woken k code).key j = s.key j := key_setKey_ne s h true

theorem woken_pc : (s.woken k code).pc = s.pc + 2#12 := advance_pc_eq_add _ 2

theorem woken_allMemoryKept : AllMemoryKept s (s.woken k code) := fun _ => rfl

theorem woken_rest : s.woken k code =
    { s with V := (s.woken k code).V, K := (s.woken k code).K, pc := (s.woken k code).pc, MODE := .running } := rfl

end

/-- Settles O42: the code is ignored, or the latch is written, and a press while waiting also ends the wait
(`State.woken`). -/
theorem setKeyStateLaw : Obligations.SetKeyStateLaw := by
  refine fun s code pressed => ⟨_, rfl, setKeyState_of_gt pressed s, fun k hk => ?_⟩
  rw [hostEvent_setKeyState]
  by_cases hasleep : pressed = false ∨ s.MODE ≠ .awaitingKey
  · rw [setKeyState_of_not_waking hk hasleep]
    refine ⟨key_setKey_same s k pressed, fun j hj => key_setKey_ne s hj pressed, fun hp hmode => ?_, fun _ => rfl⟩
    exact absurd hmode (hasleep.resolve_left (by simp [hp]))
  · simp only [not_or, Bool.not_eq_false, not_not] at hasleep
    obtain ⟨rfl, hmode⟩ := hasleep
    rw [setKeyState_of_waking hk hmode]
    refine ⟨woken_key_same s k code, fun j hj => woken_key_ne s code hj, fun _ _ => ?_, fun h => ?_⟩
    · exact ⟨woken_getV_waitreg s k code, woken_regsKept s k code, woken_pc s k code, woken_allMemoryKept s k code,
        woken_rest s k code⟩
    · exact absurd hmode (h.resolve_left Bool.noConfusion)

theorem toNat_keyCode (k : Nibble) : (k.setWidth 8).toNat = k.toNat := by
  have := k.isLt
  rw [BitVec.toNat_setWidth]
  omega

/-- A code above 0x0F or a release leaves the wait as it is. -/
theorem setKeyState_keeps_waiting (s : State) {code : Byte} {pressed : Bool} (h : code.toNat > 0x0F ∨ pressed = false) :
    (setKeyState code pressed s).MODE = s.MODE ∧ (setKeyState code pressed s).WAITREG = s.WAITREG ∧
      (setKeyState code pressed s).pc = s.pc ∧ (setKeyState code pressed s).V = s.V := by
  by_cases hcode : code.toNat > 0x0F
  · rw [setKeyState_of_gt pressed s hcode]
    exact ⟨rfl, rfl, rfl, rfl⟩
  · have hk : code.toNat = (BitVec.ofNat 4 code.toNat).toNat := (toNat_ofNat4 (by omega)).symm
    rw [setKeyState_of_not_waking hk (.inl (h.resolve_left hcode))]
    exact ⟨rfl, rfl, rfl, rfl⟩

/-- Settles O37: the instruction starts the wait (`exec_ldVxK`) and its tick ends with the timer phase; the wait's own
ticks are the timer phase alone, and of the key writes only a press ends it (`State.woken`). -/
theorem waitForKeyPress : Obligations.WaitForKeyPress := by
  intro s x
  refine ⟨decode_familyF x _, ⟨_, exec_ldVxK x s, rfl, fun w hf hd => ?tick⟩,
    fun hmode hreg => ⟨?waits, ?ignores, ?wakes⟩⟩
  case tick =>
    rw [tick_of_exec hf hd (exec_ldVxK x s), endOfTick_of_not_faulted Mode.noConfusion]
  case waits =>
    exact ⟨_, tick_of_awaitingKey hmode, (timerPhase_MODE s).trans hmode, (timerPhase_WAITREG s).trans hreg,
      timerPhase_pc s, timerPhase_V s⟩
  case ignores =>
    intro code pressed h
    have hkept := setKeyState_keeps_waiting s h
    rwa [hmode, hreg] at hkept
  case wakes =>
    rintro k u rfl
    subst hreg
    rw [setKeyState_of_waking (toNat_keyCode k) hmode]
    exact ⟨woken_getV_waitreg s k _, woken_regsKept s k _, woken_key_same s k _, fun j hj => woken_key_ne s _ hj,
      woken_pc s k _, woken_allMemoryKept s k _, woken_rest s k _⟩

/-! ### Power-on, reset, load -/

/-- Settles O39: registers, keys and pixels are replicas, and memory, nothing listed, reads as the power-on contents. -/
theorem powerOnValues : Obligations.PowerOnValues := fun p =>
  ⟨_, rfl, powerOn_getV p, rfl, rfl, rfl, rfl, rfl, rfl, rfl, rfl, rfl, pixel_cleared, powerOn_key p,
    fun _ _ hd hr => unlisted_font p.font hd hr, fun _ ha _ => unlisted_above p.font ha⟩

/-- Settles O40, field by field from `resetState`. -/
theorem resetEstablishes : Obligations.ResetEstablishes := fun s =>
  ⟨_, rfl, resetState_getV s, rfl, rfl, rfl, rfl, rfl, rfl, rfl, rfl, rfl, pixel_cleared, rfl, rfl, fun _ => rfl,
    rfl, rfl, rfl, rfl⟩

/-- Settles O41: the image is stored from 0x200 on after a reset, whole (`loadROM_of_fits`) or cut off at 3584 bytes
(`loadROM_of_leaves`). -/
theorem loadRomCopiesTheImage : Obligations.LoadRomCopiesTheImage := by
  refine fun s bytes => ⟨_, rfl, ?_⟩
  rw [hostEvent_loadROM, hostEvent_reset]
  by_cases hlen : bytes.length ≤ 3584
  · rw [loadROM_of_fits s hlen, Nat.min_eq_left hlen]
    refine ⟨fun j hj _ => byteAt_setBytes_stored hj 0x200 _, setBytes_memoryKept bytes 0x200 (resetState s),
      fun _ => setBytes_rest bytes 0x200 _, fun h => absurd hlen (Nat.not_le_of_gt h)⟩
  · have htake : (bytes.take 3584).length = 3584 := List.length_take_of_le (by omega)
    have hkept := setBytes_memoryKept (bytes.take 3584) 0x200 (resetState s)
    rw [htake] at hkept
    rw [loadROM_of_leaves s (by omega), Nat.min_eq_right (by omega)]
    refine ⟨fun j hj hlt => ?_, hkept, fun h => absurd h hlen,
      fun _ => setBytes_takeFault_faultedFrom _ 0x200 (resetState s) .memBounds 0x1000⟩
    rw [takeFault_byteAt, byteAt_setBytes_stored (i := j) (by omega), List.getElem_take]

/-! ### The debug and memory ports -/

theorem debugSetReg_of_le {r : Nibble} (b : Byte) (s : State) : debugSetReg r.toNat b s = s.setV r b := by
  have hle : ¬ r.toNat > 15 := by have := r.isLt; omega
  rw [debugSetReg, if_neg hle, ofNat4_eq rfl]

/-- Settles O43: each port tests its range, then writes its target or raises the reply. -/
theorem debugWritesAreRangeChecked : Obligations.DebugWritesAreRangeChecked := by
  refine fun s v b i =>
    ⟨fun hle => ⟨?pc, ?address⟩, fun hgt => ⟨if_pos hgt, if_pos hgt⟩, ?register, fun hgt => if_pos hgt⟩
  case pc =>
    have hset : debugSetPC v s = s.setPc v.toNat := if_neg (Nat.not_lt.mpr hle)
    exact hset.trans (congrArg (fun p => { s with pc := p }) (BitVec.ofNat_toNat 12 v))
  case address =>
    have hset : debugSetI v s = s.setI v.toNat := if_neg (Nat.not_lt.mpr hle)
    exact hset.trans (congrArg (fun a => { s with I := a }) ((BitVec.ofNat_toNat 16 v).trans (BitVec.setWidth_eq v)))
  case register =>
    rintro r rfl
    exact ⟨s.setV r b, debugSetReg_of_le b s, getV_setV_same s r b,
      fun q hq => getV_setV_ne s (by simpa using hq) b, rfl⟩

/-- Settles O44: WriteByte is one `setByte`; the key read is the latch entry for a code that is a key. -/
theorem hostMemoryAndKeyPorts : Obligations.HostMemoryAndKeyPorts := by
  have hread := byteAt_setByte_same
  refine fun s a v code => ⟨⟨s.setByte a.toNat v, rfl, hread s _ v, hread s _ v, ?kept, rfl⟩, fun k hk => ?key, fun hgt => if_pos hgt⟩
  case kept =>
    intro b hb
    rw [byteAt_setByte, if_neg (by omega)]
  case key =>
    have hle : ¬ code.toNat > 0x0F := by have := k.isLt; omega
    rw [getKeyState, if_neg hle, ofNat4_eq hk]

end Sys2Proof.Machine
end
